-- ==== Sys2Proof/Word.lean ====
section
/-! DEFINITION. The plain types of the machine: bytes, bits, levels, pin identifiers. -/

namespace Sys2Proof

/-- One byte of a command or reply frame (30_encoding.md R71). -/
abbrev Byte := BitVec 8

/-- A bit (00_scope.md R9): `false` is 0 and `true` is 1. -/
abbrev Bit := Bool

/-- A BitSequence (00_scope.md R10): index 0 is the first bit supplied and the first bit shifted. -/
abbrev BitSequence := List Bit

/-- A pin identifier: an integer that names one of the host's physical pins (20_memory.md R50, R57). -/
abbrev PinId := Int

/-- The level of a line (00_scope.md R9). -/
inductive Level where
  | low
  | high
  deriving DecidableEq, Repr, Inhabited

end Sys2Proof
end

