-- ==== Sys2Proof/Config.lean ====
section
/-! DEFINITION. What is fixed for a machine, and the free values.

The two open parameters PIN_VALID and N_MAX (00_scope.md R7) are plain data held in State, so that every statement
about all states is a statement about all of them (notes/assumptions/1.md). The free values are constants with no
body: nothing can be proved about which value they are. -/

namespace Sys2Proof.Config

/-- BITS_PER_CHIP (00_scope.md R6): fixed by the source, not a parameter. -/
def bitsPerChip : Nat := 8

/-- An interval of valid pin identifiers, both ends included. -/
structure PinRange where
  lo : Int
  hi : Int
  deriving DecidableEq, Repr

/-- The parameters fixed when the block is built (00_scope.md R7, 70_reset_and_hazards.md R242 item 2). -/
structure Params where
  /-- PIN_VALID (92_eei_decisions.md D15), as the ranges whose union it is. -/
  validPins : List PinRange
  /-- N_MAX (92_eei_decisions.md D16): `none` is unbounded. -/
  maxDepth : Option Nat
  deriving DecidableEq, Repr

/-- FREE VALUE (92_eei_decisions.md D14): the level a line shows when draw number `k` configures pin `p`. -/
opaque initLevel : Nat → PinId → Level

/-- FREE VALUE (D30): the power-on content of stage `i` of the chain. -/
opaque powerOnStage : Nat → Bit

/-- FREE VALUE (D30): the power-on content of output `i` of the chain. -/
opaque powerOnStorage : Nat → Bit

/-- FREE VALUE: the bit that enters the chain at draw number `k`, when there is no level to sample: the serial pin is not
configured (60_exceptions.md R227), or is the shift clock itself (notes/assumptions/29.md). -/
opaque enteringBit : Nat → Bit

/-- FREE VALUE: stage `i` of the chain after draw number `k`: where a premise of 60_exceptions.md R232 has failed (R233,
R223; notes/assumptions/8.md), after the reset input (10_state.md R36), after rewiring (notes/assumptions/25.md). -/
opaque openStage : Nat → Nat → Bit

/-- FREE VALUE: output `i` of the chain after draw number `k`, in the same cases, and at a rising edge of a pin that is both
clocks (notes/assumptions/29.md). -/
opaque openStorage : Nat → Nat → Bit

/-- FREE VALUE: the level of line `p` after draw number `k`, once the environment is in its fault
(60_exceptions.md R223; notes/assumptions/7.md). -/
opaque openLevel : Nat → PinId → Level

/-- FREE VALUE: the len32 field of a READ_STATE reply of `n` bits where `n` needs more than 32 bits, which 30_encoding.md
R79 does not state (notes/assumptions/18.md). -/
opaque oversizeLength : Nat → BitVec 32

end Sys2Proof.Config
end

