-- ==== Sys2Proof/Syntax.lean ====
section
/-! DEFINITION. The abstract commands of 30_encoding.md R70: one constructor per row of spec/opcode_table.json. -/

namespace Sys2Proof

/-- An element of SHIFT_BITS's list (30_encoding.md R70). The type is wide on purpose: an integer that is no bit can be
written down and is rejected by the command's check. -/
inductive Elem where
  | int (v : Int)
  | bool (b : Bool)
  deriving DecidableEq, Repr

/-- The commands of the block (30_encoding.md R70, R73). LATCH is another name of `shiftBits []` (R82). -/
inductive Instr where
  /-- INIT, opcode 0x01: data pin, shift-clock pin, latch-clock pin, chain depth. -/
  | init (d s l n : Int)
  /-- SET_DATA_PIN, opcode 0x02. -/
  | setDataPin (p : Int)
  /-- SET_SHIFT_PIN, opcode 0x03. -/
  | setShiftPin (p : Int)
  /-- SET_LATCH_PIN, opcode 0x04. -/
  | setLatchPin (p : Int)
  /-- SET_DEPTH, opcode 0x05. -/
  | setDepth (n : Int)
  /-- SHIFT_BITS, opcode 0x10. -/
  | shiftBits (es : List Elem)
  /-- SHIFT_INT, opcode 0x11. -/
  | shiftInt (v : Int)
  /-- SHIFT_BOOL, opcode 0x12. -/
  | shiftBool (b : Bool)
  /-- READ_STATE, opcode 0x13. -/
  | readState
  /-- CLEAR, opcode 0x14. -/
  | clear
  deriving DecidableEq, Repr

end Sys2Proof
end

