-- ==== Sys2Proof/WellFormed.lean ====
section
/-! DEFINITION. Which abstract commands a command frame can carry (30_encoding.md R72, R74).

The abstract level has no bound on an operand (R70). A frame has: its pin and depth fields are 32 bits signed, its
integer field 64 bits signed, its list length 32 bits unsigned, and each of its elements one unsigned byte. -/

namespace Sys2Proof

/-- The values of a signed field of `w` bits (`sext_w`, 00_scope.md R11). -/
def fitsSigned (w : Nat) (v : Int) : Bool :=
  decide (-(2 ^ (w - 1) : Int) ≤ v) && decide (v < (2 ^ (w - 1) : Int))

/-- What the decoder reads an elem8 byte as: an integer 0..255 (R72). -/
def Elem.isFrameElem : Elem → Bool
  | .int v => decide (0 ≤ v) && decide (v ≤ 255)
  | .bool _ => false

/-- What the assembler can write as an elem8 byte (R81): an integer 0..255, `true` or `false`. -/
def Elem.isAsmElem : Elem → Bool
  | .int v => decide (0 ≤ v) && decide (v ≤ 255)
  | .bool _ => true

/-- The list's length fits in len32 (R72, R74). -/
def lengthFits (es : List Elem) : Bool :=
  decide (es.length < 2 ^ 32)

/-- The commands that a frame decodes to: each operand in the range of its field (R72, R74). A boolean list element is
not among them, because a frame's element byte decodes to an integer (R72); see `Instr.assemblable`. -/
def Instr.wellFormed : Instr → Bool
  | .init d s l n => fitsSigned 32 d && fitsSigned 32 s && fitsSigned 32 l && fitsSigned 32 n
  | .setDataPin p => fitsSigned 32 p
  | .setShiftPin p => fitsSigned 32 p
  | .setLatchPin p => fitsSigned 32 p
  | .setDepth n => fitsSigned 32 n
  | .shiftBits es => lengthFits es && es.all Elem.isFrameElem
  | .shiftInt v => fitsSigned 64 v
  | .shiftBool _ => true
  | .readState => true
  | .clear => true

/-- The commands the assembler can write (R81): as `wellFormed`, and a list element may also be a boolean. -/
def Instr.assemblable : Instr → Bool
  | .init d s l n => Instr.wellFormed (.init d s l n)
  | .setDataPin p => Instr.wellFormed (.setDataPin p)
  | .setShiftPin p => Instr.wellFormed (.setShiftPin p)
  | .setLatchPin p => Instr.wellFormed (.setLatchPin p)
  | .setDepth n => Instr.wellFormed (.setDepth n)
  | .shiftBits es => lengthFits es && es.all Elem.isAsmElem
  | .shiftInt v => Instr.wellFormed (.shiftInt v)
  | .shiftBool b => Instr.wellFormed (.shiftBool b)
  | .readState => true
  | .clear => true

end Sys2Proof
end

