-- ==== Sys2Proof/Decode.lean ====
section
/-! DEFINITION. From bytes to commands and back (30_encoding.md R71-R83): the decoder, then the encoder, then the two
functions that read an opcode-table word. The decoder is total on any byte string (R80). -/

namespace Sys2Proof

/-- The decoder's own rejections (30_encoding.md R77, R80). -/
inductive DecodeReject where
  /-- An unassigned opcode: UNKNOWN_COMMAND, NONE (R77). -/
  | unknownCommand
  /-- A SHIFT_BOOL byte other than 0x00 and 0x01: INVALID_ARGUMENT, BOOL_NOT_BOOLEAN (R80). -/
  | boolNotBoolean
  deriving DecidableEq, Repr

/-- What the decoder makes of the bytes at the port. -/
inductive Decoded where
  /-- A complete frame of `len` bytes that stands for the command `i`. -/
  | cmd (i : Instr) (len : Nat)
  /-- A complete frame of `len` bytes that the decoder rejects. -/
  | reject (r : DecodeReject) (len : Nat)
  /-- The bytes end inside a frame (or there are none): nothing is decoded (R75). -/
  | incomplete
  deriving DecidableEq, Repr

/-! ### Fields (R72) -/

/-- `raw = byte0 + 256·byte1 + ...` (R72): little-endian. -/
def rawLE : List Byte → Nat
  | [] => 0
  | b :: bs => b.toNat + 256 * rawLE bs

/-- The `k` bytes from byte offset `off`. -/
def fieldAt (bs : List Byte) (off k : Nat) : List Byte :=
  (bs.drop off).take k

/-- `sext_w(raw)` (00_scope.md R11): two's complement. -/
def sext (w raw : Nat) : Int :=
  if raw < 2 ^ (w - 1) then (raw : Int) else (raw : Int) - 2 ^ w

/-- A pin32 field (R72). -/
def pin32At (bs : List Byte) (off : Nat) : Int :=
  sext 32 (rawLE (fieldAt bs off 4))

/-- A depth32 field (R72). -/
def depth32At (bs : List Byte) (off : Nat) : Int :=
  sext 32 (rawLE (fieldAt bs off 4))

/-- An int64 field (R72). -/
def int64At (bs : List Byte) (off : Nat) : Int :=
  sext 64 (rawLE (fieldAt bs off 8))

/-- A len32 field (R72): unsigned. -/
def len32At (bs : List Byte) (off : Nat) : Nat :=
  rawLE (fieldAt bs off 4)

/-- An elem8 byte (R72): `int(zext_8(byte))`. -/
def elem8 (b : Byte) : Elem :=
  .int (b.toNat : Int)

/-! ### Frames (R71, R73, R74) -/

/-- The length of a frame (R74): by the opcode alone, but for SHIFT_BITS, where it is `5 + L`. An unassigned opcode is a
frame of one byte (R77). -/
def frameLength (op len : Nat) : Nat :=
  match op with
  | 0x01 => 17
  | 0x02 => 5
  | 0x03 => 5
  | 0x04 => 5
  | 0x05 => 5
  | 0x10 => 5 + len
  | 0x11 => 9
  | 0x12 => 2
  | _ => 1

/-- The bool8 byte of SHIFT_BOOL (R72, R80). -/
def decodeBool8 (b : Byte) : Decoded :=
  match b.toNat with
  | 0x00 => .cmd (.shiftBool false) 2
  | 0x01 => .cmd (.shiftBool true) 2
  | _ => .reject .boolNotBoolean 2

/-- The command of a frame whose bytes have all arrived (R80's table). Offsets count from the opcode byte. -/
def decodeFrame (op : Byte) (bs : List Byte) : Decoded :=
  match op.toNat with
  | 0x01 => .cmd (.init (pin32At bs 1) (pin32At bs 5) (pin32At bs 9) (depth32At bs 13)) 17
  | 0x02 => .cmd (.setDataPin (pin32At bs 1)) 5
  | 0x03 => .cmd (.setShiftPin (pin32At bs 1)) 5
  | 0x04 => .cmd (.setLatchPin (pin32At bs 1)) 5
  | 0x05 => .cmd (.setDepth (depth32At bs 1)) 5
  | 0x10 => .cmd (.shiftBits ((fieldAt bs 5 (len32At bs 1)).map elem8)) (5 + len32At bs 1)
  | 0x11 => .cmd (.shiftInt (int64At bs 1)) 9
  | 0x12 => decodeBool8 (bs.getD 1 0)
  | 0x13 => .cmd .readState 1
  | 0x14 => .cmd .clear 1
  | _ => .reject .unknownCommand 1

/-- The decoder (R80): total, and a frame is decoded only when all its bytes have arrived (R75). With fewer than five bytes
of a SHIFT_BITS frame its length is still unknown, and whatever `len32At` reads then, the frame is longer than the bytes. -/
def decode (bs : List Byte) : Decoded :=
  match bs with
  | [] => .incomplete
  | op :: _ => if bs.length < frameLength op.toNat (len32At bs 1) then .incomplete else decodeFrame op bs

/-! ### The encoder -/

/-- The `k` low bytes of `raw`, least significant first (R72, 20_memory.md R52). -/
def bytesLE : Nat → Nat → List Byte
  | 0, _ => []
  | k + 1, raw => BitVec.ofNat 8 raw :: bytesLE k (raw / 256)

/-- A signed field of `k` bytes: the two's complement of `v`. -/
def signedField (k : Nat) (v : Int) : List Byte :=
  bytesLE k (v % (2 ^ (8 * k) : Int)).toNat

/-- The byte an element assembles to (R81): an integer 0..255 to itself, `true` to 0x01, `false` to 0x00. -/
def encodeElem : Elem → Byte
  | .int v => BitVec.ofInt 8 v
  | .bool true => 0x01
  | .bool false => 0x00

/-- The frame of a command (R71-R73). -/
def encode : Instr → List Byte
  | .init d s l n => 0x01 :: (signedField 4 d ++ signedField 4 s ++ signedField 4 l ++ signedField 4 n)
  | .setDataPin p => 0x02 :: signedField 4 p
  | .setShiftPin p => 0x03 :: signedField 4 p
  | .setLatchPin p => 0x04 :: signedField 4 p
  | .setDepth n => 0x05 :: signedField 4 n
  | .shiftBits es => 0x10 :: (bytesLE 4 es.length ++ es.map encodeElem)
  | .shiftInt v => 0x11 :: signedField 8 v
  | .shiftBool b => [0x12, if b then 0x01 else 0x00]
  | .readState => [0x13]
  | .clear => [0x14]

/-- The LATCH pseudo-instruction (R82). -/
def latch : Instr :=
  .shiftBits []

/-- The element a frame's byte decodes to, for an element as the assembler writes it (R72, R81): `true` reads as 1. -/
def Elem.asFrameElem : Elem → Elem
  | .int v => .int v
  | .bool true => .int 1
  | .bool false => .int 0

/-- The command as its frame decodes: the boolean elements of a list read as integers (R72, R81). -/
def Instr.asFrame : Instr → Instr
  | .init d s l n => .init d s l n
  | .setDataPin p => .setDataPin p
  | .setShiftPin p => .setShiftPin p
  | .setLatchPin p => .setLatchPin p
  | .setDepth n => .setDepth n
  | .shiftBits es => .shiftBits (es.map Elem.asFrameElem)
  | .shiftInt v => .shiftInt v
  | .shiftBool b => .shiftBool b
  | .readState => .readState
  | .clear => .clear

/-! ### Words of the opcode table -/

/-- The bytes of the frame whose bits are `w`, bit 0 the least significant bit of the first byte: exactly as many bytes as
the frame has, every bit from `nbits` on being 0. -/
def tableFrame (nbits w : Nat) : List Byte :=
  bytesLE (frameLength (w % 2 ^ nbits % 256) (w % 2 ^ nbits / 256 % 2 ^ 32)) (w % 2 ^ nbits)

/-- The command the decoder reads from an opcode-table word; `none` where it rejects. -/
def decodeTableWord (nbits w : Nat) : Option Instr :=
  match decode (tableFrame nbits w) with
  | .cmd i _ => some i
  | .reject _ _ => none
  | .incomplete => none

end Sys2Proof
end

