-- ==== Sys2Proof/Machine/State.lean ====
section
/-! DEFINITION. The state of the block, its port, its pin collaborator and the chain (10_state.md, 60_exceptions.md),
as plain data, and the state right after power-on. -/

namespace Sys2Proof.Machine

/-! ### The block -/

/-- `phase` (10_state.md R21). -/
inductive Phase where
  /-- No INIT has completed since power-on or the reset input. -/
  | unconstructed
  /-- Constructed, no command in progress. -/
  | idle
  /-- A command's action list is being performed. -/
  | busy
  deriving DecidableEq, Repr

/-- The configuration registers CR0-CR3 (R22). -/
structure Configuration where
  /-- CR0, role SER. -/
  dataPin : PinId
  /-- CR1, role SRCLK. -/
  shiftClockPin : PinId
  /-- CR2, role RCLK. -/
  latchClockPin : PinId
  /-- CR3, `N`. -/
  chainDepth : Nat
  deriving DecidableEq, Repr

/-- The actions of a command's action list (R32). -/
inductive Action where
  | pinConfigOut (p : PinId)
  | pinWrite (p : PinId) (lvl : Level)
  | advance (b : Bit)
  deriving DecidableEq, Repr

/-- The status codes (60_exceptions.md R200), by name. -/
inductive Status where
  | ok
  | invalidArgument
  | unknownCommand
  | notInitialized
  deriving DecidableEq, Repr

/-- The reason codes (60_exceptions.md R202), by name. -/
inductive Reason where
  | none
  | dataPinInvalid
  | shiftPinInvalid
  | latchPinInvalid
  | depthNotPositive
  | depthExceedsCapacity
  | elementNotBit
  | negativeInteger
  | boolNotBoolean
  deriving DecidableEq, Repr

/-- A reply (60_exceptions.md R201); `data` is present only for READ_STATE with OK. -/
structure Reply where
  status : Status
  reason : Reason
  data : Option (List Bit)
  deriving DecidableEq, Repr

/-- An entry of the observable trace (10_state.md R33): a pin event or a reply. -/
inductive Event where
  | cfgOut (p : PinId)
  | write (p : PinId) (lvl : Level)
  | reply (r : Reply)
  deriving DecidableEq, Repr

/-! ### Why a machine stops -/

/-- The one fault the spec names. It is the ENVIRONMENT's (60_exceptions.md R223): the collaborator raises it, State records
it in `Env.fault`, and the block goes on, so no step ends in it. Safe: from then on the lines and the chain hold free values
(notes/assumptions/7.md). -/
inductive Fault where
  /-- UnconfiguredPinWrite(p): a level was set on a pin that nobody configured as an output. -/
  | unconfiguredPinWrite (p : PinId)
  deriving DecidableEq, Repr

/-- Refusals. None is raised: every command has its meaning. -/
inductive Refusal where
  /-- Raised by an arm of `exec` for a command that has no meaning yet; no arm is one. Safe: a refused run proves nothing. -/
  | notModelled (mnemonic : String)
  deriving DecidableEq, Repr

/-! ### The environment -/

/-- The chain of 8-bit chips (60_exceptions.md R226): its size and wiring, and its two registers. -/
structure Chain where
  /-- N_PHYS, the number of chips wired. -/
  chips : Nat
  serPin : PinId
  srclkPin : PinId
  rclkPin : PinId
  /-- The shift stages; index 0 is the first stage of the chip whose data input is `serPin`. -/
  stages : List Bit
  /-- The output (storage) stages. -/
  storage : List Bit
  deriving DecidableEq, Repr

/-- The pin collaborator's lines (60_exceptions.md R221): one entry for each configured pin, pins strictly rising. -/
abbrev Lines := List (PinId × Level)

/-- THE MODEL'S OWN (notes/assumptions/8.md): how the premises of the mirror property (60_exceptions.md R232) stand. -/
inductive Standing where
  /-- No INIT has been accepted since power-on or the reset input, so there is no INIT of which the premises speak: the chain
  follows R227-R230 from its draw (R36). -/
  | fresh
  /-- The premises have held since the INIT or the full CLEAR that last set the whole chain. -/
  | vouched
  /-- A premise has failed: the spec makes no claim about the chain (R233), and its content is a draw. -/
  | failed
  deriving DecidableEq, Repr

/-- The two platform devices: the pin collaborator (R221-R223) and the chain (R226). -/
structure Env where
  /-- The set `configured` and `line(p)` for each pin in it. -/
  lines : Lines
  /-- The environment fault of R223; never cleared. -/
  fault : Option Fault
  chain : Chain
  /-- THE MODEL'S OWN (notes/assumptions/8.md): whether the chain's content follows from R227-R230, or is a draw (R233). -/
  standing : Standing
  /-- THE MODEL'S OWN (notes/assumptions/6.md): the levels the next configuration events draw, as far as they are given. -/
  givenLevels : List Level
  /-- THE MODEL'S OWN (notes/assumptions/6.md): the number of free values drawn so far. -/
  draws : Nat
  deriving DecidableEq, Repr

/-- What the host, or an agent other than the block, may do to a running block and its environment (60_exceptions.md
R225). -/
inductive HostAct where
  /-- Put bytes on the command port. -/
  | present (bytes : List Byte)
  /-- Call `configurePinAsOutput(p)` on the collaborator directly. -/
  | configurePin (p : PinId)
  /-- Call `setPinLevel(p, lvl)` on the collaborator directly: what premise DisjointPins of R232 excludes. -/
  | writePin (p : PinId) (lvl : Level)
  /-- Move the chain's wiring to these pins, which 70_reset_and_hazards.md R248 asks of the system after a role change
  (notes/assumptions/25.md). -/
  | rewire (ser srclk rclk : PinId)
  /-- Assert the reset input (10_state.md R38). -/
  | assertReset
  deriving DecidableEq, Repr

/-- THE MODEL'S OWN (notes/assumptions/13.md): a move of the host, and how many turns of the block it lets pass first. -/
structure HostMove where
  after : Nat
  act : HostAct
  deriving DecidableEq, Repr

/-! ### The whole -/

/-- The state: the block, its port, its parameters, its environment and the host's moves to come. -/
structure State where
  /-- 10_state.md R21. -/
  phase : Phase
  /-- CR0-CR3, R22. -/
  cfg : Configuration
  /-- R25-R27: index 0 is the front, the oldest bit. -/
  shadow : List Bit
  /-- R29, 8 bits. -/
  lastStatus : BitVec 8
  /-- R29, 8 bits. -/
  lastReason : BitVec 8
  /-- R30: the actions the current command still has to perform. -/
  seq : List Action
  /-- R30: the reply the current command will give. -/
  pendingReply : Option Reply
  /-- R33: oldest first. -/
  trace : List Event
  /-- The bytes at the command port that are not consumed yet (20_memory.md R50 item 3). -/
  port : List Byte
  /-- PIN_VALID and N_MAX (00_scope.md R7); no step changes them. -/
  params : Config.Params
  /-- The pin collaborator and the chain. -/
  env : Env
  /-- THE MODEL'S OWN (notes/assumptions/13.md): the host's moves to come. -/
  host : List HostMove
  /-- THE MODEL'S OWN (notes/assumptions/9.md): how many presented commands the reset input has left without their reply
  (70_reset_and_hazards.md R245). -/
  dropped : Nat
  deriving DecidableEq, Repr

/-- The parameters a machine has right after power-on in this model: the illustrative values of 95_test_vectors.md
[DESIGN CHOICE, notes/assumptions/2.md]. -/
def resetParams : Config.Params :=
  { validPins := [{ lo := 0, hi := 27 }], maxDepth := some 16 }

/-- The chain right after power-on: its content is a draw (60_exceptions.md R226; notes/assumptions/5.md); its size and
wiring are a DESIGN CHOICE (notes/assumptions/4.md). -/
def resetChain : Chain :=
  { chips := 1
    serPin := 17
    srclkPin := 27
    rclkPin := 22
    stages := (List.range Config.bitsPerChip).map Config.powerOnStage
    storage := (List.range Config.bitsPerChip).map Config.powerOnStorage }

/-- The environment right after power-on: no pin is configured (10_state.md R36), and no INIT has been accepted. -/
def resetEnv : Env :=
  { lines := [], fault := none, chain := resetChain, standing := .fresh, givenLevels := [], draws := 0 }

/-- Power-on (10_state.md R36). CR0-CR3 and the shadow have no value in the spec: zeros and the empty list
[DESIGN CHOICE, notes/assumptions/3.md]. -/
def State.reset : State :=
  { phase := .unconstructed
    cfg := { dataPin := 0, shiftClockPin := 0, latchClockPin := 0, chainDepth := 0 }
    shadow := []
    lastStatus := 0x00
    lastReason := 0x00
    seq := []
    pendingReply := none
    trace := []
    port := []
    params := resetParams
    env := resetEnv
    host := []
    dropped := 0 }

/-- What the machine does next: run a command the decoder read from the port, or move without one. -/
inductive Turn where
  /-- The command `i` is presented in state `s`, its frame already taken from the port. -/
  | command (i : Instr) (s : State)
  /-- Anything else: the sequencer's own step, a decoder rejection, a move of the host, waiting. -/
  | internal (s : State)
  deriving DecidableEq, Repr

end Sys2Proof.Machine
end

