-- ==== Sys2Proof/Machine/Flags.lean ====
section
/-! DEFINITION. The status registers. The block has no condition codes and no arithmetic flags, and no command sets or reads
one (10_state.md R28); what stands in their place is `lastStatus`, `lastReason` and the read-only `ready` (R29). -/

namespace Sys2Proof.Machine

/-- The status codes (60_exceptions.md R200). -/
def Status.code : Status → BitVec 8
  | .ok => 0x00
  | .invalidArgument => 0x01
  | .unknownCommand => 0x02
  | .notInitialized => 0x03

/-- The reason codes (60_exceptions.md R202). -/
def Reason.code : Reason → BitVec 8
  | .none => 0x00
  | .dataPinInvalid => 0x01
  | .shiftPinInvalid => 0x02
  | .latchPinInvalid => 0x03
  | .depthNotPositive => 0x04
  | .depthExceedsCapacity => 0x05
  | .elementNotBit => 0x06
  | .negativeInteger => 0x07
  | .boolNotBoolean => 0x08

/-- `ready` (R29): 1 exactly when the block is not Busy. -/
def State.ready (s : State) : Bool :=
  match s.phase with
  | .unconstructed => true
  | .idle => true
  | .busy => false

/-- Every completed command, rejected ones included, writes both status registers (R29). -/
def State.writeStatus (st : Status) (rs : Reason) (s : State) : State :=
  { s with lastStatus := st.code, lastReason := rs.code }

end Sys2Proof.Machine
end

