-- ==== Sys2Proof/Machine/Operands.lean ====
section
/-! DEFINITION. The operands: the checks on pins and depths (40_config.md) and the ValueEncoder (41_encoder.md). Each is a
pure function that answers a value or the reason of an InvalidArgument (00_scope.md R12, R13). -/

namespace Sys2Proof

/-- `PIN_VALID(p)` (00_scope.md R7). -/
def Config.Params.pinValid (c : Config.Params) (p : PinId) : Bool :=
  c.validPins.any fun r => decide (r.lo ≤ p) && decide (p ≤ r.hi)

/-- `n > N_MAX` (40_config.md R100, R104); never when N_MAX is unbounded. -/
def Config.Params.depthTooLarge (c : Config.Params) (n : Int) : Bool :=
  match c.maxDepth with
  | none => false
  | some m => decide ((m : Int) < n)

/-- `N_MAX` is an integer ≥ 1 or unbounded (00_scope.md R7). -/
def Config.Params.wf (c : Config.Params) : Bool :=
  match c.maxDepth with
  | none => true
  | some m => decide (1 ≤ m)

namespace Machine

/-- A pin operand, with the reason its command gives for an invalid one (40_config.md R100-R103). -/
def checkPin (c : Config.Params) (why : Reason) (p : Int) : Except Reason PinId :=
  if c.pinValid p then .ok p else .error why

/-- A depth operand: `n < 1` first, then `n > N_MAX` (40_config.md R100, R104). -/
def checkDepth (c : Config.Params) (n : Int) : Except Reason Nat :=
  if n < 1 then .error .depthNotPositive
  else if c.depthTooLarge n then .error .depthExceedsCapacity
  else .ok n.toNat

/-- INIT's operand checks, in the order R100 writes them. -/
def checkInit (c : Config.Params) (d s l n : Int) : Except Reason Configuration :=
  match checkPin c .dataPinInvalid d with
  | .error r => .error r
  | .ok d' =>
    match checkPin c .shiftPinInvalid s with
    | .error r => .error r
    | .ok s' =>
      match checkPin c .latchPinInvalid l with
      | .error r => .error r
      | .ok l' =>
        match checkDepth c n with
        | .error r => .error r
        | .ok n' => .ok { dataPin := d', shiftClockPin := s', latchClockPin := l', chainDepth := n' }

/-- The bit an element stands for, if it is one of `int 0`, `int 1`, `bool false`, `bool true` (41_encoder.md R121). -/
def elemBit : Elem → Option Bit
  | .int v => if v = 0 then some false else if v = 1 then some true else none
  | .bool b => some b

/-- `encBits` (R121): one bad element rejects the whole list. -/
def encBits : List Elem → Except Reason BitSequence
  | [] => .ok []
  | e :: es =>
    match elemBit e with
    | none => .error .elementNotBit
    | some b =>
      match encBits es with
      | .error r => .error r
      | .ok bs => .ok (b :: bs)

/-- `bitlen(v)` (00_scope.md R11): the least `k` with `v < 2^k`, computed as R125 item 5 says. -/
def bitlen (v : Nat) : Nat :=
  if v = 0 then 0 else Nat.log2 v + 1

/-- `[v[k-1], ..., v[0]]`: the `k` low bits, most significant first (R122). -/
def bitsMsbFirst (k v : Nat) : BitSequence :=
  (List.range k).reverse.map fun i => v.testBit i

/-- `encInt` (R122). -/
def encInt (v : Int) : Except Reason BitSequence :=
  if v < 0 then .error .negativeInteger
  else if v = 0 then .ok [false]
  else .ok (bitsMsbFirst (bitlen v.toNat) v.toNat)

/-- `encBool` (R123): it has no failure. -/
def encBool (b : Bool) : Except Reason BitSequence :=
  .ok (if b then [true] else [false])

/-- `val(B)` (R125): the value of a BitSequence read most significant bit first. -/
def bitsValue : BitSequence → Nat
  | [] => 0
  | b :: bs => (if b then 2 ^ bs.length else 0) + bitsValue bs

/-- `zeros(k)` (00_scope.md R10). -/
def zeros (k : Nat) : BitSequence :=
  List.replicate k false

/-- The shadow capacity `C = 8 × N` (00_scope.md R7). -/
def capacity (n : Nat) : Nat :=
  Config.bitsPerChip * n

end Machine
end Sys2Proof
end

