-- ==== Sys2Proof/Machine/Environment.lean ====
section
/-! DEFINITION. The two platform devices (60_exceptions.md): the pin collaborator (R220-R224) and the shift-register chain
(R226-R231). The chain reacts to every change of a line's level, whoever causes it. -/

namespace Sys2Proof.Machine

/-- `level(b)` (43_sequencer.md R161). -/
def levelOf (b : Bit) : Level :=
  if b then .high else .low

/-- `bitOf(lvl)` (60_exceptions.md R227). -/
def bitOf : Level → Bit
  | .low => false
  | .high => true

/-- `line(p)`: `none` where `p` is not configured. -/
def lineLevel : Lines → PinId → Option Level
  | [], _ => none
  | (q, lvl) :: rest, p => if p = q then some lvl else lineLevel rest p

/-- `line(p) <- lvl`, which keeps the pins strictly rising. -/
def setLineLevel : Lines → PinId → Level → Lines
  | [], p, lvl => [(p, lvl)]
  | (q, old) :: rest, p, lvl =>
    if p < q then (p, lvl) :: (q, old) :: rest
    else if p = q then (q, lvl) :: rest
    else (q, old) :: setLineLevel rest p lvl

/-- The canonical form of the lines: pins strictly rising. -/
def linesWf (ls : Lines) : Bool :=
  decide ((ls.map Prod.fst).Pairwise (· < ·))

/-- `p ∈ configured` (R221). -/
def Env.configured (e : Env) (p : PinId) : Bool :=
  (lineLevel e.lines p).isSome

/-- A level drawn at a configuration event (R221, D14): a given one if there is one, else a free value. -/
def Env.drawLevel (e : Env) (p : PinId) : Level × Env :=
  match e.givenLevels with
  | lvl :: rest => (lvl, { e with givenLevels := rest })
  | [] => (Config.initLevel e.draws p, { e with draws := e.draws + 1 })

/-- The shift of R227 with the entering bit `b`. -/
def Chain.shiftIn (c : Chain) (b : Bit) : Chain :=
  { c with stages := b :: c.stages.take (Config.bitsPerChip * c.chips - 1) }

/-- The chain with a storage that nothing constrains (draw number `k`). -/
def Chain.openOutputs (c : Chain) (k : Nat) : Chain :=
  { c with storage := (List.range c.storage.length).map (Config.openStorage k) }

/-- The chain with content that nothing constrains (draw number `k`). -/
def Chain.openContent (c : Chain) (k : Nat) : Chain :=
  { c.openOutputs k with stages := (List.range c.stages.length).map (Config.openStage k) }

/-- The level a rising shift clock samples (R227): none where the serial pin is not configured, and none where it is the
clock itself, whose line is changing at that very edge (notes/assumptions/29.md). -/
def Env.serialLevel (e : Env) : Option Level :=
  if e.chain.serPin = e.chain.srclkPin then none else lineLevel e.lines e.chain.serPin

/-- A rising edge of the shift clock (R227). The entering bit is a draw where there is no level to sample. -/
def Env.shiftEdge (e : Env) : Env :=
  match e.serialLevel with
  | some lvl => { e with chain := e.chain.shiftIn (bitOf lvl) }
  | none => { e with chain := e.chain.shiftIn (Config.enteringBit e.draws), draws := e.draws + 1 }

/-- A rising edge of the latch clock (R229). Where one pin is both clocks, the spec does not say which of the two edges comes
first: the storage is then a free value (notes/assumptions/29.md). -/
def Env.latchEdge (e : Env) : Env :=
  if e.chain.srclkPin = e.chain.rclkPin then
    { e with chain := e.chain.openOutputs e.draws, draws := e.draws + 1 }
  else
    { e with chain := { e.chain with storage := e.chain.stages } }

/-- The chain's reaction to a low-to-high change of line `p` (R227, R229). A rising line that is neither clock does
nothing (R230). -/
def Env.risingEdge (e : Env) (p : PinId) : Env :=
  let e' := if p = e.chain.srclkPin then e.shiftEdge else e
  if p = e'.chain.rclkPin then e'.latchEdge else e'

/-- The level of line `p` becomes `lvl`; the chain reacts only to a change from low to high (R227-R230). A line that had no
level before has not changed from low. -/
def Env.setLine (e : Env) (p : PinId) (lvl : Level) : Env :=
  let e' := { e with lines := setLineLevel e.lines p lvl }
  match lineLevel e.lines p, lvl with
  | some .low, .high => e'.risingEdge p
  | some .low, .low => e'
  | some .high, _ => e'
  | none, _ => e'

/-! ### What the spec makes no claim about (R223, R233) -/

/-- The content of the chain is drawn (R233, 10_state.md R36). -/
def Env.redraw (e : Env) : Env :=
  { e with chain := e.chain.openContent e.draws, draws := e.draws + 1 }

/-- A premise of R232 has failed: the chain is a draw, and stays one until it is set as a whole again (R233;
notes/assumptions/8.md). -/
def Env.unvouch (e : Env) : Env :=
  { e.redraw with standing := .failed }

/-- The lines and the chain once the environment is in its fault: nothing constrains them (R223, notes/assumptions/7.md). -/
def Env.undetermined (e : Env) : Env :=
  { e.unvouch with lines := e.lines.map fun x => (x.1, Config.openLevel e.draws x.1) }

/-- What an action on a pin leaves: the lines and the chain as the rules give them, but a draw of what the spec makes no
claim about. -/
def Env.settle (e : Env) : Env :=
  if e.fault.isSome then e.undetermined
  else if e.standing = .failed then e.redraw
  else e

/-- Premises DepthMatches, Wired, DistinctRoles and NoEnvFault of R232, for the configuration `c`. -/
def premisesHold (c : Configuration) (e : Env) : Bool :=
  decide (e.chain.chips = c.chainDepth) &&
  (decide (e.chain.serPin = c.dataPin) && decide (e.chain.srclkPin = c.shiftClockPin) &&
    decide (e.chain.rclkPin = c.latchClockPin)) &&
  (decide (c.dataPin ≠ c.shiftClockPin) && decide (c.dataPin ≠ c.latchClockPin) &&
    decide (c.shiftClockPin ≠ c.latchClockPin)) &&
  e.fault.isNone

/-- A full CLEAR can set the whole chain: both clocks low (70_reset_and_hazards.md R247) and the data line configured. -/
def clearReady (c : Configuration) (e : Env) : Bool :=
  decide (lineLevel e.lines c.shiftClockPin = some .low) && decide (lineLevel e.lines c.latchClockPin = some .low) &&
    (lineLevel e.lines c.dataPin).isSome

/-- `p` is one of the three role pins. -/
def Configuration.hasPin (c : Configuration) (p : PinId) : Bool :=
  decide (p = c.dataPin) || decide (p = c.shiftClockPin) || decide (p = c.latchClockPin)

/-- The chain is about to be set as a whole: from here on its content follows from R227-R230 if `ok`. -/
def Env.vouchIf (ok : Bool) (e : Env) : Env :=
  if ok then { e with standing := .vouched } else e.unvouch

/-- Something a premise speaks of has happened: the premises have held so far and still do if `ok`, else one fails now. Where
none is in force, none fails. -/
def Env.keepVouch (ok : Bool) (e : Env) : Env :=
  if e.standing = .vouched ∧ ok = false then e.unvouch else e

/-- A CLEAR transaction starts. It sets the whole chain if it runs with the premises holding (42_shadow.md R143) and both
clocks low (R247). -/
def Env.revouch (c : Configuration) (e : Env) : Env :=
  e.vouchIf (premisesHold c e && (decide (e.standing = .vouched) || clearReady c e))

/-- Premise ClocksStartLow: the draw `lvl` for `p` is no high level of a clock. -/
def Env.startsLow (e : Env) (p : PinId) (lvl : Level) : Bool :=
  decide (lvl = .low) || (decide (p ≠ e.chain.srclkPin) && decide (p ≠ e.chain.rclkPin))

/-- Premise DisjointPins: an agent other than the block has acted on `p`. -/
def Env.disturb (c : Configuration) (p : PinId) (e : Env) : Env :=
  e.keepVouch (!c.hasPin p)

/-- The chain's wiring is moved (70_reset_and_hazards.md R248). What its clock inputs see then the spec does not say, so its
content is a draw (notes/assumptions/25.md). Premise Wired fails. -/
def Env.rewire (ser srclk rclk : PinId) (e : Env) : Env :=
  Env.keepVouch false
    (Env.redraw { e with chain := { e.chain with serPin := ser, srclkPin := srclk, rclkPin := rclk } })

/-- The reset input is asserted in phase `ph`: the content of the chain is a draw (10_state.md R36). In mid-command premise
NoMidReset fails, until the next INIT (93_implementation_defined.md U15); otherwise the last INIT's premises are in force no
more. -/
def Env.afterReset (ph : Phase) (e : Env) : Env :=
  match ph with
  | .unconstructed => e.redraw
  | .idle => { e.redraw with standing := .fresh }
  | .busy => e.unvouch

/-! ### The collaborator's operations -/

/-- The environment enters UnconfiguredPinWrite(p), which is never cleared: a fault already there stays (R223). -/
def Env.raiseFault (e : Env) (p : PinId) : Env :=
  match e.fault with
  | some f => { e with fault := some f }
  | none => { e with fault := some (.unconfiguredPinWrite p) }

/-- `configurePinAsOutput(p)` (R221): `p` joins `configured` and its line shows a drawn level, which is an edge where the line
was low and is high now (R227, R229). -/
def Env.configure (e : Env) (p : PinId) : Env :=
  let d := e.drawLevel p
  (d.2.setLine p d.1).settle.keepVouch (e.startsLow p d.1)

/-- `setPinLevel(p, lvl)` (R222, R223). -/
def Env.write (e : Env) (p : PinId) (lvl : Level) : Env :=
  Env.settle (if e.configured p then e.setLine p lvl else e.raiseFault p)

/-- Chip `c`'s eight parallel outputs, as they show while the output-enable line is active (R231). -/
def Chain.outputs (c : Chain) (chip : Nat) : List Bit :=
  (c.storage.drop (Config.bitsPerChip * chip)).take Config.bitsPerChip

/-- Stage `k` of the chain is stage `k mod 8` of chip `k / 8` (R228): (chip, stage). -/
def stagePosition (k : Nat) : Nat × Nat :=
  (k / Config.bitsPerChip, k % Config.bitsPerChip)

end Sys2Proof.Machine
end

