-- ==== Sys2Proof/Machine/Ops.lean ====
section
/-! DEFINITION. The operations the commands share: rejecting and accepting a command (60_exceptions.md R203, 10_state.md
R30), the transaction's action list (43_sequencer.md R160), performing one action (R32), the sequencer's step (R30), the
host's acts (60_exceptions.md R225) and the views of the trace. -/

namespace Sys2Proof.Machine

/-! ### Replies and rejection -/

/-- The reply of a command that completed (R100-R104, R163-R166): OK, NONE, no data. -/
def okReply : Reply :=
  { status := .ok, reason := .none, data := none }

/-- A reply is emitted and the status registers take its codes (R29, R30). -/
def State.deliver (r : Reply) (s : State) : State :=
  { s.writeStatus r.status r.reason with trace := s.trace ++ [.reply r] }

/-- TAKING A REJECTION, the block's only exceptional outcome (60_exceptions.md R203): the reply is emitted in the same step,
the status registers are written, and nothing else changes. Nothing is saved and there is no handler, so there is nothing to
return from: the block takes its next command normally (R207). -/
def State.reject (st : Status) (rs : Reason) (s : State) : State :=
  s.deliver { status := st, reason := rs, data := none }

/-- The rejections that are the decoder's own verdict (R206 item 1; 30_encoding.md R77, R80). -/
def State.decoderReject (r : DecodeReject) (s : State) : State :=
  match r with
  | .unknownCommand => s.reject .unknownCommand .none
  | .boolNotBoolean => s.reject .invalidArgument .boolNotBoolean

/-- Accepting a command (10_state.md R30): its action list, its reply, and Busy. -/
def State.accept (actions : List Action) (r : Reply) (s : State) : State :=
  { s with seq := actions, pendingReply := some r, phase := .busy }

/-- The common check of a command other than INIT (R205, R206 item 2). A command presented while Busy is not taken: it waits
(10_state.md R30), so nothing changes. -/
def State.whenConstructed (body : State → State) (s : State) : State :=
  match s.phase with
  | .unconstructed => s.reject .notInitialized .none
  | .idle => body s
  | .busy => s

/-- The phase check of INIT, which is exempt from NOT_INITIALIZED (R100, R205); while Busy it waits too. -/
def State.whenReady (body : State → State) (s : State) : State :=
  match s.phase with
  | .unconstructed => body s
  | .idle => body s
  | .busy => s

/-- `raise InvalidArgument(reason)` if the operand check failed (00_scope.md R12), else the effect. -/
def State.checked {α : Type} (operand : Except Reason α) (effect : α → State → State) (s : State) : State :=
  match operand with
  | .error r => s.reject .invalidArgument r
  | .ok a => effect a s

/-! ### The transaction -/

/-- A pulse: a write of high followed by a write of low (00_scope.md R14). -/
def pulse (p : PinId) : List Action :=
  [.pinWrite p .high, .pinWrite p .low]

/-- The four actions of one bit (43_sequencer.md R160): data line, shadow, shift-clock pulse. -/
def serializeBit (d s : PinId) (b : Bit) : List Action :=
  [.pinWrite d (levelOf b), .advance b] ++ pulse s

/-- The transaction action list `txn(d, s, l, B)` (R160). -/
def txn (d s l : PinId) (bits : BitSequence) : List Action :=
  bits.flatMap (serializeBit d s) ++ pulse l

/-- The transaction on the pins CR0-CR2 hold (R160: their values at the accepting step). -/
def State.transaction (s : State) (bits : BitSequence) : List Action :=
  txn s.cfg.dataPin s.cfg.shiftClockPin s.cfg.latchClockPin bits

/-- The effect of a shift command whose payload is `bits` (R163-R165). -/
def State.startShift (bits : BitSequence) (s : State) : State :=
  s.accept (s.transaction bits) okReply

/-- The effect of CLEAR (R166), which is also the tail of SET_DEPTH (40_config.md R104): the only sequence built at the
chain's length (41_encoder.md R124). -/
def State.startClear (s : State) : State :=
  State.startShift (zeros (capacity s.cfg.chainDepth)) { s with env := s.env.revouch s.cfg }

/-- The pin setup of INIT: data, shift clock, latch clock, in that order (40_config.md R100, 70_reset_and_hazards.md R241). -/
def pinSetup (c : Configuration) : List Action :=
  [.pinConfigOut c.dataPin, .pinConfigOut c.shiftClockPin, .pinConfigOut c.latchClockPin]

/-! ### Performing actions -/

/-- `Advance(b)` on the shadow (42_shadow.md R140). -/
def advance (shadow : List Bit) (b : Bit) : List Bit :=
  shadow.tail ++ [b]

/-- Advancing by each bit of a sequence in order (R141). -/
def advanceAll (shadow : List Bit) (bits : BitSequence) : List Bit :=
  bits.foldl advance shadow

/-- `perform(a)` (10_state.md R32). -/
def State.perform (s : State) (a : Action) : State :=
  match a with
  | .pinConfigOut p => { s with trace := s.trace ++ [.cfgOut p], env := s.env.configure p }
  | .pinWrite p lvl => { s with trace := s.trace ++ [.write p lvl], env := s.env.write p lvl }
  | .advance b => { s with shadow := advance s.shadow b }

/-- Performing a list of actions in order. -/
def State.performAll (s : State) (actions : List Action) : State :=
  actions.foldl State.perform s

/-- The command completes: its reply is emitted, the block is Idle and owes no reply (R30; notes/assumptions/28.md). -/
def State.complete (r : Reply) (s : State) : State :=
  { s.deliver r with phase := .idle, pendingReply := none }

/-- One step of the sequencer while Busy (R30). Busy with no reply owed is a state no run reaches. -/
def State.sequencerStep (s : State) : State :=
  match s.seq with
  | a :: rest => State.perform { s with seq := rest } a
  | [] =>
    match s.pendingReply with
    | some r => s.complete r
    | none => { s with phase := .idle }

/-! ### The host -/

/-- The reset input (10_state.md R38): every register of the block takes its power-on value in one step, the rest of `seq` is
discarded and no pin action is emitted. The lines keep the levels last written, and the content of the chain is a draw (R36,
93_implementation_defined.md U15). A command in progress is left without its reply. -/
def State.assertReset (s : State) : State :=
  { State.reset with
    port := s.port
    params := s.params
    env := s.env.afterReset s.phase
    host := s.host
    dropped := s.dropped + if s.ready then 0 else 1 }

/-- An act of the host (60_exceptions.md R225), or the rewiring of R248. An act on a role pin breaks premise DisjointPins. -/
def State.hostAct (s : State) (a : HostAct) : State :=
  match a with
  | .present bytes => { s with port := s.port ++ bytes }
  | .configurePin p => { s with env := (s.env.configure p).disturb s.cfg p }
  | .writePin p lvl => { s with env := (s.env.write p lvl).disturb s.cfg p }
  | .rewire ser srclk rclk => { s with env := s.env.rewire ser srclk rclk }
  | .assertReset => s.assertReset

/-! ### Views of the trace -/

/-- The replies of a trace, in order (R33). -/
def repliesOf (t : List Event) : List Reply :=
  t.filterMap fun
    | .cfgOut _ => none
    | .write _ _ => none
    | .reply r => some r

/-- The pin events of a trace, in order (R33). -/
def pinEventsOf (t : List Event) : List Event :=
  t.filter fun
    | .cfgOut _ => true
    | .write _ _ => true
    | .reply _ => false

/-- The events an action list leaves in the trace (R32). -/
def eventsOf (actions : List Action) : List Event :=
  actions.filterMap fun
    | .pinConfigOut p => some (.cfgOut p)
    | .pinWrite p lvl => some (.write p lvl)
    | .advance _ => none

/-- The bits an action list advances the shadow by (R32). -/
def bitsOf (actions : List Action) : BitSequence :=
  actions.filterMap fun
    | .pinConfigOut _ => none
    | .pinWrite _ _ => none
    | .advance b => some b

/-- The level of the last `write(p, _)` of a trace, `acc` if there is none. -/
def lastWrite (p : PinId) (acc : Option Level) : List Event → Option Level
  | [] => acc
  | .write q lvl :: rest => lastWrite p (if q = p then some lvl else acc) rest
  | .cfgOut _ :: rest => lastWrite p acc rest
  | .reply _ :: rest => lastWrite p acc rest

/-- `drv(p)` (10_state.md R34): the last level the block wrote to `p`. -/
def State.drv (s : State) (p : PinId) : Option Level :=
  lastWrite p none s.trace

/-! ### Reply frames -/

/-- The len32 field of a READ_STATE reply (30_encoding.md R79); where the length needs more than 32 bits the spec states no
value (notes/assumptions/18.md). -/
def lengthField (n : Nat) : List Byte :=
  if n < 2 ^ 32 then bytesLE 4 n else bytesLE 4 (Config.oversizeLength n).toNat

/-- One byte for one bit of the shadow (R79). -/
def bitByte (b : Bit) : Byte :=
  if b then 0x01 else 0x00

/-- The reply frame (R79). -/
def Reply.frame (r : Reply) : List Byte :=
  [r.status.code, r.reason.code] ++
    match r.data with
    | none => []
    | some bits => lengthField bits.length ++ bits.map bitByte

/-- The byte stream of reply frames the port has given (R79). -/
def State.replyBytes (s : State) : List Byte :=
  (repliesOf s.trace).flatMap Reply.frame

end Sys2Proof.Machine
end

