-- ==== Sys2Proof/Machine/Configure.lean ====
section
/-! DEFINITION. The configuration commands (40_config.md): INIT, SET_DATA_PIN, SET_SHIFT_PIN, SET_LATCH_PIN, SET_DEPTH. A
setter writes the operand it was given (R107) and nothing else of the configuration (R105), and performs no pin action
(R106). -/

namespace Sys2Proof.Machine

/-- INIT's effect (R100): configuration and shadow in the accepting step, then pin setup and a CLEAR transaction. -/
def State.construct (c : Configuration) (s : State) : State :=
  State.accept (pinSetup c ++ txn c.dataPin c.shiftClockPin c.latchClockPin (zeros (capacity c.chainDepth))) okReply
    { s with
      cfg := c
      shadow := zeros (capacity c.chainDepth)
      env := s.env.vouchIf (premisesHold c s.env) }

/-- A configuration write with no action to perform (R101-R103): the next step replies. -/
def State.replaceConfig (c : Configuration) (s : State) : State :=
  State.accept [] okReply { s with cfg := c, env := s.env.keepVouch (premisesHold c s.env) }

/-- SET_DEPTH's effect (R104): the shadow is rewritten at the new length, then a CLEAR transaction. -/
def State.resize (n : Nat) (s : State) : State :=
  State.startClear { s with cfg := { s.cfg with chainDepth := n }, shadow := zeros (capacity n) }

/-- INIT d, s, l, n (R100). -/
def execInit (d s l n : Int) (st : State) : Host.Outcome State Fault Refusal :=
  .next (st.whenReady fun t => t.checked (checkInit t.params d s l n) State.construct)

/-- SET_DATA_PIN p (R101). -/
def execSetDataPin (p : Int) (s : State) : Host.Outcome State Fault Refusal :=
  .next (s.whenConstructed fun t =>
    t.checked (checkPin t.params .dataPinInvalid p) fun q u => u.replaceConfig { u.cfg with dataPin := q })

/-- SET_SHIFT_PIN p (R102). -/
def execSetShiftPin (p : Int) (s : State) : Host.Outcome State Fault Refusal :=
  .next (s.whenConstructed fun t =>
    t.checked (checkPin t.params .shiftPinInvalid p) fun q u => u.replaceConfig { u.cfg with shiftClockPin := q })

/-- SET_LATCH_PIN p (R103). -/
def execSetLatchPin (p : Int) (s : State) : Host.Outcome State Fault Refusal :=
  .next (s.whenConstructed fun t =>
    t.checked (checkPin t.params .latchPinInvalid p) fun q u => u.replaceConfig { u.cfg with latchClockPin := q })

/-- SET_DEPTH n (R104). -/
def execSetDepth (n : Int) (s : State) : Host.Outcome State Fault Refusal :=
  .next (s.whenConstructed fun t => t.checked (checkDepth t.params n) State.resize)

end Sys2Proof.Machine
end

