-- ==== Sys2Proof/Machine/Shadow.lean ====
section
/-! DEFINITION. READ_STATE (42_shadow.md R142): the whole shadow in one step, between commands. -/

namespace Sys2Proof.Machine

/-- The reply of READ_STATE: OK, NONE and the shadow (R142). -/
def stateReply (s : State) : Reply :=
  { status := .ok, reason := .none, data := some s.shadow }

/-- READ_STATE (R142). -/
def execReadState (s : State) : Host.Outcome State Fault Refusal :=
  .next (s.whenConstructed fun t => t.accept [] (stateReply t))

end Sys2Proof.Machine
end

