-- ==== Sys2Proof/Machine/Shift.lean ====
section
/-! DEFINITION. The commands that run a transaction on the chain (43_sequencer.md): SHIFT_BITS, SHIFT_INT, SHIFT_BOOL,
CLEAR. LATCH is SHIFT_BITS of the empty list (R170). -/

namespace Sys2Proof.Machine

/-- SHIFT_BITS es (R163). -/
def execShiftBits (es : List Elem) (s : State) : Host.Outcome State Fault Refusal :=
  .next (s.whenConstructed fun t => t.checked (encBits es) State.startShift)

/-- SHIFT_INT v (R164). -/
def execShiftInt (v : Int) (s : State) : Host.Outcome State Fault Refusal :=
  .next (s.whenConstructed fun t => t.checked (encInt v) State.startShift)

/-- SHIFT_BOOL b (R165). -/
def execShiftBool (b : Bool) (s : State) : Host.Outcome State Fault Refusal :=
  .next (s.whenConstructed fun t => t.checked (encBool b) State.startShift)

/-- CLEAR (R166). -/
def execClear (s : State) : Host.Outcome State Fault Refusal :=
  .next (s.whenConstructed State.startClear)

end Sys2Proof.Machine
end

