-- ==== Sys2Proof/Machine/Dispatch.lean ====
section
/-! DEFINITION. One arm for each command of spec/opcode_table.json. -/

namespace Sys2Proof.Machine

def exec (i : Instr) (s : State) : Host.Outcome State Fault Refusal :=
  match i with
  | .init d sh l n => Sys2Proof.Machine.execInit d sh l n s
  | .setDataPin p => Sys2Proof.Machine.execSetDataPin p s
  | .setShiftPin p => Sys2Proof.Machine.execSetShiftPin p s
  | .setLatchPin p => Sys2Proof.Machine.execSetLatchPin p s
  | .setDepth n => Sys2Proof.Machine.execSetDepth n s
  | .shiftBits es => Sys2Proof.Machine.execShiftBits es s
  | .shiftInt v => Sys2Proof.Machine.execShiftInt v s
  | .shiftBool b => Sys2Proof.Machine.execShiftBool b s
  | .readState => Sys2Proof.Machine.execReadState s
  | .clear => Sys2Proof.Machine.execClear s

end Sys2Proof.Machine
end

