-- ==== Sys2Proof/Machine/Fetch.lean ====
section
/-! DEFINITION. What the machine does next: whose turn it is, and what stands at the port (00_scope.md R8, 10_state.md R30,
30_encoding.md R74-R77). -/

namespace Sys2Proof.Machine

/-- A frame of `n` bytes is consumed from the port, once, and not kept (20_memory.md R62). -/
def State.consume (n : Nat) (s : State) : State :=
  { s with port := s.port.drop n }

/-- The block looks at its port (R74-R77): a command, a rejection of the decoder's, or bytes that end inside a frame (or no
bytes), at which the block waits (R75; notes/assumptions/14.md). -/
def State.portTurn (s : State) : Turn :=
  match decode s.port with
  | .cmd i n => .command i (s.consume n)
  | .reject r n => .internal ((s.consume n).decoderReject r)
  | .incomplete => .internal s

/-- The block's turn (10_state.md R30): while Busy the port is not looked at. -/
def State.blockTurn (s : State) : Turn :=
  match s.phase with
  | .busy => .internal s.sequencerStep
  | .unconstructed => s.portTurn
  | .idle => s.portTurn

/-- Whose turn it is: the host's if its next move is due, else the block's (notes/assumptions/13.md). -/
def State.turn (s : State) : Turn :=
  match s.host with
  | [] => s.blockTurn
  | m :: rest =>
    match m.after with
    | 0 => .internal (State.hostAct { s with host := rest } m.act)
    | k + 1 => State.blockTurn { s with host := { m with after := k } :: rest }

/-- A state in which the block will look at its port in the next step, with exactly `bytes` there: no host move is due and a
command in progress is abandoned (notes/assumptions/16.md). -/
def State.atPort (bytes : List Byte) (s : State) : State :=
  match s.phase with
  | .busy => { s with phase := .idle, seq := [], pendingReply := none, port := bytes, host := [] }
  | .unconstructed => { s with port := bytes, host := [] }
  | .idle => { s with port := bytes, host := [] }

end Sys2Proof.Machine
end

