-- ==== Sys2Proof/Machine/Step.lean ====
section
/-! DEFINITION. One step of the machine, and how an opcode-table word is placed where the next step takes it. -/

namespace Sys2Proof.Machine

/-- One step: the command at the port is run, or the machine moves without one. -/
def step (s : State) : Host.Outcome State Fault Refusal :=
  match s.turn with
  | .command i t => exec i t
  | .internal t => .next t

/-- `s` with the frame of an opcode-table word at the port, so that the next step runs it. -/
def State.withFetchWord (s : State) (nbits w : Nat) : State :=
  s.atPort (tableFrame nbits w)

end Sys2Proof.Machine
end

