-- ==== Sys2Proof/Machine/Assembler.lean ====
section
/-! DEFINITION. The assembler syntax (30_encoding.md R81, R82): one command a line, the mnemonic and then its operands
separated by commas, `;` starts a comment. Blanks may stand between any two words and marks (notes/assumptions/27.md). -/

namespace Sys2Proof.Asm

/-- The words and marks of a line. -/
inductive Token where
  | word (w : List Char)
  | comma
  | lbrack
  | rbrack
  deriving DecidableEq, Repr

/-- What a line assembles to. -/
inductive Line where
  /-- Nothing but blanks and a comment. -/
  | blank
  | command (i : Instr)
  /-- Not a line of R81's syntax, or an operand that no frame can carry. -/
  | malformed
  deriving DecidableEq, Repr

/-- A character of a mnemonic or of a literal. -/
def isWordChar (c : Char) : Bool :=
  c.isAlphanum || c == '_' || c == '-'

/-- The word read so far (its characters reversed) stands before the tokens that follow it. -/
def flush (acc : List Char) (rest : List Token) : List Token :=
  match acc with
  | [] => rest
  | c :: cs => .word (c :: cs).reverse :: rest

/-- The tokens of a line up to its comment; `none` where a character belongs to no token. -/
def tokens (acc : List Char) : List Char → Option (List Token)
  | [] => some (flush acc [])
  | c :: cs =>
    if c = ';' then some (flush acc [])
    else if c = ' ' ∨ c = '\t' then (tokens [] cs).map (flush acc)
    else if c = ',' then (tokens [] cs).map fun ts => flush acc (.comma :: ts)
    else if c = '[' then (tokens [] cs).map fun ts => flush acc (.lbrack :: ts)
    else if c = ']' then (tokens [] cs).map fun ts => flush acc (.rbrack :: ts)
    else if isWordChar c then tokens (c :: acc) cs
    else none

/-- The value of a digit. -/
def digitValue (c : Char) : Option Nat :=
  if '0' ≤ c ∧ c ≤ '9' then some (c.toNat - '0'.toNat)
  else if 'a' ≤ c ∧ c ≤ 'f' then some (c.toNat - 'a'.toNat + 10)
  else if 'A' ≤ c ∧ c ≤ 'F' then some (c.toNat - 'A'.toNat + 10)
  else none

/-- The value of a string of digits in a base, continued from `acc`. -/
def digits (base acc : Nat) : List Char → Option Nat
  | [] => some acc
  | c :: cs =>
    match digitValue c with
    | none => none
    | some v => if v < base then digits base (acc * base + v) cs else none

/-- A literal without its sign: decimal, or hexadecimal with a `0x` prefix. -/
def natLiteral : List Char → Option Nat
  | [] => none
  | ['0', 'x'] => none
  | '0' :: 'x' :: cs => digits 16 0 cs
  | c :: cs => digits 10 0 (c :: cs)

/-- An integer literal, which may carry a leading `-`. -/
def intLiteral : List Char → Option Int
  | '-' :: cs => (natLiteral cs).map fun v => -(v : Int)
  | cs => (natLiteral cs).map fun v => (v : Int)

/-- A literal `true` or `false`. -/
def boolLiteral (w : List Char) : Option Bool :=
  if w = "true".toList then some true
  else if w = "false".toList then some false
  else none

/-- A list element: `true`, `false` or an integer; that it is 0..255 is `Instr.assemblable`'s check. -/
def elemLiteral (w : List Char) : Option Elem :=
  match boolLiteral w with
  | some b => some (.bool b)
  | none => (intLiteral w).map .int

/-- One or more words separated by commas. -/
def commaWords : List Token → Option (List (List Char))
  | [.word w] => some [w]
  | .word w :: .comma :: rest => (commaWords rest).map fun ws => w :: ws
  | _ => none

/-- The operands of a list command: what stands between `[` and `]`. -/
def bracketWords (ts : List Token) : Option (List (List Char)) :=
  match ts with
  | .lbrack :: rest =>
    match rest.reverse with
    | .rbrack :: inner => if inner = [] then some [] else commaWords inner.reverse
    | _ => none
  | _ => none

/-- The integer operands of a command that has `n` of them. -/
def intOperands (n : Nat) (ts : List Token) : Option (List Int) :=
  match commaWords ts with
  | none => none
  | some ws => if ws.length = n then ws.mapM intLiteral else none

/-- A command with one integer operand. -/
def oneInt (f : Int → Instr) (ts : List Token) : Option Instr :=
  match intOperands 1 ts with
  | some [v] => some (f v)
  | _ => none

/-- INIT's four operands. -/
def initOperands (ts : List Token) : Option Instr :=
  match intOperands 4 ts with
  | some [d, s, l, n] => some (.init d s l n)
  | _ => none

/-- SHIFT_BOOL's operand. -/
def boolOperand : List Token → Option Instr
  | [.word w] => (boolLiteral w).map .shiftBool
  | _ => none

/-- A command with no operand. -/
def noOperand (i : Instr) : List Token → Option Instr
  | [] => some i
  | _ => none

/-- The forms of R81, and the pseudo-instruction LATCH of R82. -/
def command (mnemonic : List Char) (ts : List Token) : Option Instr :=
  if mnemonic = "INIT".toList then initOperands ts
  else if mnemonic = "SET_DATA_PIN".toList then oneInt .setDataPin ts
  else if mnemonic = "SET_SHIFT_PIN".toList then oneInt .setShiftPin ts
  else if mnemonic = "SET_LATCH_PIN".toList then oneInt .setLatchPin ts
  else if mnemonic = "SET_DEPTH".toList then oneInt .setDepth ts
  else if mnemonic = "SHIFT_BITS".toList then
    match bracketWords ts with
    | none => none
    | some ws => (ws.mapM elemLiteral).map .shiftBits
  else if mnemonic = "SHIFT_INT".toList then oneInt .shiftInt ts
  else if mnemonic = "SHIFT_BOOL".toList then boolOperand ts
  else if mnemonic = "READ_STATE".toList then noOperand .readState ts
  else if mnemonic = "CLEAR".toList then noOperand .clear ts
  else if mnemonic = "LATCH".toList then noOperand latch ts
  else none

/-- One line of assembly. -/
def line (cs : List Char) : Line :=
  match tokens [] cs with
  | none => .malformed
  | some [] => .blank
  | some (.word m :: ts) =>
    match command m ts with
    | none => .malformed
    | some i => if i.assemblable then .command i else .malformed
  | some _ => .malformed

/-- The bytes of a program's lines, their frames concatenated; `none` if a line is malformed. -/
def assemble : List (List Char) → Option (List Byte)
  | [] => some []
  | cs :: rest =>
    match line cs with
    | .blank => assemble rest
    | .malformed => none
    | .command i => (assemble rest).map fun bs => encode i ++ bs

end Sys2Proof.Asm
end

