-- ==== Sys2Proof/Safety.lean ====
section
/-! DEFINITION. The words the statements use: runs of several steps, the host's schedule, the end of a run, the invariant of
the machine, and the premises and the content of the mirror property (60_exceptions.md R232). -/

namespace Sys2Proof.Machine

/-! ### Runs -/

/-- `n` steps. -/
def steps : Nat → State → Host.Outcome State Fault Refusal
  | 0, s => .next s
  | n + 1, s =>
    match step s with
    | .next t => steps n t
    | .fault f => .fault f
    | .refused r => .refused r

/-- No move of the host is due, so the block moves in the next step (notes/assumptions/13.md). -/
def noMoveDue : List HostMove → Bool
  | [] => true
  | m :: _ => decide (0 < m.after)

/-- The host's schedule after one turn of the block. -/
def passTurn : List HostMove → List HostMove
  | [] => []
  | m :: rest => { m with after := m.after - 1 } :: rest

/-- The act puts something on the command port. -/
def HostAct.presents : HostAct → Bool
  | .present bytes => !bytes.isEmpty
  | .configurePin _ => false
  | .writePin _ _ => false
  | .rewire _ _ _ => false
  | .assertReset => false

/-- The end of a run (70_reset_and_hazards.md R245): nothing more is presented, no frame or part of one is pending, the block
is not Busy and has nothing left to perform, and every presented command has its reply. -/
def State.finished (s : State) : Bool :=
  s.host.all (fun m => !m.act.presents) && decide (s.port = []) && decide (s.phase ≠ .busy) && decide (s.seq = []) &&
    (decide (s.pendingReply = none) && decide (s.dropped = 0))

/-! ### What commands ask for -/

/-- INIT is the one command exempt from NOT_INITIALIZED (60_exceptions.md R205). -/
def isInit : Instr → Bool
  | .init _ _ _ _ => true
  | .setDataPin _ => false
  | .setShiftPin _ => false
  | .setLatchPin _ => false
  | .setDepth _ => false
  | .shiftBits _ => false
  | .shiftInt _ => false
  | .shiftBool _ => false
  | .readState => false
  | .clear => false

/-- `i` is a shift command whose payload encodes to `bits` (41_encoder.md R120). -/
def ShiftsBits (i : Instr) (bits : BitSequence) : Prop :=
  match i with
  | .shiftBits es => encBits es = .ok bits
  | .shiftInt v => encInt v = .ok bits
  | .shiftBool b => encBool b = .ok bits
  | .init _ _ _ _ => False
  | .setDataPin _ => False
  | .setShiftPin _ => False
  | .setLatchPin _ => False
  | .setDepth _ => False
  | .readState => False
  | .clear => False

/-- The state in which a command is accepted that writes no configuration and not the shadow. -/
def State.accepted (s : State) (actions : List Action) (r : Reply) : State :=
  { s with seq := actions, pendingReply := some r, phase := .busy }

/-- The Idle state a command leaves: its reply `r` is emitted and in the status registers, nothing is pending. -/
def State.afterReply (s : State) (r : Reply) : State :=
  { s with
    phase := .idle
    seq := []
    pendingReply := none
    trace := s.trace ++ [.reply r]
    lastStatus := r.status.code
    lastReason := r.reason.code }

/-- The state a rejection leaves (R203). -/
def State.rejectedWith (s : State) (st : Status) (rs : Reason) : State :=
  { s with
    trace := s.trace ++ [.reply { status := st, reason := rs, data := none }]
    lastStatus := st.code
    lastReason := rs.code }

/-- The outcome is a next state in which one more reply frame has been given, the two bytes `status` and `reason`, and the
status registers hold them (30_encoding.md R79, 10_state.md R29). -/
def Replies (s : State) (o : Host.Outcome State Fault Refusal) (status reason : Byte) : Prop :=
  ∃ t, o = .next t ∧ t.lastStatus = status ∧ t.lastReason = reason ∧ t.replyBytes = s.replyBytes ++ [status, reason]

/-- The writes of a CLEAR transaction of `k` zeros on the pins `d`, `s`, `l` (43_sequencer.md R160, R166). -/
def clearEvents (d s l : PinId) (k : Nat) : List Event :=
  (List.replicate k [Event.write d .low, Event.write s .high, Event.write s .low]).flatten ++
    [Event.write l .high, Event.write l .low]

/-! ### The invariant -/

/-- R23. -/
def ConfigurationValid (s : State) : Prop :=
  s.phase ≠ .unconstructed →
    s.params.pinValid s.cfg.dataPin = true ∧ s.params.pinValid s.cfg.shiftClockPin = true ∧
      s.params.pinValid s.cfg.latchClockPin = true ∧ 1 ≤ s.cfg.chainDepth ∧
        s.params.depthTooLarge (s.cfg.chainDepth : Int) = false

/-- R26. -/
def ShadowHasLength (s : State) : Prop :=
  s.phase ≠ .unconstructed → s.shadow.length = 8 * s.cfg.chainDepth

/-- R30: the sequencer holds actions and a reply only while Busy, and the reply it holds is an OK one (R208). -/
def SequencerMatchesPhase (s : State) : Prop :=
  (s.phase ≠ .busy → s.seq = [] ∧ s.pendingReply = none) ∧
    (s.phase = .busy → ∃ r, s.pendingReply = some r ∧ r.status = .ok ∧ r.reason = .none)

/-- R142: a reply that carries data carries the shadow, and nothing is left to change it. -/
def PendingDataIsShadow (s : State) : Prop :=
  ∀ r bits, s.pendingReply = some r → r.data = some bits → bits = s.shadow ∧ s.seq = []

/-- An action reaches no pin but the three that CR0-CR2 hold (20_memory.md R50). -/
def ActionOnRoles (c : Configuration) : Action → Prop
  | .pinConfigOut p => p = c.dataPin ∨ p = c.shiftClockPin ∨ p = c.latchClockPin
  | .pinWrite p _ => p = c.dataPin ∨ p = c.shiftClockPin ∨ p = c.latchClockPin
  | .advance _ => True

/-- R50 item 1. -/
def SequenceOnRoles (s : State) : Prop :=
  ∀ a ∈ s.seq, ActionOnRoles s.cfg a

/-- R29: the status registers hold the codes of the last reply; OK and NONE before any. -/
def StatusIsLastReply (s : State) : Prop :=
  match (repliesOf s.trace).getLast? with
  | none => s.lastStatus = 0x00 ∧ s.lastReason = 0x00
  | some r => s.lastStatus = r.status.code ∧ s.lastReason = r.reason.code

/-- R201: data only with OK, and R202: a reason other than NONE exactly with INVALID_ARGUMENT. -/
def RepliesWellFormed (s : State) : Prop :=
  ∀ r ∈ repliesOf s.trace,
    (r.data.isSome = true → r.status = .ok) ∧ (r.reason ≠ .none ↔ r.status = .invalidArgument)

/-- The collaborator's lines are in canonical form (R221). -/
def LinesCanonical (s : State) : Prop :=
  linesWf s.env.lines = true

/-- R226: at least one chip, and both registers of the chain are `8 × N_PHYS` bits. -/
def ChainSized (c : Chain) : Prop :=
  1 ≤ c.chips ∧ c.stages.length = 8 * c.chips ∧ c.storage.length = 8 * c.chips

/-- The premises of R232 that are about a state: DepthMatches, Wired, DistinctRoles, NoEnvFault. -/
structure MirrorPremises (s : State) : Prop where
  depth : s.env.chain.chips = s.cfg.chainDepth
  wiredData : s.env.chain.serPin = s.cfg.dataPin
  wiredShift : s.env.chain.srclkPin = s.cfg.shiftClockPin
  wiredLatch : s.env.chain.rclkPin = s.cfg.latchClockPin
  distinctDataShift : s.cfg.dataPin ≠ s.cfg.shiftClockPin
  distinctDataLatch : s.cfg.dataPin ≠ s.cfg.latchClockPin
  distinctShiftLatch : s.cfg.shiftClockPin ≠ s.cfg.latchClockPin
  noFault : s.env.fault = none

/-- The premises of R232 speak of an INIT (notes/assumptions/8.md): none has been accepted only while Unconstructed, and while
Unconstructed none is in force. -/
def StandingMatchesPhase (s : State) : Prop :=
  (s.env.standing = .fresh → s.phase = .unconstructed) ∧ (s.phase = .unconstructed → s.env.standing ≠ .vouched)

/-- The invariant of the machine. -/
structure Inv (s : State) : Prop where
  params : s.params.wf = true
  configuration : ConfigurationValid s
  shadow : ShadowHasLength s
  sequencer : SequencerMatchesPhase s
  data : PendingDataIsShadow s
  roles : SequenceOnRoles s
  status : StatusIsLastReply s
  replies : RepliesWellFormed s
  lines : LinesCanonical s
  chain : ChainSized s.env.chain
  vouched : s.env.standing = .vouched → MirrorPremises s
  standing : StandingMatchesPhase s

/-! ### The mirror property (R232) -/

/-- What R232 says of a command boundary: the stages are the shadow reversed and the storage equals the stages; with it what
a further transaction needs, both clock lines low (43_sequencer.md R167) and the data line configured. -/
structure Mirrored (s : State) : Prop where
  stages : s.env.chain.stages = s.shadow.reverse
  storage : s.env.chain.storage = s.env.chain.stages
  shiftLow : lineLevel s.env.lines s.cfg.shiftClockPin = some .low
  latchLow : lineLevel s.env.lines s.cfg.latchClockPin = some .low
  dataConfigured : (lineLevel s.env.lines s.cfg.dataPin).isSome = true

/-- `e'` is `e` but for what other agents may do under premise DisjointPins: the other lines, and the draws taken. -/
structure AgreesOnRoles (c : Configuration) (e e' : Env) : Prop where
  chain : e'.chain = e.chain
  fault : e'.fault = e.fault
  standing : e'.standing = e.standing
  data : lineLevel e'.lines c.dataPin = lineLevel e.lines c.dataPin
  shiftClock : lineLevel e'.lines c.shiftClockPin = lineLevel e.lines c.shiftClockPin
  latchClock : lineLevel e'.lines c.latchClockPin = lineLevel e.lines c.latchClockPin

/-- Once `actions` are performed the state is Mirrored, if the premises have held to that point; whatever other agents do to
the other pins before each action. -/
def MirrorsAfter : List Action → State → Prop
  | [], s => s.env.standing = .vouched → Mirrored s
  | a :: rest, s => ∀ e, AgreesOnRoles s.cfg s.env e → MirrorsAfter rest (State.perform { s with env := e } a)

/-- The state is Mirrored once the rest of the action list is performed; at a command boundary it is Mirrored now. Both as far
as the premises of R232 hold. -/
def WillMirror (s : State) : Prop :=
  MirrorsAfter s.seq s

/-- Premises DisjointPins, NoMidReset and the continuity of Wired, for the host's move in this step. -/
def HostSparesRoles (s : State) : Prop :=
  ∀ act rest, s.host = { after := 0, act := act } :: rest →
    match act with
    | .present _ => True
    | .configurePin p => s.cfg.hasPin p = false
    | .writePin p _ => s.cfg.hasPin p = false
    | .rewire _ _ _ => False
    | .assertReset => False

/-- Premise ClocksStartLow, for the block's action in this step: a clock it configures shows low in `t`. -/
def ClocksStartLow (s t : State) : Prop :=
  ∀ p rest, s.phase = .busy → noMoveDue s.host = true → s.seq = .pinConfigOut p :: rest →
    (p = s.cfg.shiftClockPin ∨ p = s.cfg.latchClockPin) → lineLevel t.env.lines p = some .low

end Sys2Proof.Machine
end

