-- ==== Sys2Proof/Certificates/Slice0/Obligations.lean ====
section
/-! DEFINITION. The statements for the provers. Each docstring says which rule of spec/ it formalises. -/

open Sys2Proof Sys2Proof.Machine

/-! ### Encoding -/

/-- 30_encoding.md R71-R74, R80: a frame decodes to the command it encodes, with every operand at every value its field
admits, whatever bytes follow it. -/
def Obligations.DecodeOfEncodeIsIdentity : Prop :=
  ∀ (i : Instr) (rest : List Byte), i.wellFormed = true →
    decode (encode i ++ rest) = .cmd i (encode i).length

/-- R71-R74, R80: a command that the decoder reads is one a frame can carry, and the bytes it was read from are its frame. -/
def Obligations.EncodeOfDecodeIsTheFrame : Prop :=
  ∀ (bs : List Byte) (i : Instr) (n : Nat), decode bs = .cmd i n →
    i.wellFormed = true ∧ n ≤ bs.length ∧ encode i = bs.take n

/-- R72, R81: a list with boolean elements assembles to the frame of the list of the integers 0 and 1, and decodes to that. -/
def Obligations.AssembledListsDecodeToIntegerElements : Prop :=
  ∀ (i : Instr) (rest : List Byte), i.assemblable = true →
    encode i = encode i.asFrame ∧ i.asFrame.wellFormed = true ∧
      decode (encode i ++ rest) = .cmd i.asFrame (encode i).length

/-- R77 and 60_exceptions.md R204: for an unassigned opcode, and for no other, the decoder consumes one byte and the block
replies UNKNOWN_COMMAND, NONE in every phase but Busy, with no other effect. -/
def Obligations.UnassignedOpcodesAreRejected : Prop :=
  (∀ (op : Byte) (rest : List Byte),
    (op.toNat = 0x00 ∨ (0x06 ≤ op.toNat ∧ op.toNat ≤ 0x0F) ∨ 0x15 ≤ op.toNat ↔
      decode (op :: rest) = .reject .unknownCommand 1)) ∧
  (∀ (bs : List Byte) (n : Nat), decode bs = .reject .unknownCommand n → n = 1) ∧
  (∀ (s : State) (op : Byte) (rest : List Byte), s.phase ≠ .busy → noMoveDue s.host = true → s.port = op :: rest →
    (op.toNat = 0x00 ∨ (0x06 ≤ op.toNat ∧ op.toNat ≤ 0x0F) ∨ 0x15 ≤ op.toNat) →
    step s = .next { s with
      port := rest
      host := passTurn s.host
      trace := s.trace ++ [.reply { status := .unknownCommand, reason := .none, data := none }]
      lastStatus := 0x02
      lastReason := 0x00 })

/-- R80 and R206 item 1: SHIFT_BOOL with a byte other than 0x00 and 0x01 consumes two bytes and replies INVALID_ARGUMENT,
BOOL_NOT_BOOLEAN, while Unconstructed too. -/
def Obligations.NonBooleanByteIsRejected : Prop :=
  ∀ (s : State) (b : Byte) (rest : List Byte), s.phase ≠ .busy → noMoveDue s.host = true →
    s.port = 0x12 :: b :: rest → b ≠ 0x00 → b ≠ 0x01 →
    step s = .next { s with
      port := rest
      host := passTurn s.host
      trace := s.trace ++ [.reply { status := .invalidArgument, reason := .boolNotBoolean, data := none }]
      lastStatus := 0x01
      lastReason := 0x08 }

/-- R75: no proper prefix of a frame is decoded; a port that ends inside a frame leaves the block as it is, and a run with
such bytes pending is not finished (R245). That the wait is a step with no effect is the model's choice
(notes/assumptions/14.md). -/
def Obligations.PartialFramesWait : Prop :=
  (∀ (i : Instr) (k : Nat), i.wellFormed = true → k < (encode i).length →
    decode ((encode i).take k) = .incomplete) ∧
  (∀ s : State, s.phase ≠ .busy → noMoveDue s.host = true → decode s.port = .incomplete →
    step s = .next { s with host := passTurn s.host }) ∧
  (∀ s : State, s.port ≠ [] → s.finished = false)

/-- R74, R80: what the decoder makes of a complete frame does not depend on the bytes after it, and it never takes more bytes
than there are, nor none. -/
def Obligations.DecodingIgnoresLaterBytes : Prop :=
  ∀ bs more : List Byte, decode bs ≠ .incomplete →
    decode (bs ++ more) = decode bs ∧
      (∀ i n, decode bs = .cmd i n → 0 < n ∧ n ≤ bs.length) ∧
      (∀ r n, decode bs = .reject r n → 0 < n ∧ n ≤ bs.length)

/-- R83: the worked encodings, each encoded and decoded, with the two rejections it names. -/
def Obligations.WorkedEncodings : Prop :=
  encode (.init 17 27 22 1) =
      [0x01, 0x11, 0, 0, 0, 0x1B, 0, 0, 0, 0x16, 0, 0, 0, 0x01, 0, 0, 0] ∧
    decode [0x01, 0x11, 0, 0, 0, 0x1B, 0, 0, 0, 0x16, 0, 0, 0, 0x01, 0, 0, 0] = .cmd (.init 17 27 22 1) 17 ∧
    encode (.shiftInt 12) = [0x11, 0x0C, 0, 0, 0, 0, 0, 0, 0] ∧
    decode [0x11, 0x0C, 0, 0, 0, 0, 0, 0, 0] = .cmd (.shiftInt 12) 9 ∧
    encode (.shiftInt (-1)) = [0x11, 0xFF, 0xFF, 0xFF, 0xFF, 0xFF, 0xFF, 0xFF, 0xFF] ∧
    decode [0x11, 0xFF, 0xFF, 0xFF, 0xFF, 0xFF, 0xFF, 0xFF, 0xFF] = .cmd (.shiftInt (-1)) 9 ∧
    encInt (-1) = .error .negativeInteger ∧
    encode (.shiftBits [.int 1, .int 0, .bool true]) = [0x10, 0x03, 0, 0, 0, 0x01, 0x00, 0x01] ∧
    decode [0x10, 0x03, 0, 0, 0, 0x01, 0x00, 0x01] = .cmd (.shiftBits [.int 1, .int 0, .int 1]) 8 ∧
    encode (.setDepth 0) = [0x05, 0, 0, 0, 0] ∧
    decode [0x05, 0, 0, 0, 0] = .cmd (.setDepth 0) 5 ∧
    (∀ c, checkDepth c 0 = .error .depthNotPositive) ∧
    encode (.shiftBool true) = [0x12, 0x01] ∧ decode [0x12, 0x01] = .cmd (.shiftBool true) 2 ∧
    encode .readState = [0x13] ∧ decode [0x13] = .cmd .readState 1 ∧
    encode .clear = [0x14] ∧ decode [0x14] = .cmd .clear 1

/-- 60_exceptions.md R200, R202: the codes; and R79: a reply frame is the status code, the reason code and, where the reply
carries data, the number of bits in four bytes, least significant first, and one byte for each bit. -/
def Obligations.ReplyFrameLayout : Prop :=
  (Status.ok.code = 0x00 ∧ Status.invalidArgument.code = 0x01 ∧ Status.unknownCommand.code = 0x02 ∧
    Status.notInitialized.code = 0x03) ∧
  (Reason.none.code = 0x00 ∧ Reason.dataPinInvalid.code = 0x01 ∧ Reason.shiftPinInvalid.code = 0x02 ∧
    Reason.latchPinInvalid.code = 0x03 ∧ Reason.depthNotPositive.code = 0x04 ∧ Reason.depthExceedsCapacity.code = 0x05 ∧
    Reason.elementNotBit.code = 0x06 ∧ Reason.negativeInteger.code = 0x07 ∧ Reason.boolNotBoolean.code = 0x08) ∧
  ∀ r : Reply,
    (r.data = none → r.frame = [r.status.code, r.reason.code]) ∧
    (∀ bits, r.data = some bits → bits.length < 2 ^ 32 →
      ∃ len : List Byte, len.length = 4 ∧ rawLE len = bits.length ∧
        r.frame = [r.status.code, r.reason.code] ++ len ++ bits.map fun b => if b then 0x01 else 0x00)

/-! ### Steps -/

/-- 10_state.md R30, 00_scope.md R8: in a phase other than Busy, with no host move due, a step is `exec` of the command that
the bytes at the port decode to, in the state whose frame is consumed. -/
def Obligations.StepRunsTheCommandAtThePort : Prop :=
  ∀ (s : State) (i : Instr) (n : Nat), s.phase ≠ .busy → noMoveDue s.host = true → decode s.port = .cmd i n →
    step s = exec i { s with port := s.port.drop n, host := passTurn s.host }

/-- R30, R32: a step while Busy performs exactly the next action, or, when none is left, gives the reply and goes Idle. The
port is not looked at. That the reply given is then no longer pending is the model's reading (notes/assumptions/28.md). -/
def Obligations.BusyStepPerformsOneAction : Prop :=
  ∀ s : State, s.phase = .busy → noMoveDue s.host = true →
    (∀ p rest, s.seq = .pinConfigOut p :: rest →
      step s = .next { s with
        seq := rest, host := passTurn s.host, trace := s.trace ++ [.cfgOut p], env := s.env.configure p }) ∧
    (∀ p lvl rest, s.seq = .pinWrite p lvl :: rest →
      step s = .next { s with
        seq := rest, host := passTurn s.host, trace := s.trace ++ [.write p lvl], env := s.env.write p lvl }) ∧
    (∀ b rest, s.seq = .advance b :: rest →
      step s = .next { s with
        seq := rest, host := passTurn s.host, shadow := s.shadow.tail ++ [b] }) ∧
    (∀ r, s.seq = [] → s.pendingReply = some r →
      step s = .next { s.afterReply r with host := passTurn s.host })

/-- R30: the wait for `ready` always ends. With no host move to come the block is Busy for exactly as many steps as actions are
left, and the step after them gives the reply. With host moves to come, none of them the reset input, it ends too, at most one
step later for each move. In the state after the reply no reply is pending, which is the model's reading
(notes/assumptions/28.md); that a host move takes a step of its own is the model's choice (notes/assumptions/13.md). -/
def Obligations.BusyWaitEnds : Prop :=
  ∀ (s : State) (r : Reply), s.phase = .busy → s.pendingReply = some r →
    (s.host = [] →
      (∀ k, k ≤ s.seq.length → ∃ t, steps k s = .next t ∧ t.phase = .busy ∧ t.seq = s.seq.drop k ∧
        t.port = s.port ∧ t.cfg = s.cfg ∧ t.pendingReply = some r) ∧
      steps (s.seq.length + 1) s = .next ((s.performAll s.seq).afterReply r)) ∧
    ((∀ m ∈ s.host, m.act ≠ .assertReset) →
      ∃ k t, k ≤ s.seq.length + s.host.length + 1 ∧ steps k s = .next t ∧ t.phase = .idle ∧
        t.trace = s.trace ++ eventsOf s.seq ++ [.reply r] ∧ t.shadow = advanceAll s.shadow (bitsOf s.seq) ∧
        t.cfg = s.cfg)

/-- 60_exceptions.md R208: once a command is accepted nothing fails; and no step of the machine ends in a fault or a refusal,
whatever is at the port and whatever the host does. That a block which waits at its port takes a step at all, one without
effect, where 93_implementation_defined.md U12 calls it stuck, is the model's choice (notes/assumptions/14.md). -/
def Obligations.NoStepFails : Prop :=
  (∀ s : State, ∃ t, step s = .next t) ∧ ∀ (n : Nat) (s : State), ∃ t, steps n s = .next t

/-- 70_reset_and_hazards.md R245: in a finished run the block is ready, and the run stays finished whatever moves the host
still makes. That a further step has no effect where there is no move to come is the model's choice
(notes/assumptions/14.md). -/
def Obligations.FinishedRunsStay : Prop :=
  ∀ s : State, s.finished = true →
    s.ready = true ∧ (s.host = [] → step s = .next s) ∧ ∀ t, step s = .next t → t.finished = true

/-- R225: what each of the host's dealings does: bytes it presents wait behind those at the port, a pin is configured at the
collaborator, the reset input is asserted. That the moves are a list, that a due one is made in the next step and that the block
does not move in that step are the model's own (notes/assumptions/13.md), and so is the move `writePin`, another agent's write;
the move `rewire` is notes/assumptions/25.md. What the reset input keeps is notes/assumptions/12.md. An act on a role pin breaks
premise DisjointPins where the premises are in force, and the chain is a draw (R233, notes/assumptions/8.md). -/
def Obligations.DueHostMovesAreMade : Prop :=
  ∀ (s : State) (a : HostAct) (rest : List HostMove), s.host = { after := 0, act := a } :: rest →
    (∀ bytes, a = .present bytes → step s = .next { s with host := rest, port := s.port ++ bytes }) ∧
    (∀ p, a = .configurePin p → step s = .next { s with
      host := rest
      env := if (s.env.configure p).standing = .vouched ∧ s.cfg.hasPin p = true then (s.env.configure p).unvouch
        else s.env.configure p }) ∧
    (∀ p lvl, a = .writePin p lvl → step s = .next { s with
      host := rest
      env := if (s.env.write p lvl).standing = .vouched ∧ s.cfg.hasPin p = true then (s.env.write p lvl).unvouch
        else s.env.write p lvl }) ∧
    (∀ ser srclk rclk, a = .rewire ser srclk rclk → ∃ e, step s = .next { s with host := rest, env := e } ∧
      e.chain.serPin = ser ∧ e.chain.srclkPin = srclk ∧ e.chain.rclkPin = rclk ∧ e.chain.chips = s.env.chain.chips ∧
      e.lines = s.env.lines ∧ e.fault = s.env.fault ∧
      e.standing = (if s.env.standing = .vouched then .failed else s.env.standing)) ∧
    (a = .assertReset → step s = .next (State.assertReset { s with host := rest }))

/-! ### Rejection -/

/-- R203: a command presented to a block that is not Busy is either accepted or rejected. A rejection replies in the same step,
writes the status registers with an error status, and changes nothing else; an acceptance has performed no pin action, so that
the lines are as they were, given no reply and left the status registers alone. -/
def Obligations.RejectionChangesOnlyStatusAndTrace : Prop :=
  ∀ (i : Instr) (s t : State), s.phase ≠ .busy → exec i s = .next t →
    (t.phase ≠ .busy → ∃ st rs, st ≠ .ok ∧ t = s.rejectedWith st rs) ∧
    (t.phase = .busy → t.trace = s.trace ∧ t.env.lines = s.env.lines ∧ t.env.fault = s.env.fault ∧
      t.env.givenLevels = s.env.givenLevels ∧ t.port = s.port ∧ t.host = s.host ∧ t.params = s.params ∧
      t.lastStatus = s.lastStatus ∧ t.lastReason = s.lastReason)

/-- R205: while Unconstructed every command but INIT is rejected with NOT_INITIALIZED, NONE, whatever its operands. -/
def Obligations.CommandsBeforeInitAreRejected : Prop :=
  ∀ (i : Instr) (s : State), s.phase = .unconstructed → isInit i = false →
    exec i s = .next (s.rejectedWith .notInitialized .none)

/-- 40_config.md R100 (check), 60_exceptions.md R206 item 3: a failed INIT reports the first failing operand in the order d,
s, l, n < 1, n > N_MAX, and leaves everything else unchanged, in either phase. -/
def Obligations.InitReportsFirstFailingOperand : Prop :=
  ∀ (st : State) (d s l n : Int), st.phase ≠ .busy →
    (st.params.pinValid d = false → exec (.init d s l n) st = .next (st.rejectedWith .invalidArgument .dataPinInvalid)) ∧
    (st.params.pinValid d = true → st.params.pinValid s = false →
      exec (.init d s l n) st = .next (st.rejectedWith .invalidArgument .shiftPinInvalid)) ∧
    (st.params.pinValid d = true → st.params.pinValid s = true → st.params.pinValid l = false →
      exec (.init d s l n) st = .next (st.rejectedWith .invalidArgument .latchPinInvalid)) ∧
    (st.params.pinValid d = true → st.params.pinValid s = true → st.params.pinValid l = true → n < 1 →
      exec (.init d s l n) st = .next (st.rejectedWith .invalidArgument .depthNotPositive)) ∧
    (st.params.pinValid d = true → st.params.pinValid s = true → st.params.pinValid l = true → 1 ≤ n →
      st.params.depthTooLarge n = true →
      exec (.init d s l n) st = .next (st.rejectedWith .invalidArgument .depthExceedsCapacity))

/-- R101-R104 (checks): a setter with an invalid operand is rejected with its own reason. -/
def Obligations.SettersRejectInvalidOperands : Prop :=
  ∀ (s : State) (v : Int), s.phase = .idle →
    (s.params.pinValid v = false →
      exec (.setDataPin v) s = .next (s.rejectedWith .invalidArgument .dataPinInvalid) ∧
      exec (.setShiftPin v) s = .next (s.rejectedWith .invalidArgument .shiftPinInvalid) ∧
      exec (.setLatchPin v) s = .next (s.rejectedWith .invalidArgument .latchPinInvalid)) ∧
    (v < 1 → exec (.setDepth v) s = .next (s.rejectedWith .invalidArgument .depthNotPositive)) ∧
    (1 ≤ v → s.params.depthTooLarge v = true →
      exec (.setDepth v) s = .next (s.rejectedWith .invalidArgument .depthExceedsCapacity))

/-- R163-R165 (checks), R202: while Idle, one bad element anywhere rejects a whole list with no bit shifted, and a list without
one is accepted; a negative integer is rejected and every other one is accepted; SHIFT_BOOL is always accepted. -/
def Obligations.BadPayloadsAreRejectedWhole : Prop :=
  ∀ s : State, s.phase = .idle →
    (∀ es : List Elem,
      ((∃ e ∈ es, e ≠ .int 0 ∧ e ≠ .int 1 ∧ e ≠ .bool false ∧ e ≠ .bool true) →
        exec (.shiftBits es) s = .next (s.rejectedWith .invalidArgument .elementNotBit)) ∧
      ((∀ e ∈ es, e = .int 0 ∨ e = .int 1 ∨ e = .bool false ∨ e = .bool true) →
        ∃ t, exec (.shiftBits es) s = .next t ∧ t.phase = .busy)) ∧
    (∀ v : Int,
      (v < 0 → exec (.shiftInt v) s = .next (s.rejectedWith .invalidArgument .negativeInteger)) ∧
      (0 ≤ v → ∃ t, exec (.shiftInt v) s = .next t ∧ t.phase = .busy)) ∧
    ∀ b : Bool, ∃ t, exec (.shiftBool b) s = .next t ∧ t.phase = .busy

/-- R200, R202 and 30_encoding.md R79, in bytes: the reply frame of each rejection, and the two status registers. The decoder's
own two stand last. -/
def Obligations.RejectionReplyBytes : Prop :=
  ∀ s : State, s.phase ≠ .busy →
    (s.phase = .unconstructed → ∀ i, isInit i = false → Replies s (exec i s) 0x03 0x00) ∧
    (∀ d sh l n : Int,
      (s.params.pinValid d = false → Replies s (exec (.init d sh l n) s) 0x01 0x01) ∧
      (s.params.pinValid d = true →
        (s.params.pinValid sh = false → Replies s (exec (.init d sh l n) s) 0x01 0x02) ∧
        (s.params.pinValid sh = true →
          (s.params.pinValid l = false → Replies s (exec (.init d sh l n) s) 0x01 0x03) ∧
          (s.params.pinValid l = true →
            (n < 1 → Replies s (exec (.init d sh l n) s) 0x01 0x04) ∧
            (1 ≤ n → s.params.depthTooLarge n = true → Replies s (exec (.init d sh l n) s) 0x01 0x05))))) ∧
    (s.phase = .idle →
      (∀ p, s.params.pinValid p = false → Replies s (exec (.setDataPin p) s) 0x01 0x01 ∧
        Replies s (exec (.setShiftPin p) s) 0x01 0x02 ∧ Replies s (exec (.setLatchPin p) s) 0x01 0x03) ∧
      (∀ n, n < 1 → Replies s (exec (.setDepth n) s) 0x01 0x04) ∧
      (∀ n, 1 ≤ n → s.params.depthTooLarge n = true → Replies s (exec (.setDepth n) s) 0x01 0x05) ∧
      (∀ es, (∃ e ∈ es, e ≠ .int 0 ∧ e ≠ .int 1 ∧ e ≠ .bool false ∧ e ≠ .bool true) →
        Replies s (exec (.shiftBits es) s) 0x01 0x06) ∧
      (∀ v, v < 0 → Replies s (exec (.shiftInt v) s) 0x01 0x07)) ∧
    (noMoveDue s.host = true →
      (∀ n, decode s.port = .reject .boolNotBoolean n → Replies s (step s) 0x01 0x08) ∧
      (∀ n, decode s.port = .reject .unknownCommand n → Replies s (step s) 0x02 0x00))

/-! ### Commands -/

/-- 40_config.md R100 (effect), in either phase: the accepting step of INIT writes the four registers and the shadow, and
queues the pin setup and a CLEAR transaction. Of the environment only the vouch for the chain is settled
(notes/assumptions/8.md). -/
def Obligations.InitAcceptingStep : Prop :=
  ∀ (st : State) (d s l : Int) (n : Nat), st.phase ≠ .busy →
    st.params.pinValid d = true → st.params.pinValid s = true → st.params.pinValid l = true →
    1 ≤ n → st.params.depthTooLarge (n : Int) = false →
    exec (.init d s l (n : Int)) st = .next { st with
      cfg := { dataPin := d, shiftClockPin := s, latchClockPin := l, chainDepth := n }
      shadow := zeros (8 * n)
      seq := [.pinConfigOut d, .pinConfigOut s, .pinConfigOut l] ++ txn d s l (zeros (8 * n))
      pendingReply := some { status := .ok, reason := .none, data := none }
      phase := .busy
      env := st.env.vouchIf
        (premisesHold { dataPin := d, shiftClockPin := s, latchClockPin := l, chainDepth := n } st.env) }

/-- 10_state.md R37: the state in which INIT has completed, `32n + 7` steps after it was presented (70_reset_and_hazards.md
R252). That no reply is pending then is the model's reading (notes/assumptions/28.md); the environment starts from its vouch
for the chain (notes/assumptions/8.md). -/
def Obligations.InitCompletes : Prop :=
  ∀ (st : State) (d s l : Int) (n len : Nat), st.phase ≠ .busy → st.host = [] →
    decode st.port = .cmd (.init d s l (n : Int)) len →
    st.params.pinValid d = true → st.params.pinValid s = true → st.params.pinValid l = true →
    1 ≤ n → st.params.depthTooLarge (n : Int) = false →
    ∃ t, steps (32 * n + 7) st = .next t ∧
      t.phase = .idle ∧
      t.cfg = { dataPin := d, shiftClockPin := s, latchClockPin := l, chainDepth := n } ∧
      t.shadow = zeros (8 * n) ∧
      t.drv d = some .low ∧ t.drv s = some .low ∧ t.drv l = some .low ∧
      t.lastStatus = 0x00 ∧ t.lastReason = 0x00 ∧ t.seq = [] ∧ t.pendingReply = none ∧
      t.trace = st.trace ++ [.cfgOut d, .cfgOut s, .cfgOut l] ++ clearEvents d s l (8 * n) ++
        [.reply { status := .ok, reason := .none, data := none }] ∧
      (clearEvents d s l (8 * n)).length = 24 * n + 2 ∧
      t.env = (State.performAll
        { st with
          env := st.env.vouchIf
            (premisesHold { dataPin := d, shiftClockPin := s, latchClockPin := l, chainDepth := n } st.env) }
        ([.pinConfigOut d, .pinConfigOut s, .pinConfigOut l] ++ txn d s l (zeros (8 * n)))).env ∧
      t.port = st.port.drop len ∧ t.params = st.params ∧ t.host = []

/-- R101-R103, R105-R107: a role setter with a valid pin replaces the one register by its operand, performs no pin action,
keeps the shadow, and replies OK in the next step; no other register of the block changes but the status registers. No reply is
pending afterwards, which is the model's reading (notes/assumptions/28.md). Of the environment, lines and all, nothing changes
but the content of a chain that the change has taken out of premise Wired or DistinctRoles (R233, notes/assumptions/8.md). -/
def Obligations.RoleSettersReplaceOneRegister : Prop :=
  ∀ (s : State) (p : Int), s.phase = .idle → noMoveDue s.host = true → s.params.pinValid p = true →
    ∃ t1 t2 t3,
      (exec (.setDataPin p) s = .next t1 ∧
        step t1 = .next { s.afterReply okReply with
          cfg := { s.cfg with dataPin := p }
          env := s.env.keepVouch (premisesHold { s.cfg with dataPin := p } s.env)
          host := passTurn s.host }) ∧
      (exec (.setShiftPin p) s = .next t2 ∧
        step t2 = .next { s.afterReply okReply with
          cfg := { s.cfg with shiftClockPin := p }
          env := s.env.keepVouch (premisesHold { s.cfg with shiftClockPin := p } s.env)
          host := passTurn s.host }) ∧
      (exec (.setLatchPin p) s = .next t3 ∧
        step t3 = .next { s.afterReply okReply with
          cfg := { s.cfg with latchClockPin := p }
          env := s.env.keepVouch (premisesHold { s.cfg with latchClockPin := p } s.env)
          host := passTurn s.host })

/-- R104: SET_DEPTH with a legal depth rewrites the register and the shadow and runs a CLEAR transaction: `32n + 4` steps in
all (R252), also where the depth does not change. No reply is pending afterwards, which is the model's reading
(notes/assumptions/28.md); the environment starts from its vouch for the chain (notes/assumptions/8.md). -/
def Obligations.SetDepthCompletes : Prop :=
  ∀ (s : State) (n : Nat), s.phase = .idle → s.host = [] → 1 ≤ n → s.params.depthTooLarge (n : Int) = false →
    exec (.setDepth (n : Int)) s = .next { s with
        cfg := { s.cfg with chainDepth := n }
        shadow := zeros (8 * n)
        seq := txn s.cfg.dataPin s.cfg.shiftClockPin s.cfg.latchClockPin (zeros (8 * n))
        pendingReply := some { status := .ok, reason := .none, data := none }
        phase := .busy
        env := s.env.revouch { s.cfg with chainDepth := n } } ∧
    ∀ len, decode s.port = .cmd (.setDepth (n : Int)) len →
      steps (32 * n + 4) s = .next { s with
        port := s.port.drop len
        cfg := { s.cfg with chainDepth := n }
        shadow := zeros (8 * n)
        seq := []
        pendingReply := none
        trace := s.trace ++
          clearEvents s.cfg.dataPin s.cfg.shiftClockPin s.cfg.latchClockPin (8 * n) ++
            [.reply { status := .ok, reason := .none, data := none }]
        lastStatus := 0x00
        lastReason := 0x00
        env := (State.performAll { s with env := s.env.revouch { s.cfg with chainDepth := n } }
          (txn s.cfg.dataPin s.cfg.shiftClockPin s.cfg.latchClockPin (zeros (8 * n)))).env }

/-- 43_sequencer.md R168, with R163-R165: a shift command with payload `bits` is accepted and ends `4L + 4` steps after the
Idle state in which it is presented; the shadow, the trace and the environment are then as the rule says, and every other
register is as it was. -/
def Obligations.ShiftCommandsBigStep : Prop :=
  ∀ (s : State) (i : Instr) (bits : BitSequence), Inv s → s.phase = .idle → s.host = [] → ShiftsBits i bits →
    exec i s = .next (s.accepted (txn s.cfg.dataPin s.cfg.shiftClockPin s.cfg.latchClockPin bits)
      { status := .ok, reason := .none, data := none }) ∧
    ∀ len, decode s.port = .cmd i len →
      steps (4 * bits.length + 4) s = .next { s with
        port := s.port.drop len
        shadow := (s.shadow ++ bits).drop bits.length
        trace := s.trace ++ eventsOf (txn s.cfg.dataPin s.cfg.shiftClockPin s.cfg.latchClockPin bits) ++
          [.reply { status := .ok, reason := .none, data := none }]
        lastStatus := 0x00
        lastReason := 0x00
        env := (s.performAll (txn s.cfg.dataPin s.cfg.shiftClockPin s.cfg.latchClockPin bits)).env }

/-- R166: CLEAR is accepted and leaves a shadow of `8N` zeros whatever it was, with `24N + 2` pin writes, `32N + 4` steps
after it is presented. The environment starts from its vouch for the chain (notes/assumptions/8.md). -/
def Obligations.ClearCompletes : Prop :=
  ∀ s : State, Inv s → s.phase = .idle → s.host = [] →
    exec .clear s = .next { s.accepted
      (txn s.cfg.dataPin s.cfg.shiftClockPin s.cfg.latchClockPin (zeros (8 * s.cfg.chainDepth)))
      { status := .ok, reason := .none, data := none } with env := s.env.revouch s.cfg } ∧
    ∀ len, decode s.port = .cmd .clear len →
      steps (32 * s.cfg.chainDepth + 4) s = .next { s with
        port := s.port.drop len
        shadow := zeros (8 * s.cfg.chainDepth)
        trace := s.trace ++
          clearEvents s.cfg.dataPin s.cfg.shiftClockPin s.cfg.latchClockPin (8 * s.cfg.chainDepth) ++
            [.reply { status := .ok, reason := .none, data := none }]
        lastStatus := 0x00
        lastReason := 0x00
        env := (State.performAll { s with env := s.env.revouch s.cfg }
          (txn s.cfg.dataPin s.cfg.shiftClockPin s.cfg.latchClockPin (zeros (8 * s.cfg.chainDepth)))).env }

/-- 42_shadow.md R142, 20_memory.md R54: READ_STATE is accepted and replies in the next step with the shadow of the accepting
step; two of them with nothing between give the same reply; only the trace and the status registers change. -/
def Obligations.ReadStateReplies : Prop :=
  ∀ s : State, s.phase = .idle → s.host = [] → s.seq = [] → s.pendingReply = none →
    exec .readState s = .next (s.accepted [] { status := .ok, reason := .none, data := some s.shadow }) ∧
    ∀ rest, s.port = 0x13 :: rest →
      steps 2 s = .next { s with
        port := rest
        trace := s.trace ++ [.reply { status := .ok, reason := .none, data := some s.shadow }]
        lastStatus := 0x00
        lastReason := 0x00 } ∧
      ∀ rest', rest = 0x13 :: rest' →
        steps 4 s = .next { s with
          port := rest'
          trace := s.trace ++ [.reply { status := .ok, reason := .none, data := some s.shadow },
            .reply { status := .ok, reason := .none, data := some s.shadow }]
          lastStatus := 0x00
          lastReason := 0x00 }

/-- R170, 30_encoding.md R82: LATCH is SHIFT_BITS of the empty list, the frame 10 00 00 00 00, also in assembly, and its effect
is one latch pulse with the shadow unchanged. -/
def Obligations.LatchIsAnEmptyShift : Prop :=
  encode latch = [0x10, 0, 0, 0, 0] ∧
  Asm.line "LATCH".toList = .command latch ∧
  Asm.line "SHIFT_BITS []".toList = .command latch ∧
  ∀ s : State, s.phase = .idle →
    exec latch s = .next (s.accepted
      [.pinWrite s.cfg.latchClockPin .high, .pinWrite s.cfg.latchClockPin .low]
      { status := .ok, reason := .none, data := none })

/-! ### Shadow register and encoder -/

/-- 42_shadow.md R140: one FIFO step evicts the front, appends at the back, keeps the length and writes nothing else. -/
def Obligations.AdvanceIsOneFifoStep : Prop :=
  ∀ (s : State) (oldest b : Bit) (rest : List Bit), s.shadow = oldest :: rest →
    s.perform (.advance b) = { s with shadow := rest ++ [b] } ∧ (rest ++ [b]).length = s.shadow.length

/-- R141: the law of a sequence of advances, in its three forms, on a shadow of any length ≥ 1. -/
def Obligations.AdvanceSequenceLaw : Prop :=
  ∀ (shadow bits : List Bit), shadow ≠ [] →
    advanceAll shadow bits = (shadow ++ bits).drop bits.length ∧
    (bits.length ≤ shadow.length → advanceAll shadow bits = shadow.drop bits.length ++ bits) ∧
    (shadow.length < bits.length → advanceAll shadow bits = bits.drop (bits.length - shadow.length))

/-- 41_encoder.md R121: `encBits`, its length, its order, and exactly when it raises. -/
def Obligations.EncBitsLaw : Prop :=
  ∀ es : List Elem,
    (∀ bits, encBits es = .ok bits →
      bits.length = es.length ∧
      ∀ k (h : k < es.length) (h' : k < bits.length),
        (bits[k] = false ↔ es[k] = .int 0 ∨ es[k] = .bool false) ∧
        (bits[k] = true ↔ es[k] = .int 1 ∨ es[k] = .bool true)) ∧
    ((∀ e ∈ es, e = .int 0 ∨ e = .int 1 ∨ e = .bool false ∨ e = .bool true) → ∃ bits, encBits es = .ok bits) ∧
    ((∃ e ∈ es, ¬ (e = .int 0 ∨ e = .int 1 ∨ e = .bool false ∨ e = .bool true)) →
      encBits es = .error .elementNotBit)

/-- R122: `encInt` raises NEGATIVE_INTEGER on negative integers, gives `[0]` for 0, and otherwise the `bitlen(v)` bits of `v`,
most significant first; `bitlen(v)` is the least `k` with `v < 2^k` (00_scope.md R11). -/
def Obligations.EncIntLaw : Prop :=
  (∀ v : Int, v < 0 → encInt v = .error .negativeInteger) ∧
  encInt 0 = .ok [false] ∧
  ∀ v : Nat, 0 < v → ∃ bits, encInt (v : Int) = .ok bits ∧ bits.length = bitlen v ∧
    (v < 2 ^ bitlen v ∧ ∀ k, v < 2 ^ k → bitlen v ≤ k) ∧
    ∀ j (h : j < bits.length), bits[j] = v.testBit (bitlen v - 1 - j)

/-- R125: the five integer laws of the encoder. -/
def Obligations.EncIntIntegerLaws : Prop :=
  (∀ v : Nat, ∃ bits, encInt (v : Int) = .ok bits ∧ bitsValue bits = v) ∧
  (∀ v : Nat, 0 < v → ∃ rest, encInt (v : Int) = .ok (true :: rest)) ∧
  (∀ v w : Nat, encInt (v : Int) = encInt (w : Int) → v = w) ∧
  (∀ (v : Nat) (bits : BitSequence), bitsValue bits = v →
    (bits.head? = some true ∨ (v = 0 ∧ bits = [false])) → encInt (v : Int) = .ok bits) ∧
  (∀ v : Nat, 0 < v → bitlen v = Nat.log2 v + 1) ∧
  (∀ bits : BitSequence, (bitsValue bits : Nat) =
    ((List.range bits.length).map fun i => (if bits.getD i false then 1 else 0) * 2 ^ (bits.length - 1 - i)).sum)

/-- R123: `encBool` gives one bit and never fails. -/
def Obligations.EncBoolLaw : Prop :=
  encBool true = .ok [true] ∧ encBool false = .ok [false]

/-! ### The transaction -/

/-- 43_sequencer.md R160, R162: the action list of a transaction, place by place. Each bit in order gives its data write, its
Advance, and one shift-clock pulse; the last two actions are the one latch pulse, and nothing follows. -/
def Obligations.TransactionOrder : Prop :=
  ∀ (d s l : PinId) (bits : BitSequence),
    (∀ k (h : k < bits.length),
      (txn d s l bits)[4 * k]? = some (.pinWrite d (if bits[k] then .high else .low)) ∧
      (txn d s l bits)[4 * k + 1]? = some (.advance bits[k]) ∧
      (txn d s l bits)[4 * k + 2]? = some (.pinWrite s .high) ∧
      (txn d s l bits)[4 * k + 3]? = some (.pinWrite s .low)) ∧
    (txn d s l bits)[4 * bits.length]? = some (.pinWrite l .high) ∧
    (txn d s l bits)[4 * bits.length + 1]? = some (.pinWrite l .low) ∧
    (txn d s l bits)[4 * bits.length + 2]? = none

/-- R169: `4L + 2` actions, `3L + 2` of them pin writes and `L` Advances; on three different pins, `L` shift-clock pulses and
one latch pulse. -/
def Obligations.TransactionCounts : Prop :=
  ∀ (d s l : PinId) (bits : BitSequence),
    (txn d s l bits).length = 4 * bits.length + 2 ∧
    (eventsOf (txn d s l bits)).length = 3 * bits.length + 2 ∧
    bitsOf (txn d s l bits) = bits ∧
    (d ≠ s → d ≠ l → s ≠ l →
      (txn d s l bits).count (.pinWrite s .high) = bits.length ∧
      (txn d s l bits).count (.pinWrite s .low) = bits.length ∧
      (txn d s l bits).count (.pinWrite l .high) = 1 ∧
      (txn d s l bits).count (.pinWrite l .low) = 1)

/-- R252: the number of actions an accepted command queues. With `BusyWaitEnds` this gives the steps of the table. -/
def Obligations.ActionCounts : Prop :=
  ∀ (i : Instr) (s t : State), s.phase ≠ .busy → exec i s = .next t → t.phase = .busy →
    match i with
    | .init _ _ _ n => (t.seq.length : Int) = 32 * n + 5 ∧ ((eventsOf t.seq).length : Int) = 24 * n + 5
    | .setDataPin _ => t.seq.length = 0
    | .setShiftPin _ => t.seq.length = 0
    | .setLatchPin _ => t.seq.length = 0
    | .setDepth n => (t.seq.length : Int) = 32 * n + 2 ∧ ((eventsOf t.seq).length : Int) = 24 * n + 2
    | .shiftBits es => t.seq.length = 4 * es.length + 2 ∧ (eventsOf t.seq).length = 3 * es.length + 2
    | .shiftInt v => ∃ bits, encInt v = .ok bits ∧ t.seq.length = 4 * bits.length + 2 ∧
        (eventsOf t.seq).length = 3 * bits.length + 2
    | .shiftBool _ => t.seq.length = 6 ∧ (eventsOf t.seq).length = 5
    | .readState => t.seq.length = 0
    | .clear => t.seq.length = 32 * s.cfg.chainDepth + 2 ∧ (eventsOf t.seq).length = 24 * s.cfg.chainDepth + 2

/-- R167: the levels last driven after a transaction on three different pins. -/
def Obligations.LineLevelsAfterTransaction : Prop :=
  ∀ (st : State) (d s l : PinId) (bits : BitSequence), d ≠ s → d ≠ l → s ≠ l →
    (st.performAll (txn d s l bits)).drv l = some .low ∧
    (bits = [] → (st.performAll (txn d s l bits)).drv d = st.drv d ∧
      (st.performAll (txn d s l bits)).drv s = st.drv s) ∧
    (∀ init b, bits = init ++ [b] →
      (st.performAll (txn d s l bits)).drv d = some (if b then .high else .low) ∧
      (st.performAll (txn d s l bits)).drv s = some .low) ∧
    ∀ p, p ≠ d → p ≠ s → p ≠ l → (st.performAll (txn d s l bits)).drv p = st.drv p

/-! ### Frames and invariants -/

/-- 10_state.md R22, R24, R25, R29: what the accepting or rejecting step of each command leaves unchanged. CR0-CR2 are written
only by INIT and their own setter, CR3 and the whole shadow only by INIT and SET_DEPTH; the port, the parameters, the lines,
the size and the wiring of the chain and the host's schedule by none. The content of the chain changes only where a command
ends the vouch for it (R233, notes/assumptions/8.md), which no shift command and no READ_STATE does. -/
def Obligations.CommandFrame : Prop :=
  ∀ (i : Instr) (s t : State), exec i s = .next t →
    t.port = s.port ∧ t.params = s.params ∧ t.host = s.host ∧ t.dropped = s.dropped ∧
    t.env.lines = s.env.lines ∧ t.env.fault = s.env.fault ∧ t.env.givenLevels = s.env.givenLevels ∧
    t.env.chain.chips = s.env.chain.chips ∧ t.env.chain.serPin = s.env.chain.serPin ∧
    t.env.chain.srclkPin = s.env.chain.srclkPin ∧ t.env.chain.rclkPin = s.env.chain.rclkPin ∧
    (t.env.standing ≠ .failed → t.env.chain = s.env.chain) ∧
    (∀ es v b, i = .shiftBits es ∨ i = .shiftInt v ∨ i = .shiftBool b ∨ i = .readState ∨ t.phase ≠ .busy →
      t.env = s.env) ∧
    (isInit i = false → (∀ p, i ≠ .setDataPin p) → t.cfg.dataPin = s.cfg.dataPin) ∧
    (isInit i = false → (∀ p, i ≠ .setShiftPin p) → t.cfg.shiftClockPin = s.cfg.shiftClockPin) ∧
    (isInit i = false → (∀ p, i ≠ .setLatchPin p) → t.cfg.latchClockPin = s.cfg.latchClockPin) ∧
    (isInit i = false → (∀ n, i ≠ .setDepth n) → t.cfg.chainDepth = s.cfg.chainDepth ∧ t.shadow = s.shadow) ∧
    (t.trace = s.trace ∨ ∃ r, t.trace = s.trace ++ [.reply r])

/-- 20_memory.md R59 items 4 and 5, R62, 10_state.md R25: while a command is in progress, a step of the block leaves the
configuration, the parameters, the port and the status registers alone until the reply; the shadow changes only by an
Advance, and the environment only by a pin action. -/
def Obligations.SequencerFrame : Prop :=
  ∀ s t : State, s.phase = .busy → noMoveDue s.host = true → step s = .next t →
    t.cfg = s.cfg ∧ t.params = s.params ∧ t.port = s.port ∧ t.dropped = s.dropped ∧
    (s.seq ≠ [] → t.lastStatus = s.lastStatus ∧ t.lastReason = s.lastReason ∧ t.pendingReply = s.pendingReply ∧
      t.phase = .busy) ∧
    ((∀ b rest, s.seq ≠ .advance b :: rest) → t.shadow = s.shadow) ∧
    ((∀ p rest, s.seq ≠ .pinConfigOut p :: rest) → (∀ p lvl rest, s.seq ≠ .pinWrite p lvl :: rest) → t.env = s.env)

/-- 00_scope.md R7: no step changes PIN_VALID or N_MAX, not even the reset input (that they stay through it is the model's
choice, notes/assumptions/12.md). That N_PHYS never changes in a run, and the wiring by the move `rewire` alone, is the model's
choice too (notes/assumptions/25.md). -/
def Obligations.ParametersNeverChange : Prop :=
  ∀ s t : State, step s = .next t →
    t.params = s.params ∧ t.env.chain.chips = s.env.chain.chips ∧
    ((∀ ser srclk rclk rest, s.host ≠ { after := 0, act := .rewire ser srclk rclk } :: rest) →
      t.env.chain.serPin = s.env.chain.serPin ∧ t.env.chain.srclkPin = s.env.chain.srclkPin ∧
        t.env.chain.rclkPin = s.env.chain.rclkPin)

/-- 60_exceptions.md R221, R223: the environment fault is never cleared, and a pin once configured stays configured. -/
def Obligations.EnvironmentFaultIsNeverCleared : Prop :=
  ∀ s t : State, step s = .next t →
    (∀ f, s.env.fault = some f → t.env.fault = some f) ∧
    ∀ p, s.env.configured p = true → t.env.configured p = true

/-- 10_state.md R33: but for the reset input, a step only appends to the trace, and at most one event. -/
def Obligations.TraceIsAppendOnly : Prop :=
  ∀ s t : State, step s = .next t → (∀ rest, s.host ≠ { after := 0, act := .assertReset } :: rest) →
    t.trace = s.trace ∨ ∃ e, t.trace = s.trace ++ [e]

/-- R36, R23, R26, R29: the state after power-on meets the invariant, and the mirror property so far as it is vouched for, which
before an INIT it is not (notes/assumptions/8.md). -/
def Obligations.ResetMeetsInvariant : Prop :=
  Inv State.reset ∧ WillMirror State.reset

/-- R23, R26, R29, R30, R50, R201, R226: every step keeps the invariant, from every state that meets it, whatever is at the
port and whatever the host does. Three parts of the invariant are the model's own: no reply is pending unless the block is Busy
(notes/assumptions/28.md), the lines are in canonical form (notes/assumptions/24.md), and the chain is vouched for only while
the premises of R232 hold and a constructed block's chain is no fresh one (notes/assumptions/8.md). -/
def Obligations.StepKeepsInvariant : Prop :=
  ∀ s t : State, Inv s → step s = .next t → Inv t

/-- R36: power-on. CR0-CR3 and the shadow have no value in the spec and the chain's content is a draw, so nothing is said of
them. -/
def Obligations.PowerOnState : Prop :=
  State.reset.phase = .unconstructed ∧ State.reset.seq = [] ∧ State.reset.pendingReply = none ∧
    State.reset.lastStatus = 0x00 ∧ State.reset.lastReason = 0x00 ∧ State.reset.ready = true ∧
    State.reset.trace = [] ∧ ∀ p, State.reset.drv p = none ∧ State.reset.env.configured p = false

/-- R38, R36: the reset input gives every register its power-on value in one step from any state, Busy too; the rest of the
action list is not performed and no pin event is emitted; the lines keep what they have, and the content of the chain is a draw
(R36): in mid-command until the next INIT (93_implementation_defined.md U15), otherwise a draw from which it follows R227-R230
again (the standing that says so is the model's own, notes/assumptions/8.md). The values of the configuration and the shadow, to which R36 gives none, are the
model's choice (notes/assumptions/3.md), and so is that bytes at the port stay (notes/assumptions/12.md). A command in progress
is left without its reply (R245, notes/assumptions/9.md). -/
def Obligations.ResetInput : Prop :=
  ∀ (s : State) (rest : List HostMove), s.host = { after := 0, act := .assertReset } :: rest →
    ∃ t, step s = .next t ∧ t.phase = .unconstructed ∧ t.seq = [] ∧ t.pendingReply = none ∧
      t.lastStatus = 0x00 ∧ t.lastReason = 0x00 ∧ t.ready = true ∧ t.trace = [] ∧
      t.cfg = State.reset.cfg ∧ t.shadow = State.reset.shadow ∧
      t.env.lines = s.env.lines ∧ t.env.fault = s.env.fault ∧ t.env.givenLevels = s.env.givenLevels ∧
      t.env.chain.chips = s.env.chain.chips ∧ t.env.chain.serPin = s.env.chain.serPin ∧
      t.env.chain.srclkPin = s.env.chain.srclkPin ∧ t.env.chain.rclkPin = s.env.chain.rclkPin ∧
      t.env.chain.stages = (List.range s.env.chain.stages.length).map (Config.openStage s.env.draws) ∧
      t.env.chain.storage = (List.range s.env.chain.storage.length).map (Config.openStorage s.env.draws) ∧
      (s.phase = .busy → t.env.standing = .failed) ∧ (s.phase = .idle → t.env.standing = .fresh) ∧
      (s.phase = .unconstructed → t.env.standing = s.env.standing) ∧
      t.port = s.port ∧ t.params = s.params ∧ t.host = rest ∧
      (s.phase = .busy → t.dropped = s.dropped + 1) ∧ (s.phase ≠ .busy → t.dropped = s.dropped)

/-! ### The environment -/

/-- 60_exceptions.md R227, where no premise of R232 has failed (R233, notes/assumptions/8.md), before the first INIT too: a write
that takes the shift-clock line from low to high shifts the level of the serial line into stage 0, the last bit leaves the
chain, and the storage does not change. If the serial pin is not configured the entering bit is a draw. A configuration event
that draws high for a low line is an edge as well. -/
def Obligations.ShiftEdgeSamplesSerialLine : Prop :=
  ∀ e : Env, e.standing ≠ .failed → e.fault = none →
    e.chain.serPin ≠ e.chain.srclkPin → e.chain.srclkPin ≠ e.chain.rclkPin →
    lineLevel e.lines e.chain.srclkPin = some .low →
    (∀ lvl, lineLevel e.lines e.chain.serPin = some lvl →
      (e.write e.chain.srclkPin .high).chain =
        { e.chain with stages := bitOf lvl :: e.chain.stages.take (8 * e.chain.chips - 1) } ∧
      (e.standing = .fresh → (e.drawLevel e.chain.srclkPin).1 = .high →
        (e.configure e.chain.srclkPin).chain =
          { e.chain with stages := bitOf lvl :: e.chain.stages.take (8 * e.chain.chips - 1) })) ∧
    (lineLevel e.lines e.chain.serPin = none →
      (e.write e.chain.srclkPin .high).chain =
        { e.chain with stages := Config.enteringBit e.draws :: e.chain.stages.take (8 * e.chain.chips - 1) } ∧
      e.draws < (e.write e.chain.srclkPin .high).draws)

/-- R229, where no premise of R232 has failed (R233, notes/assumptions/8.md), before the first INIT too: a write that takes the
latch-clock line from low to high copies all stages into the storage, and the stages do not change. A configuration event that
draws high for a low line is an edge as well. -/
def Obligations.LatchEdgeCopiesStages : Prop :=
  ∀ e : Env, e.standing ≠ .failed → e.fault = none → e.chain.srclkPin ≠ e.chain.rclkPin →
    lineLevel e.lines e.chain.rclkPin = some .low →
    (e.write e.chain.rclkPin .high).chain = { e.chain with storage := e.chain.stages } ∧
    (e.standing = .fresh → (e.drawLevel e.chain.rclkPin).1 = .high →
      (e.configure e.chain.rclkPin).chain = { e.chain with storage := e.chain.stages })

/-- R230, where no premise of R232 has failed (R233, notes/assumptions/8.md), before the first INIT too: a write that takes a line
from high to low or leaves its level, and any write to a line that is neither clock, leaves the chain as it is. So does a
configuration event that draws low or is on no clock; and one on a line that was not low, where no premise is in force yet. That
a first level is no change from low is the model's reading, which R233's examples bear out (notes/assumptions/8.md). -/
def Obligations.NoRisingClockNoChange : Prop :=
  ∀ (e : Env) (p : PinId), e.standing ≠ .failed → e.fault = none →
    (∀ lvl, e.configured p = true →
      (lvl = .low ∨ lineLevel e.lines p = some lvl ∨ (p ≠ e.chain.srclkPin ∧ p ≠ e.chain.rclkPin)) →
      (e.write p lvl).chain = e.chain) ∧
    ((e.drawLevel p).1 = .low ∨ (p ≠ e.chain.srclkPin ∧ p ≠ e.chain.rclkPin) →
      (e.configure p).chain = e.chain) ∧
    (e.standing = .fresh → lineLevel e.lines p ≠ some .low → (e.configure p).chain = e.chain)

/-- R222: with no environment fault, a write to a configured pin sets its line, changes no other line, configures nothing and
raises nothing. -/
def Obligations.ConfiguredWriteSetsTheLine : Prop :=
  ∀ (e : Env) (p : PinId) (lvl : Level), e.fault = none → e.configured p = true →
    lineLevel (e.write p lvl).lines p = some lvl ∧
    (∀ q, q ≠ p → lineLevel (e.write p lvl).lines q = lineLevel e.lines q) ∧
    (e.write p lvl).fault = none

/-- R221: configuring a pin adds it to `configured` and gives its line a drawn level; no other line changes and no fault is
raised. That the draw is a given level as long as the state gives one, and after that an opaque constant at the number of draws
so far, is the model's own (notes/assumptions/6.md). -/
def Obligations.ConfigureDrawsTheLevel : Prop :=
  ∀ (e : Env) (p : PinId), e.fault = none →
    (e.configure p).configured p = true ∧
    (∀ lvl rest, e.givenLevels = lvl :: rest →
      lineLevel (e.configure p).lines p = some lvl ∧ (e.configure p).givenLevels = rest) ∧
    (e.givenLevels = [] →
      lineLevel (e.configure p).lines p = some (Config.initLevel e.draws p) ∧ e.draws < (e.configure p).draws ∧
        (e.configure p).givenLevels = []) ∧
    (∀ q, q ≠ p → lineLevel (e.configure p).lines q = lineLevel e.lines q) ∧
    (e.configure p).fault = none

/-- R223: a write to a pin that is not configured is recorded in the trace as usual and puts the environment in its fault; the
block's own state is otherwise unaffected and the pin stays unconfigured. The level of every line and the whole chain are then
draws, opaque values at a fresh number, since every claim about them takes the absence of the fault as a premise
(notes/assumptions/7.md). -/
def Obligations.UnconfiguredWriteFaultsTheEnvironment : Prop :=
  ∀ (s : State) (p : PinId) (lvl : Level), s.env.configured p = false → s.env.fault = none →
    ∃ e k, s.perform (.pinWrite p lvl) = { s with trace := s.trace ++ [.write p lvl], env := e } ∧
      e.fault = some (.unconfiguredPinWrite p) ∧ e.standing = .failed ∧ (∀ q, e.configured q = s.env.configured q) ∧
      s.env.draws ≤ k ∧ k < e.draws ∧ e.lines = (s.env.lines.map fun x => (x.1, Config.openLevel k x.1)) ∧
      e.chain.stages = (List.range s.env.chain.stages.length).map (Config.openStage k) ∧
      e.chain.storage = (List.range s.env.chain.storage.length).map (Config.openStorage k)

/-- What the chain holds before an INIT and after a failed premise; that the state keeps account of the premises of R232, in the
field `standing`, is the model's own (notes/assumptions/8.md).
First, R36 and R226-R230: until an INIT is accepted no premise speaks of the chain (R232, "after such an INIT"), so a step fails
none, unless the environment enters its fault (R223). A step of the block leaves the environment as it is, and a move of the host
does what the collaborator's operation does and no more.
Second, R233 and 93_implementation_defined.md U13-U15: a step in which a premise fails, and every later change of the chain until
it is vouched for again, leaves its whole content a fresh draw: opaque values that no earlier step has drawn.
Third, R233's first two examples: a clock that a configuration event draws high (premise ClocksStartLow) is such a failure. -/
def Obligations.UnvouchedChainIsADraw : Prop :=
  (∀ s t : State, s.phase = .unconstructed → s.env.standing = .fresh → step s = .next t → t.phase = .unconstructed →
    t.env.fault = none →
    t.env.standing = .fresh ∧ (noMoveDue s.host = true → t.env = s.env) ∧
    (∀ p rest, s.host = { after := 0, act := .configurePin p } :: rest →
      t.env = (s.env.drawLevel p).2.setLine p (s.env.drawLevel p).1) ∧
    (∀ p lvl rest, s.host = { after := 0, act := .writePin p lvl } :: rest → t.env = s.env.setLine p lvl)) ∧
  (∀ s t : State, step s = .next t → t.env.standing = .failed →
    (s.env.standing ≠ .failed ∨ t.env.chain ≠ s.env.chain) →
    ∃ k, s.env.draws ≤ k ∧ k < t.env.draws ∧
      t.env.chain.stages = (List.range t.env.chain.stages.length).map (Config.openStage k) ∧
      t.env.chain.storage = (List.range t.env.chain.storage.length).map (Config.openStorage k)) ∧
  ∀ (e : Env) (p : PinId), e.standing = .vouched → p = e.chain.srclkPin ∨ p = e.chain.rclkPin →
    (e.drawLevel p).1 = .high →
    (e.configure p).standing = .failed ∧
    ∃ k, e.draws ≤ k ∧ k < (e.configure p).draws ∧
      (e.configure p).chain.stages = (List.range (e.configure p).chain.stages.length).map (Config.openStage k) ∧
      (e.configure p).chain.storage = (List.range (e.configure p).chain.storage.length).map (Config.openStorage k)

/-- 70_reset_and_hazards.md R250: during the shift phase of a transaction the storage, and so every parallel output, still
shows the state latched before, where the premises of R232 have held (R233; the standing is notes/assumptions/8.md). -/
def Obligations.OutputsChangeOnlyAtTheLatchPulse : Prop :=
  ∀ (s : State) (bits : BitSequence) (k : Nat), MirrorPremises s → s.env.standing = .vouched →
    s.env.configured s.cfg.dataPin = true → s.env.configured s.cfg.shiftClockPin = true → k ≤ 4 * bits.length →
    (s.performAll ((txn s.cfg.dataPin s.cfg.shiftClockPin s.cfg.latchClockPin bits).take k)).env.chain.storage =
      s.env.chain.storage

/-- 60_exceptions.md R232 (proof sketch items 1-3), R243: INIT under the premises leaves the block Idle, the chain all zeros
whatever it held before, the mirror property true and the chain vouched for. Premise ClocksStartLow is that the second and the
third given level are low, which is the model's way to say it (notes/assumptions/6.md); that the chain is vouched for is the
model's own clause (notes/assumptions/8.md). -/
def Obligations.InitEstablishesTheMirror : Prop :=
  ∀ (st : State) (d s l : Int) (n len : Nat) (lvl : Level) (rest : List Level),
    Inv st → st.phase ≠ .busy → st.host = [] → decode st.port = .cmd (.init d s l (n : Int)) len →
    st.params.pinValid d = true → st.params.pinValid s = true → st.params.pinValid l = true →
    1 ≤ n → st.params.depthTooLarge (n : Int) = false →
    st.env.chain.chips = n → st.env.chain.serPin = d → st.env.chain.srclkPin = s → st.env.chain.rclkPin = l →
    d ≠ s → d ≠ l → s ≠ l → st.env.fault = none → st.env.givenLevels = lvl :: .low :: .low :: rest →
    ∃ t, steps (32 * n + 7) st = .next t ∧ t.phase = .idle ∧ MirrorPremises t ∧ Mirrored t ∧ t.env.standing = .vouched ∧
      t.env.chain.stages = zeros (8 * n) ∧ t.env.chain.storage = zeros (8 * n)

/-- 42_shadow.md R143, 70_reset_and_hazards.md R247, R249: a CLEAR that runs with the premises holding and both clocks low brings
chain and shadow together again, whatever the chain held and whichever premise had failed before, but for NoEnvFault, which
fails for good (60_exceptions.md R223); so does a SET_DEPTH to the depth that is wired, whose tail is a CLEAR. That it asks for a
configured data line too, without which the CLEAR would meet R223, and that the chain is vouched for afterwards, are the model's
own (notes/assumptions/8.md). -/
def Obligations.ClearRestoresTheMirror : Prop :=
  ∀ (s : State) (i : Instr) (n len : Nat), Inv s → s.phase = .idle → s.host = [] → decode s.port = .cmd i len →
    (i = .clear ∧ n = s.cfg.chainDepth ∨
      i = .setDepth (n : Int) ∧ 1 ≤ n ∧ s.params.depthTooLarge (n : Int) = false) →
    premisesHold { s.cfg with chainDepth := n } s.env = true → clearReady s.cfg s.env = true →
    ∃ t, steps (32 * n + 4) s = .next t ∧ t.phase = .idle ∧ MirrorPremises t ∧ Mirrored t ∧ t.env.standing = .vouched ∧
      t.env.chain.stages = zeros (8 * n) ∧ t.env.chain.storage = zeros (8 * n)

/-- 60_exceptions.md R232: as long as the premises hold the chain stays vouched for. The premises about a state are
MirrorPremises after the step; DisjointPins, NoMidReset and no rewiring are HostSparesRoles; and a clock that the block configures
in the step shows low. The standing itself is the model's own (notes/assumptions/8.md). -/
def Obligations.PremisesKeepTheVouch : Prop :=
  ∀ s t : State, step s = .next t → s.env.standing = .vouched → MirrorPremises s → MirrorPremises t → HostSparesRoles s →
    ClocksStartLow s t → t.env.standing = .vouched

/-- R232 (proof sketch items 4-6): every step keeps the mirror property, in the form "where the chain is still vouched for once
the rest of the action list is performed, it mirrors the shadow then, whatever other agents do to other pins meanwhile". There
is no further premise: any command may be run, INIT too, and the host may make any move. At a command boundary the action list is
empty, and a chain that is vouched for mirrors the shadow then and there. The vouch is the model's own account of the premises
(notes/assumptions/8.md). -/
def Obligations.StepKeepsTheMirror : Prop :=
  (∀ s t : State, Inv s → WillMirror s → step s = .next t → WillMirror t) ∧
  ∀ s : State, s.seq = [] → WillMirror s → s.env.standing = .vouched →
    s.env.chain.stages = s.shadow.reverse ∧ s.env.chain.storage = s.env.chain.stages
end

