-- ==== Sys2Proof/Laws/State.lean ====
section
/-! SUPPORT. What each named update of the state leaves in each field: true by computation, so that no later proof unfolds a
record update. -/

namespace Sys2Proof.Laws

open Sys2Proof.Machine

/-! ### `State.writeStatus` -/

@[simp] theorem writeStatus_phase (st : Status) (rs : Reason) (s : State) : (s.writeStatus st rs).phase = s.phase := rfl
@[simp] theorem writeStatus_cfg (st : Status) (rs : Reason) (s : State) : (s.writeStatus st rs).cfg = s.cfg := rfl
@[simp] theorem writeStatus_shadow (st : Status) (rs : Reason) (s : State) : (s.writeStatus st rs).shadow = s.shadow := rfl
@[simp] theorem writeStatus_lastStatus (st : Status) (rs : Reason) (s : State) : (s.writeStatus st rs).lastStatus = st.code := rfl
@[simp] theorem writeStatus_lastReason (st : Status) (rs : Reason) (s : State) : (s.writeStatus st rs).lastReason = rs.code := rfl
@[simp] theorem writeStatus_seq (st : Status) (rs : Reason) (s : State) : (s.writeStatus st rs).seq = s.seq := rfl
@[simp] theorem writeStatus_pendingReply (st : Status) (rs : Reason) (s : State) : (s.writeStatus st rs).pendingReply = s.pendingReply := rfl
@[simp] theorem writeStatus_trace (st : Status) (rs : Reason) (s : State) : (s.writeStatus st rs).trace = s.trace := rfl
@[simp] theorem writeStatus_port (st : Status) (rs : Reason) (s : State) : (s.writeStatus st rs).port = s.port := rfl
@[simp] theorem writeStatus_params (st : Status) (rs : Reason) (s : State) : (s.writeStatus st rs).params = s.params := rfl
@[simp] theorem writeStatus_env (st : Status) (rs : Reason) (s : State) : (s.writeStatus st rs).env = s.env := rfl
@[simp] theorem writeStatus_host (st : Status) (rs : Reason) (s : State) : (s.writeStatus st rs).host = s.host := rfl
@[simp] theorem writeStatus_dropped (st : Status) (rs : Reason) (s : State) : (s.writeStatus st rs).dropped = s.dropped := rfl

/-! ### `State.deliver` -/

@[simp] theorem deliver_phase (r : Reply) (s : State) : (s.deliver r).phase = s.phase := rfl
@[simp] theorem deliver_cfg (r : Reply) (s : State) : (s.deliver r).cfg = s.cfg := rfl
@[simp] theorem deliver_shadow (r : Reply) (s : State) : (s.deliver r).shadow = s.shadow := rfl
@[simp] theorem deliver_lastStatus (r : Reply) (s : State) : (s.deliver r).lastStatus = r.status.code := rfl
@[simp] theorem deliver_lastReason (r : Reply) (s : State) : (s.deliver r).lastReason = r.reason.code := rfl
@[simp] theorem deliver_seq (r : Reply) (s : State) : (s.deliver r).seq = s.seq := rfl
@[simp] theorem deliver_pendingReply (r : Reply) (s : State) : (s.deliver r).pendingReply = s.pendingReply := rfl
@[simp] theorem deliver_trace (r : Reply) (s : State) : (s.deliver r).trace = s.trace ++ [.reply r] := rfl
@[simp] theorem deliver_port (r : Reply) (s : State) : (s.deliver r).port = s.port := rfl
@[simp] theorem deliver_params (r : Reply) (s : State) : (s.deliver r).params = s.params := rfl
@[simp] theorem deliver_env (r : Reply) (s : State) : (s.deliver r).env = s.env := rfl
@[simp] theorem deliver_host (r : Reply) (s : State) : (s.deliver r).host = s.host := rfl
@[simp] theorem deliver_dropped (r : Reply) (s : State) : (s.deliver r).dropped = s.dropped := rfl

/-! ### `State.reject` -/

@[simp] theorem reject_phase (st : Status) (rs : Reason) (s : State) : (s.reject st rs).phase = s.phase := rfl
@[simp] theorem reject_cfg (st : Status) (rs : Reason) (s : State) : (s.reject st rs).cfg = s.cfg := rfl
@[simp] theorem reject_shadow (st : Status) (rs : Reason) (s : State) : (s.reject st rs).shadow = s.shadow := rfl
@[simp] theorem reject_lastStatus (st : Status) (rs : Reason) (s : State) : (s.reject st rs).lastStatus = st.code := rfl
@[simp] theorem reject_lastReason (st : Status) (rs : Reason) (s : State) : (s.reject st rs).lastReason = rs.code := rfl
@[simp] theorem reject_seq (st : Status) (rs : Reason) (s : State) : (s.reject st rs).seq = s.seq := rfl
@[simp] theorem reject_pendingReply (st : Status) (rs : Reason) (s : State) : (s.reject st rs).pendingReply = s.pendingReply := rfl
@[simp] theorem reject_trace (st : Status) (rs : Reason) (s : State) : (s.reject st rs).trace = s.trace ++ [.reply { status := st, reason := rs, data := none }] := rfl
@[simp] theorem reject_port (st : Status) (rs : Reason) (s : State) : (s.reject st rs).port = s.port := rfl
@[simp] theorem reject_params (st : Status) (rs : Reason) (s : State) : (s.reject st rs).params = s.params := rfl
@[simp] theorem reject_env (st : Status) (rs : Reason) (s : State) : (s.reject st rs).env = s.env := rfl
@[simp] theorem reject_host (st : Status) (rs : Reason) (s : State) : (s.reject st rs).host = s.host := rfl
@[simp] theorem reject_dropped (st : Status) (rs : Reason) (s : State) : (s.reject st rs).dropped = s.dropped := rfl

/-! ### `State.accept` -/

@[simp] theorem accept_phase (acts : List Action) (r : Reply) (s : State) : (s.accept acts r).phase = .busy := rfl
@[simp] theorem accept_cfg (acts : List Action) (r : Reply) (s : State) : (s.accept acts r).cfg = s.cfg := rfl
@[simp] theorem accept_shadow (acts : List Action) (r : Reply) (s : State) : (s.accept acts r).shadow = s.shadow := rfl
@[simp] theorem accept_lastStatus (acts : List Action) (r : Reply) (s : State) : (s.accept acts r).lastStatus = s.lastStatus := rfl
@[simp] theorem accept_lastReason (acts : List Action) (r : Reply) (s : State) : (s.accept acts r).lastReason = s.lastReason := rfl
@[simp] theorem accept_seq (acts : List Action) (r : Reply) (s : State) : (s.accept acts r).seq = acts := rfl
@[simp] theorem accept_pendingReply (acts : List Action) (r : Reply) (s : State) : (s.accept acts r).pendingReply = some r := rfl
@[simp] theorem accept_trace (acts : List Action) (r : Reply) (s : State) : (s.accept acts r).trace = s.trace := rfl
@[simp] theorem accept_port (acts : List Action) (r : Reply) (s : State) : (s.accept acts r).port = s.port := rfl
@[simp] theorem accept_params (acts : List Action) (r : Reply) (s : State) : (s.accept acts r).params = s.params := rfl
@[simp] theorem accept_env (acts : List Action) (r : Reply) (s : State) : (s.accept acts r).env = s.env := rfl
@[simp] theorem accept_host (acts : List Action) (r : Reply) (s : State) : (s.accept acts r).host = s.host := rfl
@[simp] theorem accept_dropped (acts : List Action) (r : Reply) (s : State) : (s.accept acts r).dropped = s.dropped := rfl

/-! ### `State.complete` -/

@[simp] theorem complete_phase (r : Reply) (s : State) : (s.complete r).phase = .idle := rfl
@[simp] theorem complete_cfg (r : Reply) (s : State) : (s.complete r).cfg = s.cfg := rfl
@[simp] theorem complete_shadow (r : Reply) (s : State) : (s.complete r).shadow = s.shadow := rfl
@[simp] theorem complete_lastStatus (r : Reply) (s : State) : (s.complete r).lastStatus = r.status.code := rfl
@[simp] theorem complete_lastReason (r : Reply) (s : State) : (s.complete r).lastReason = r.reason.code := rfl
@[simp] theorem complete_seq (r : Reply) (s : State) : (s.complete r).seq = s.seq := rfl
@[simp] theorem complete_pendingReply (r : Reply) (s : State) : (s.complete r).pendingReply = none := rfl
@[simp] theorem complete_trace (r : Reply) (s : State) : (s.complete r).trace = s.trace ++ [.reply r] := rfl
@[simp] theorem complete_port (r : Reply) (s : State) : (s.complete r).port = s.port := rfl
@[simp] theorem complete_params (r : Reply) (s : State) : (s.complete r).params = s.params := rfl
@[simp] theorem complete_env (r : Reply) (s : State) : (s.complete r).env = s.env := rfl
@[simp] theorem complete_host (r : Reply) (s : State) : (s.complete r).host = s.host := rfl
@[simp] theorem complete_dropped (r : Reply) (s : State) : (s.complete r).dropped = s.dropped := rfl

/-! ### `State.consume` -/

@[simp] theorem consume_phase (n : Nat) (s : State) : (s.consume n).phase = s.phase := rfl
@[simp] theorem consume_cfg (n : Nat) (s : State) : (s.consume n).cfg = s.cfg := rfl
@[simp] theorem consume_shadow (n : Nat) (s : State) : (s.consume n).shadow = s.shadow := rfl
@[simp] theorem consume_lastStatus (n : Nat) (s : State) : (s.consume n).lastStatus = s.lastStatus := rfl
@[simp] theorem consume_lastReason (n : Nat) (s : State) : (s.consume n).lastReason = s.lastReason := rfl
@[simp] theorem consume_seq (n : Nat) (s : State) : (s.consume n).seq = s.seq := rfl
@[simp] theorem consume_pendingReply (n : Nat) (s : State) : (s.consume n).pendingReply = s.pendingReply := rfl
@[simp] theorem consume_trace (n : Nat) (s : State) : (s.consume n).trace = s.trace := rfl
@[simp] theorem consume_port (n : Nat) (s : State) : (s.consume n).port = s.port.drop n := rfl
@[simp] theorem consume_params (n : Nat) (s : State) : (s.consume n).params = s.params := rfl
@[simp] theorem consume_env (n : Nat) (s : State) : (s.consume n).env = s.env := rfl
@[simp] theorem consume_host (n : Nat) (s : State) : (s.consume n).host = s.host := rfl
@[simp] theorem consume_dropped (n : Nat) (s : State) : (s.consume n).dropped = s.dropped := rfl

/-! ### `State.replaceConfig` -/

@[simp] theorem replaceConfig_phase (c : Configuration) (s : State) : (s.replaceConfig c).phase = .busy := rfl
@[simp] theorem replaceConfig_cfg (c : Configuration) (s : State) : (s.replaceConfig c).cfg = c := rfl
@[simp] theorem replaceConfig_shadow (c : Configuration) (s : State) : (s.replaceConfig c).shadow = s.shadow := rfl
@[simp] theorem replaceConfig_lastStatus (c : Configuration) (s : State) : (s.replaceConfig c).lastStatus = s.lastStatus := rfl
@[simp] theorem replaceConfig_lastReason (c : Configuration) (s : State) : (s.replaceConfig c).lastReason = s.lastReason := rfl
@[simp] theorem replaceConfig_seq (c : Configuration) (s : State) : (s.replaceConfig c).seq = [] := rfl
@[simp] theorem replaceConfig_pendingReply (c : Configuration) (s : State) : (s.replaceConfig c).pendingReply = some okReply := rfl
@[simp] theorem replaceConfig_trace (c : Configuration) (s : State) : (s.replaceConfig c).trace = s.trace := rfl
@[simp] theorem replaceConfig_port (c : Configuration) (s : State) : (s.replaceConfig c).port = s.port := rfl
@[simp] theorem replaceConfig_params (c : Configuration) (s : State) : (s.replaceConfig c).params = s.params := rfl
@[simp] theorem replaceConfig_env (c : Configuration) (s : State) : (s.replaceConfig c).env = s.env.keepVouch (premisesHold c s.env) := rfl
@[simp] theorem replaceConfig_host (c : Configuration) (s : State) : (s.replaceConfig c).host = s.host := rfl
@[simp] theorem replaceConfig_dropped (c : Configuration) (s : State) : (s.replaceConfig c).dropped = s.dropped := rfl

/-! ### `State.construct` -/

@[simp] theorem construct_phase (c : Configuration) (s : State) : (s.construct c).phase = .busy := rfl
@[simp] theorem construct_cfg (c : Configuration) (s : State) : (s.construct c).cfg = c := rfl
@[simp] theorem construct_shadow (c : Configuration) (s : State) : (s.construct c).shadow = zeros (capacity c.chainDepth) := rfl
@[simp] theorem construct_lastStatus (c : Configuration) (s : State) : (s.construct c).lastStatus = s.lastStatus := rfl
@[simp] theorem construct_lastReason (c : Configuration) (s : State) : (s.construct c).lastReason = s.lastReason := rfl
@[simp] theorem construct_seq (c : Configuration) (s : State) : (s.construct c).seq = pinSetup c ++ txn c.dataPin c.shiftClockPin c.latchClockPin (zeros (capacity c.chainDepth)) := rfl
@[simp] theorem construct_pendingReply (c : Configuration) (s : State) : (s.construct c).pendingReply = some okReply := rfl
@[simp] theorem construct_trace (c : Configuration) (s : State) : (s.construct c).trace = s.trace := rfl
@[simp] theorem construct_port (c : Configuration) (s : State) : (s.construct c).port = s.port := rfl
@[simp] theorem construct_params (c : Configuration) (s : State) : (s.construct c).params = s.params := rfl
@[simp] theorem construct_env (c : Configuration) (s : State) : (s.construct c).env = s.env.vouchIf (premisesHold c s.env) := rfl
@[simp] theorem construct_host (c : Configuration) (s : State) : (s.construct c).host = s.host := rfl
@[simp] theorem construct_dropped (c : Configuration) (s : State) : (s.construct c).dropped = s.dropped := rfl

/-! ### `State.resize` -/

@[simp] theorem resize_phase (n : Nat) (s : State) : (s.resize n).phase = .busy := rfl
@[simp] theorem resize_cfg (n : Nat) (s : State) : (s.resize n).cfg = { s.cfg with chainDepth := n } := rfl
@[simp] theorem resize_shadow (n : Nat) (s : State) : (s.resize n).shadow = zeros (capacity n) := rfl
@[simp] theorem resize_lastStatus (n : Nat) (s : State) : (s.resize n).lastStatus = s.lastStatus := rfl
@[simp] theorem resize_lastReason (n : Nat) (s : State) : (s.resize n).lastReason = s.lastReason := rfl
@[simp] theorem resize_seq (n : Nat) (s : State) : (s.resize n).seq = s.transaction (zeros (capacity n)) := rfl
@[simp] theorem resize_pendingReply (n : Nat) (s : State) : (s.resize n).pendingReply = some okReply := rfl
@[simp] theorem resize_trace (n : Nat) (s : State) : (s.resize n).trace = s.trace := rfl
@[simp] theorem resize_port (n : Nat) (s : State) : (s.resize n).port = s.port := rfl
@[simp] theorem resize_params (n : Nat) (s : State) : (s.resize n).params = s.params := rfl
@[simp] theorem resize_env (n : Nat) (s : State) : (s.resize n).env = s.env.revouch { s.cfg with chainDepth := n } := rfl
@[simp] theorem resize_host (n : Nat) (s : State) : (s.resize n).host = s.host := rfl
@[simp] theorem resize_dropped (n : Nat) (s : State) : (s.resize n).dropped = s.dropped := rfl

/-! ### `State.startShift` -/

@[simp] theorem startShift_phase (bits : BitSequence) (s : State) : (s.startShift bits).phase = .busy := rfl
@[simp] theorem startShift_cfg (bits : BitSequence) (s : State) : (s.startShift bits).cfg = s.cfg := rfl
@[simp] theorem startShift_shadow (bits : BitSequence) (s : State) : (s.startShift bits).shadow = s.shadow := rfl
@[simp] theorem startShift_lastStatus (bits : BitSequence) (s : State) : (s.startShift bits).lastStatus = s.lastStatus := rfl
@[simp] theorem startShift_lastReason (bits : BitSequence) (s : State) : (s.startShift bits).lastReason = s.lastReason := rfl
@[simp] theorem startShift_seq (bits : BitSequence) (s : State) : (s.startShift bits).seq = s.transaction bits := rfl
@[simp] theorem startShift_pendingReply (bits : BitSequence) (s : State) : (s.startShift bits).pendingReply = some okReply := rfl
@[simp] theorem startShift_trace (bits : BitSequence) (s : State) : (s.startShift bits).trace = s.trace := rfl
@[simp] theorem startShift_port (bits : BitSequence) (s : State) : (s.startShift bits).port = s.port := rfl
@[simp] theorem startShift_params (bits : BitSequence) (s : State) : (s.startShift bits).params = s.params := rfl
@[simp] theorem startShift_env (bits : BitSequence) (s : State) : (s.startShift bits).env = s.env := rfl
@[simp] theorem startShift_host (bits : BitSequence) (s : State) : (s.startShift bits).host = s.host := rfl
@[simp] theorem startShift_dropped (bits : BitSequence) (s : State) : (s.startShift bits).dropped = s.dropped := rfl

/-! ### `State.startClear` -/

@[simp] theorem startClear_phase (s : State) : s.startClear.phase = .busy := rfl
@[simp] theorem startClear_cfg (s : State) : s.startClear.cfg = s.cfg := rfl
@[simp] theorem startClear_shadow (s : State) : s.startClear.shadow = s.shadow := rfl
@[simp] theorem startClear_lastStatus (s : State) : s.startClear.lastStatus = s.lastStatus := rfl
@[simp] theorem startClear_lastReason (s : State) : s.startClear.lastReason = s.lastReason := rfl
@[simp] theorem startClear_seq (s : State) : s.startClear.seq = s.transaction (zeros (capacity s.cfg.chainDepth)) := rfl
@[simp] theorem startClear_pendingReply (s : State) : s.startClear.pendingReply = some okReply := rfl
@[simp] theorem startClear_trace (s : State) : s.startClear.trace = s.trace := rfl
@[simp] theorem startClear_port (s : State) : s.startClear.port = s.port := rfl
@[simp] theorem startClear_params (s : State) : s.startClear.params = s.params := rfl
@[simp] theorem startClear_env (s : State) : s.startClear.env = s.env.revouch s.cfg := rfl
@[simp] theorem startClear_host (s : State) : s.startClear.host = s.host := rfl
@[simp] theorem startClear_dropped (s : State) : s.startClear.dropped = s.dropped := rfl

/-! ### `State.perform` and `State.performAll` -/

@[simp] theorem perform_phase (s : State) (a : Action) : (s.perform a).phase = s.phase := by cases a <;> rfl
@[simp] theorem perform_cfg (s : State) (a : Action) : (s.perform a).cfg = s.cfg := by cases a <;> rfl
@[simp] theorem perform_lastStatus (s : State) (a : Action) : (s.perform a).lastStatus = s.lastStatus := by cases a <;> rfl
@[simp] theorem perform_lastReason (s : State) (a : Action) : (s.perform a).lastReason = s.lastReason := by cases a <;> rfl
@[simp] theorem perform_seq (s : State) (a : Action) : (s.perform a).seq = s.seq := by cases a <;> rfl
@[simp] theorem perform_pendingReply (s : State) (a : Action) : (s.perform a).pendingReply = s.pendingReply := by cases a <;> rfl
@[simp] theorem perform_port (s : State) (a : Action) : (s.perform a).port = s.port := by cases a <;> rfl
@[simp] theorem perform_params (s : State) (a : Action) : (s.perform a).params = s.params := by cases a <;> rfl
@[simp] theorem perform_host (s : State) (a : Action) : (s.perform a).host = s.host := by cases a <;> rfl
@[simp] theorem perform_dropped (s : State) (a : Action) : (s.perform a).dropped = s.dropped := by cases a <;> rfl

@[simp] theorem performAll_nil (s : State) : s.performAll [] = s := rfl

@[simp] theorem performAll_cons (s : State) (a : Action) (as : List Action) :
    s.performAll (a :: as) = (s.perform a).performAll as := rfl

theorem performAll_append (s : State) (as bs : List Action) :
    s.performAll (as ++ bs) = (s.performAll as).performAll bs := by
  simp [State.performAll]

@[simp] theorem performAll_phase (s : State) (as : List Action) : (s.performAll as).phase = s.phase := by
  induction as generalizing s with
  | nil => rfl
  | cons a as ih => simp [ih]
@[simp] theorem performAll_cfg (s : State) (as : List Action) : (s.performAll as).cfg = s.cfg := by
  induction as generalizing s with
  | nil => rfl
  | cons a as ih => simp [ih]
@[simp] theorem performAll_lastStatus (s : State) (as : List Action) : (s.performAll as).lastStatus = s.lastStatus := by
  induction as generalizing s with
  | nil => rfl
  | cons a as ih => simp [ih]
@[simp] theorem performAll_lastReason (s : State) (as : List Action) : (s.performAll as).lastReason = s.lastReason := by
  induction as generalizing s with
  | nil => rfl
  | cons a as ih => simp [ih]
@[simp] theorem performAll_seq (s : State) (as : List Action) : (s.performAll as).seq = s.seq := by
  induction as generalizing s with
  | nil => rfl
  | cons a as ih => simp [ih]
@[simp] theorem performAll_pendingReply (s : State) (as : List Action) : (s.performAll as).pendingReply = s.pendingReply := by
  induction as generalizing s with
  | nil => rfl
  | cons a as ih => simp [ih]
@[simp] theorem performAll_port (s : State) (as : List Action) : (s.performAll as).port = s.port := by
  induction as generalizing s with
  | nil => rfl
  | cons a as ih => simp [ih]
@[simp] theorem performAll_params (s : State) (as : List Action) : (s.performAll as).params = s.params := by
  induction as generalizing s with
  | nil => rfl
  | cons a as ih => simp [ih]
@[simp] theorem performAll_host (s : State) (as : List Action) : (s.performAll as).host = s.host := by
  induction as generalizing s with
  | nil => rfl
  | cons a as ih => simp [ih]
@[simp] theorem performAll_dropped (s : State) (as : List Action) : (s.performAll as).dropped = s.dropped := by
  induction as generalizing s with
  | nil => rfl
  | cons a as ih => simp [ih]

end Sys2Proof.Laws
end

