-- ==== Sys2Proof/Laws/Decode.lean ====
section
/-! SUPPORT. What the field readers, the field writers and the decoder answer. -/

namespace Sys2Proof.Laws

/-! ### Fields -/

@[simp] theorem length_bytesLE (k raw : Nat) : (bytesLE k raw).length = k := by
  induction k generalizing raw with
  | zero => rfl
  | succ k ih => simp [bytesLE, ih]

@[simp] theorem length_signedField (k : Nat) (v : Int) : (signedField k v).length = k := by
  simp [signedField]

theorem rawLE_bytesLE (k raw : Nat) : rawLE (bytesLE k raw) = raw % 2 ^ (8 * k) := by
  induction k generalizing raw with
  | zero => simp [bytesLE, rawLE, Nat.mod_one]
  | succ k ih =>
    rw [bytesLE, rawLE, ih, BitVec.toNat_ofNat]
    have h : 2 ^ (8 * (k + 1)) = 256 * 2 ^ (8 * k) := by rw [Nat.mul_add, Nat.pow_add, Nat.mul_comm]
    rw [h, Nat.mod_mul]

theorem rawLE_lt (bs : List Byte) : rawLE bs < 2 ^ (8 * bs.length) := by
  induction bs with
  | nil => simp [rawLE]
  | cons b bs ih =>
    have hb : b.toNat < 256 := b.isLt
    have h : 2 ^ (8 * (b :: bs).length) = 256 * 2 ^ (8 * bs.length) := by
      rw [List.length_cons, Nat.mul_add, Nat.pow_add, Nat.mul_comm]
    rw [rawLE, h]
    omega

theorem bytesLE_rawLE (bs : List Byte) : bytesLE bs.length (rawLE bs) = bs := by
  induction bs with
  | nil => rfl
  | cons b bs ih =>
    have hb : b.toNat < 256 := b.isLt
    have h1 : (b.toNat + 256 * rawLE bs) / 256 = rawLE bs := by omega
    have h2 : BitVec.ofNat 8 (b.toNat + 256 * rawLE bs) = b := by
      apply BitVec.eq_of_toNat_eq
      rw [BitVec.toNat_ofNat]
      omega
    simp [bytesLE, rawLE, h1, h2, ih]

/-- A signed value survives being reduced to its field and sign-extended again. -/
theorem sext_emod (w : Nat) (hw : 0 < w) (v : Int) (h : fitsSigned w v = true) :
    sext w (v % (2 ^ w : Int)).toNat = v := by
  simp only [fitsSigned, Bool.and_eq_true, decide_eq_true_eq] at h
  obtain ⟨k, rfl⟩ : ∃ k, w = k + 1 := ⟨w - 1, by omega⟩
  simp only [Nat.add_sub_cancel] at h
  have hp : (0 : Int) < 2 ^ k := by positivity
  have h2 : (2 : Int) ^ (k + 1) = 2 * 2 ^ k := by rw [pow_succ]; ring
  have hn : ((2 ^ k : Nat) : Int) = 2 ^ k := by push_cast; rfl
  unfold sext
  simp only [Nat.add_sub_cancel]
  rw [h2]
  by_cases hv : 0 ≤ v
  · have e : v % (2 * 2 ^ k) = v := Int.emod_eq_of_lt hv (by omega)
    rw [e, if_pos (by omega)]
    omega
  · have e : v % (2 * 2 ^ k) = v + 2 * 2 ^ k := by
      rw [← Int.add_emod_right]
      exact Int.emod_eq_of_lt (by omega) (by omega)
    rw [e, if_neg (by omega)]
    omega

theorem fitsSigned_sext (w raw : Nat) (hw : 0 < w) (h : raw < 2 ^ w) : fitsSigned w (sext w raw) = true := by
  obtain ⟨k, rfl⟩ : ∃ k, w = k + 1 := ⟨w - 1, by omega⟩
  simp only [fitsSigned, Bool.and_eq_true, decide_eq_true_eq, sext, Nat.add_sub_cancel]
  have h2 : (2 : Nat) ^ (k + 1) = 2 * 2 ^ k := by rw [pow_succ]; ring
  have h3 : (2 : Int) ^ (k + 1) = 2 * 2 ^ k := by rw [pow_succ]; ring
  have hn : ((2 ^ k : Nat) : Int) = 2 ^ k := by push_cast; rfl
  rw [h2] at h
  rw [h3]
  split <;> omega

theorem emod_sext (w raw : Nat) (h : raw < 2 ^ w) : (sext w raw % (2 ^ w : Int)).toNat = raw := by
  have hn : ((2 ^ w : Nat) : Int) = 2 ^ w := by push_cast; rfl
  unfold sext
  split
  · rw [Int.emod_eq_of_lt (by omega) (by omega)]
    simp
  · rw [Int.sub_emod_right, Int.emod_eq_of_lt (by omega) (by omega)]
    simp

/-- What a signed field reads as is what was written into it. -/
theorem sext_signedField (k : Nat) (hk : 0 < k) (v : Int) (h : fitsSigned (8 * k) v = true) :
    sext (8 * k) (rawLE (signedField k v)) = v := by
  have hlt : (v % (2 ^ (8 * k) : Int)).toNat < 2 ^ (8 * k) := by
    have hp : (0 : Int) < 2 ^ (8 * k) := by positivity
    have h1 := Int.emod_lt_of_pos v hp
    have h2 := Int.emod_nonneg v (Int.ne_of_gt hp)
    have hn : ((2 ^ (8 * k) : Nat) : Int) = 2 ^ (8 * k) := by push_cast; rfl
    omega
  rw [signedField, rawLE_bytesLE, Nat.mod_eq_of_lt hlt]
  exact sext_emod _ (by omega) v h

/-- What is written for the value a signed field reads as is the field. -/
theorem signedField_sext (bs : List Byte) : signedField bs.length (sext (8 * bs.length) (rawLE bs)) = bs := by
  rw [signedField, emod_sext _ _ (rawLE_lt bs), bytesLE_rawLE]

theorem fieldAt_append (a b rest : List Byte) (k : Nat) (h : b.length = k) :
    fieldAt (a ++ (b ++ rest)) a.length k = b := by
  subst h
  simp [fieldAt]

/-- A field that ends inside the bytes does not depend on what follows them. -/
theorem fieldAt_more (bs more : List Byte) (off k : Nat) (h : off + k ≤ bs.length) :
    fieldAt (bs ++ more) off k = fieldAt bs off k := by
  unfold fieldAt
  rw [List.drop_append_of_le_length (by omega), List.take_append_of_le_length (by simp; omega)]

theorem length_fieldAt (bs : List Byte) (off k : Nat) (h : off + k ≤ bs.length) : (fieldAt bs off k).length = k := by
  simp [fieldAt]
  omega

/-! ### Elements -/

theorem elem8_encodeElem (e : Elem) (h : e.isFrameElem = true) : elem8 (encodeElem e) = e := by
  cases e with
  | bool b => simp [Elem.isFrameElem] at h
  | int v =>
    simp only [Elem.isFrameElem, Bool.and_eq_true, decide_eq_true_eq] at h
    simp only [encodeElem, elem8, Elem.int.injEq, BitVec.toNat_ofInt]
    omega

theorem encodeElem_elem8 (b : Byte) : encodeElem (elem8 b) = b := by
  apply BitVec.eq_of_toNat_eq
  have := b.isLt
  simp only [encodeElem, elem8, BitVec.toNat_ofInt]
  omega

theorem isFrameElem_elem8 (b : Byte) : (elem8 b).isFrameElem = true := by
  have := b.isLt
  simp only [elem8, Elem.isFrameElem, Bool.and_eq_true, decide_eq_true_eq]
  omega

/-! ### The decoder -/

/-- The length of a frame is never 0. -/
theorem frameLength_pos (op len : Nat) : 0 < frameLength op len := by
  unfold frameLength
  split <;> omega

/-- A frame whose bytes have all arrived is decoded by its opcode's rule; it is `frameLength` bytes long. -/
theorem decode_of_length (op : Byte) (args : List Byte)
    (h : frameLength op.toNat (len32At (op :: args) 1) ≤ (op :: args).length) :
    decode (op :: args) = decodeFrame op (op :: args) := by
  simp only [decode]
  rw [if_neg (by omega)]

theorem decode_incomplete_of_length (op : Byte) (args : List Byte)
    (h : (op :: args).length < frameLength op.toNat (len32At (op :: args) 1)) :
    decode (op :: args) = .incomplete := by
  simp only [decode]
  rw [if_pos h]

end Sys2Proof.Laws
end

