-- ==== Sys2Proof/Laws/Environment.lean ====
section
/-! SUPPORT. What the pin collaborator and the chain can do, said once for each of their operations. -/

namespace Sys2Proof.Laws

open Sys2Proof.Machine

/-! ### Lines -/

theorem lineLevel_setLineLevel (ls : Lines) (p q : PinId) (lvl : Level) :
    lineLevel (setLineLevel ls p lvl) q = if q = p then some lvl else lineLevel ls q := by
  induction ls with
  | nil => simp [setLineLevel, lineLevel]
  | cons x rest ih =>
    obtain ⟨r, old⟩ := x
    by_cases hlt : p < r
    · simp [setLineLevel, hlt, lineLevel]
    · by_cases heq : p = r
      · subst heq
        by_cases hq : q = p <;> simp [setLineLevel, lineLevel, hq]
      · by_cases hq : q = r
        · have : q ≠ p := fun h => heq (h.symm.trans hq)
          simp [setLineLevel, hlt, heq, lineLevel, hq, Ne.symm heq]
        · simp [setLineLevel, hlt, heq, lineLevel, hq, ih]

theorem mem_fst_setLineLevel (ls : Lines) (p : PinId) (lvl : Level) (q : PinId) :
    q ∈ (setLineLevel ls p lvl).map Prod.fst ↔ q = p ∨ q ∈ ls.map Prod.fst := by
  induction ls with
  | nil => simp [setLineLevel]
  | cons x rest ih =>
    obtain ⟨r, old⟩ := x
    by_cases hlt : p < r
    · simp [setLineLevel, hlt]
    · by_cases heq : p = r
      · simp [setLineLevel, heq]
      · simp only [setLineLevel, hlt, heq, if_false, List.map_cons, List.mem_cons, ih]
        tauto

theorem linesWf_setLineLevel (ls : Lines) (p : PinId) (lvl : Level) (h : linesWf ls = true) :
    linesWf (setLineLevel ls p lvl) = true := by
  simp only [linesWf, decide_eq_true_eq] at h ⊢
  induction ls with
  | nil => simp [setLineLevel]
  | cons x rest ih =>
    obtain ⟨r, old⟩ := x
    have hr : ∀ q ∈ rest.map Prod.fst, r < q := (List.pairwise_cons.mp h).1
    have hrest : (rest.map Prod.fst).Pairwise (· < ·) := (List.pairwise_cons.mp h).2
    by_cases hlt : p < r
    · simp only [setLineLevel, hlt, if_true, List.map_cons]
      refine List.pairwise_cons.mpr ⟨fun q hq => ?_, h⟩
      rcases List.mem_cons.mp hq with rfl | hq
      · exact hlt
      · exact hlt.trans (hr q hq)
    · by_cases heq : p = r
      · simp only [setLineLevel, heq, if_true, if_false, List.map_cons, lt_irrefl]
        exact List.pairwise_cons.mpr ⟨hr, hrest⟩
      · simp only [setLineLevel, hlt, heq, if_false, List.map_cons]
        refine List.pairwise_cons.mpr ⟨fun q hq => ?_, ih hrest⟩
        rcases (mem_fst_setLineLevel rest p lvl q).mp hq with rfl | hq
        · exact lt_of_le_of_ne (not_lt.mp hlt) (Ne.symm heq)
        · exact hr q hq

theorem lineLevel_map (ls : Lines) (f : PinId → Level) (p : PinId) :
    (lineLevel (ls.map fun x => (x.1, f x.1)) p).isSome = (lineLevel ls p).isSome := by
  induction ls with
  | nil => rfl
  | cons x rest ih =>
    by_cases h : p = x.1 <;> simp [lineLevel, h, ih]

/-! ### What no operation of the environment changes or breaks -/

/-- What every operation of the environment keeps: size and wiring of the chain, a fault once raised, a pin once configured,
the canonical form of the lines, the length of the chain's registers. -/
structure EnvKeeps (e e' : Env) : Prop where
  chips : e'.chain.chips = e.chain.chips
  serPin : e'.chain.serPin = e.chain.serPin
  srclkPin : e'.chain.srclkPin = e.chain.srclkPin
  rclkPin : e'.chain.rclkPin = e.chain.rclkPin
  fault : ∀ f, e.fault = some f → e'.fault = some f
  configured : ∀ p, e.configured p = true → e'.configured p = true
  lines : linesWf e.lines = true → linesWf e'.lines = true
  sized : ChainSized e.chain → ChainSized e'.chain

theorem EnvKeeps.refl (e : Env) : EnvKeeps e e :=
  ⟨rfl, rfl, rfl, rfl, fun _ h => h, fun _ h => h, fun h => h, fun h => h⟩

theorem EnvKeeps.trans {a b c : Env} (h : EnvKeeps a b) (k : EnvKeeps b c) : EnvKeeps a c :=
  ⟨k.chips.trans h.chips, k.serPin.trans h.serPin, k.srclkPin.trans h.srclkPin, k.rclkPin.trans h.rclkPin,
    fun f hf => k.fault f (h.fault f hf), fun p hp => k.configured p (h.configured p hp),
    fun hl => k.lines (h.lines hl), fun hs => k.sized (h.sized hs)⟩

theorem chainSized_shiftIn (c : Chain) (b : Bit) (h : ChainSized c) : ChainSized (c.shiftIn b) := by
  obtain ⟨h1, h2, h3⟩ := h
  refine ⟨h1, ?_, h3⟩
  simp only [Chain.shiftIn, Config.bitsPerChip, List.length_cons, List.length_take, h2]
  omega

/-- The shift edge changes the stages and the number of draws, and keeps everything else. -/
theorem shiftEdge_spec (e : Env) :
    ∃ b k, e.shiftEdge = { e with chain := e.chain.shiftIn b, draws := k } ∧ e.draws ≤ k := by
  unfold Env.shiftEdge
  split
  · exact ⟨_, e.draws, rfl, le_rfl⟩
  · exact ⟨_, _, rfl, Nat.le_succ _⟩

theorem shiftEdge_keeps (e : Env) : EnvKeeps e e.shiftEdge := by
  obtain ⟨b, k, h, -⟩ := shiftEdge_spec e
  rw [h]
  exact ⟨rfl, rfl, rfl, rfl, fun _ h => h, fun _ h => h, fun h => h, fun h => chainSized_shiftIn _ _ h⟩

/-- The latch edge changes the storage and the number of draws, and keeps everything else. -/
theorem latchEdge_spec (e : Env) :
    ∃ out k, e.latchEdge = { e with chain := { e.chain with storage := out }, draws := k } ∧ e.draws ≤ k ∧
      (ChainSized e.chain → out.length = 8 * e.chain.chips) := by
  unfold Env.latchEdge
  split
  · exact ⟨_, _, rfl, Nat.le_succ _, fun h => by simpa using h.2.2⟩
  · exact ⟨_, e.draws, rfl, le_rfl, fun h => h.2.1⟩

theorem latchEdge_keeps (e : Env) : EnvKeeps e e.latchEdge := by
  obtain ⟨out, k, h, -, hl⟩ := latchEdge_spec e
  rw [h]
  exact ⟨rfl, rfl, rfl, rfl, fun _ h => h, fun _ h => h, fun h => h, fun hs => ⟨hs.1, hs.2.1, hl hs⟩⟩

theorem risingEdge_keeps (e : Env) (p : PinId) : EnvKeeps e (e.risingEdge p) := by
  unfold Env.risingEdge
  by_cases h1 : p = e.chain.srclkPin
  · simp only [h1, if_true]
    split
    · exact (shiftEdge_keeps e).trans (latchEdge_keeps _)
    · exact shiftEdge_keeps e
  · simp only [h1, if_false]
    split
    · exact latchEdge_keeps e
    · exact EnvKeeps.refl e

/-- The edges change the chain and the number of draws, and keep everything else. -/
theorem risingEdge_spec (e : Env) (p : PinId) :
    ∃ c k, e.risingEdge p = { e with chain := c, draws := k } ∧ e.draws ≤ k := by
  obtain ⟨b, k, h, hk⟩ := shiftEdge_spec e
  unfold Env.risingEdge
  by_cases h1 : p = e.chain.srclkPin
  · obtain ⟨out, k', h', hk', -⟩ := latchEdge_spec e.shiftEdge
    simp only [h1, if_true]
    split
    · rw [h', h]
      refine ⟨_, k', rfl, ?_⟩
      rw [h] at hk'
      exact hk.trans hk'
    · exact ⟨_, k, h, hk⟩
  · obtain ⟨out, k', h', hk', -⟩ := latchEdge_spec e
    simp only [h1, if_false]
    split
    · exact ⟨_, k', h', hk'⟩
    · exact ⟨_, _, rfl, le_rfl⟩

theorem risingEdge_lines (e : Env) (p : PinId) :
    (e.risingEdge p).lines = e.lines ∧ (e.risingEdge p).fault = e.fault ∧ (e.risingEdge p).standing = e.standing ∧
      (e.risingEdge p).givenLevels = e.givenLevels := by
  obtain ⟨c, k, h, -⟩ := risingEdge_spec e p
  rw [h]
  exact ⟨rfl, rfl, rfl, rfl⟩

/-- A line's new level, with or without the chain's reaction. -/
theorem setLine_cases (e : Env) (p : PinId) (lvl : Level) :
    (lineLevel e.lines p = some .low ∧ lvl = .high ∧
      e.setLine p lvl = Env.risingEdge { e with lines := setLineLevel e.lines p lvl } p) ∨
    (¬ (lineLevel e.lines p = some .low ∧ lvl = .high) ∧
      e.setLine p lvl = { e with lines := setLineLevel e.lines p lvl }) := by
  unfold Env.setLine
  rcases h : lineLevel e.lines p with _ | (_ | _) <;> cases lvl <;> simp

@[simp] theorem setLine_lines (e : Env) (p : PinId) (lvl : Level) :
    (e.setLine p lvl).lines = setLineLevel e.lines p lvl := by
  rcases setLine_cases e p lvl with ⟨-, -, h⟩ | ⟨-, h⟩ <;> rw [h]
  exact (risingEdge_lines _ p).1

@[simp] theorem setLine_fault (e : Env) (p : PinId) (lvl : Level) : (e.setLine p lvl).fault = e.fault := by
  rcases setLine_cases e p lvl with ⟨-, -, h⟩ | ⟨-, h⟩ <;> rw [h]
  exact (risingEdge_lines _ p).2.1

@[simp] theorem setLine_standing (e : Env) (p : PinId) (lvl : Level) : (e.setLine p lvl).standing = e.standing := by
  rcases setLine_cases e p lvl with ⟨-, -, h⟩ | ⟨-, h⟩ <;> rw [h]
  exact (risingEdge_lines _ p).2.2.1

@[simp] theorem setLine_givenLevels (e : Env) (p : PinId) (lvl : Level) :
    (e.setLine p lvl).givenLevels = e.givenLevels := by
  rcases setLine_cases e p lvl with ⟨-, -, h⟩ | ⟨-, h⟩ <;> rw [h]
  exact (risingEdge_lines _ p).2.2.2

theorem setLine_level (e : Env) (p q : PinId) (lvl : Level) :
    lineLevel (e.setLine p lvl).lines q = if q = p then some lvl else lineLevel e.lines q := by
  rw [setLine_lines, lineLevel_setLineLevel]

theorem setLine_keeps (e : Env) (p : PinId) (lvl : Level) : EnvKeeps e (e.setLine p lvl) := by
  have h0 : EnvKeeps e { e with lines := setLineLevel e.lines p lvl } := by
    refine ⟨rfl, rfl, rfl, rfl, fun _ h => h, fun q hq => ?_, linesWf_setLineLevel _ _ _, fun h => h⟩
    simp only [Env.configured, lineLevel_setLineLevel] at hq ⊢
    split <;> simp_all
  rcases setLine_cases e p lvl with ⟨-, -, h⟩ | ⟨-, h⟩ <;> rw [h]
  · exact h0.trans (risingEdge_keeps _ p)
  · exact h0

theorem setLine_draws (e : Env) (p : PinId) (lvl : Level) : e.draws ≤ (e.setLine p lvl).draws := by
  rcases setLine_cases e p lvl with ⟨-, -, h⟩ | ⟨-, h⟩ <;> rw [h]
  obtain ⟨c, k, h', hk⟩ := risingEdge_spec { e with lines := setLineLevel e.lines p lvl } p
  rw [h']
  exact hk

theorem redraw_keeps (e : Env) : EnvKeeps e e.redraw := by
  refine ⟨rfl, rfl, rfl, rfl, fun _ h => h, fun _ h => h, fun h => h, fun ⟨h1, h2, h3⟩ => ⟨h1, ?_, ?_⟩⟩
  · simpa [Env.redraw, Chain.openContent, Chain.openOutputs] using h2
  · simpa [Env.redraw, Chain.openContent, Chain.openOutputs] using h3

@[simp] theorem redraw_lines (e : Env) : e.redraw.lines = e.lines := rfl
@[simp] theorem redraw_fault (e : Env) : e.redraw.fault = e.fault := rfl
@[simp] theorem redraw_standing (e : Env) : e.redraw.standing = e.standing := rfl
@[simp] theorem redraw_givenLevels (e : Env) : e.redraw.givenLevels = e.givenLevels := rfl
@[simp] theorem redraw_draws (e : Env) : e.redraw.draws = e.draws + 1 := rfl

theorem setStanding_keeps (e : Env) (v : Standing) : EnvKeeps e { e with standing := v } :=
  ⟨rfl, rfl, rfl, rfl, fun _ h => h, fun _ h => h, fun h => h, fun h => h⟩

theorem unvouch_keeps (e : Env) : EnvKeeps e e.unvouch :=
  (redraw_keeps e).trans (setStanding_keeps _ _)

@[simp] theorem unvouch_lines (e : Env) : e.unvouch.lines = e.lines := rfl
@[simp] theorem unvouch_fault (e : Env) : e.unvouch.fault = e.fault := rfl
@[simp] theorem unvouch_standing (e : Env) : e.unvouch.standing = .failed := rfl
@[simp] theorem unvouch_givenLevels (e : Env) : e.unvouch.givenLevels = e.givenLevels := rfl
@[simp] theorem unvouch_draws (e : Env) : e.unvouch.draws = e.draws + 1 := rfl

theorem undetermined_configured (e : Env) (p : PinId) : e.undetermined.configured p = e.configured p := by
  simp [Env.configured, Env.undetermined, lineLevel_map e.lines (Config.openLevel e.draws)]

theorem undetermined_keeps (e : Env) : EnvKeeps e e.undetermined := by
  have h := unvouch_keeps e
  refine ⟨rfl, rfl, rfl, rfl, h.fault, fun p hp => (undetermined_configured e p).trans hp, fun hl => ?_, h.sized⟩
  have : e.undetermined.lines.map Prod.fst = e.lines.map Prod.fst := by
    simp [Env.undetermined, Function.comp_def]
  simpa [linesWf, this] using hl

/-- What settling can do: nothing while no premise has failed and there is no fault; else the content is drawn. -/
theorem settle_cases (e : Env) :
    (e.fault = none ∧ e.standing ≠ .failed ∧ e.settle = e) ∨
      (e.fault = none ∧ e.standing = .failed ∧ e.settle = e.redraw) ∨
        (e.fault.isSome = true ∧ e.settle = e.undetermined) := by
  unfold Env.settle
  rcases h : e.fault with _ | f <;> by_cases hv : e.standing = .failed <;> simp [hv]

theorem settle_keeps (e : Env) : EnvKeeps e e.settle := by
  rcases settle_cases e with ⟨-, -, h⟩ | ⟨-, -, h⟩ | ⟨-, h⟩ <;> rw [h]
  · exact EnvKeeps.refl e
  · exact redraw_keeps e
  · exact undetermined_keeps e

/-- Settling does nothing to an environment without a fault where no premise has failed. -/
theorem settle_self (e : Env) (hf : e.fault = none) (hs : e.standing ≠ .failed) : e.settle = e := by
  simp [Env.settle, hf, hs]

/-- Settling changes no line while there is no fault. -/
theorem settle_lines (e : Env) (h : e.fault = none) : e.settle.lines = e.lines := by
  rcases settle_cases e with ⟨-, -, hs⟩ | ⟨-, -, hs⟩ | ⟨hf, -⟩
  · rw [hs]
  · rw [hs]; rfl
  · simp [h] at hf

@[simp] theorem settle_fault (e : Env) : e.settle.fault = e.fault := by
  rcases settle_cases e with ⟨-, -, h⟩ | ⟨-, -, h⟩ | ⟨-, h⟩ <;> rw [h] <;> rfl

@[simp] theorem settle_givenLevels (e : Env) : e.settle.givenLevels = e.givenLevels := by
  rcases settle_cases e with ⟨-, -, h⟩ | ⟨-, -, h⟩ | ⟨-, h⟩ <;> rw [h] <;> rfl

/-- Settling changes the standing only where there is a fault. -/
theorem settle_standing (e : Env) : e.settle.standing = if e.fault.isSome then .failed else e.standing := by
  rcases settle_cases e with ⟨hf, -, h⟩ | ⟨hf, hs, h⟩ | ⟨hf, h⟩ <;> rw [h, hf]
  · rfl
  · rfl
  · rfl

theorem settle_draws (e : Env) : e.draws ≤ e.settle.draws := by
  rcases settle_cases e with ⟨-, -, h⟩ | ⟨-, -, h⟩ | ⟨-, h⟩ <;> rw [h]
  · exact Nat.le_succ _
  · exact Nat.le_succ _

/-- Where no premise has failed after settling, none had before, there is no fault, and settling did nothing. -/
theorem settle_standing_ne {e : Env} (h : e.settle.standing ≠ .failed) :
    e.standing ≠ .failed ∧ e.fault = none ∧ e.settle = e := by
  rcases settle_cases e with ⟨hf, hv, hs⟩ | ⟨-, hv, hs⟩ | ⟨-, hs⟩
  · exact ⟨hv, hf, hs⟩
  · exact absurd (hs ▸ hv : e.settle.standing = .failed) h
  · exact absurd (hs ▸ rfl : e.settle.standing = .failed) h

theorem raiseFault_keeps (e : Env) (p : PinId) : EnvKeeps e (e.raiseFault p) := by
  unfold Env.raiseFault
  split
  · next f hf => exact ⟨rfl, rfl, rfl, rfl, fun g hg => hf ▸ hg, fun _ h => h, fun h => h, fun h => h⟩
  · next hf => exact ⟨rfl, rfl, rfl, rfl, fun g hg => by simp [hf] at hg, fun _ h => h, fun h => h, fun h => h⟩

theorem raiseFault_isSome (e : Env) (p : PinId) : (e.raiseFault p).fault.isSome = true := by
  unfold Env.raiseFault
  split <;> rfl

theorem drawLevel_keeps (e : Env) (p : PinId) : EnvKeeps e (e.drawLevel p).2 := by
  unfold Env.drawLevel
  split <;> exact ⟨rfl, rfl, rfl, rfl, fun _ h => h, fun _ h => h, fun h => h, fun h => h⟩

/-- A draw changes the given levels and the number of draws, and keeps everything else. -/
theorem drawLevel_spec (e : Env) (p : PinId) :
    ∃ gs k, (e.drawLevel p).2 = { e with givenLevels := gs, draws := k } := by
  unfold Env.drawLevel
  split
  · exact ⟨_, e.draws, rfl⟩
  · exact ⟨e.givenLevels, _, rfl⟩

theorem keepVouch_keeps (ok : Bool) (e : Env) : EnvKeeps e (e.keepVouch ok) := by
  unfold Env.keepVouch
  split
  · exact unvouch_keeps e
  · exact EnvKeeps.refl e

theorem configure_keeps (e : Env) (p : PinId) : EnvKeeps e (e.configure p) :=
  (((drawLevel_keeps e p).trans (setLine_keeps (e.drawLevel p).2 p (e.drawLevel p).1)).trans
    (settle_keeps _)).trans (keepVouch_keeps _ _)

theorem write_keeps (e : Env) (p : PinId) (lvl : Level) : EnvKeeps e (e.write p lvl) := by
  refine EnvKeeps.trans ?_ (settle_keeps _)
  split
  · exact setLine_keeps e p lvl
  · exact raiseFault_keeps e p

theorem vouchIf_keeps (ok : Bool) (e : Env) : EnvKeeps e (e.vouchIf ok) := by
  unfold Env.vouchIf
  split
  · exact setStanding_keeps e _
  · exact unvouch_keeps e

theorem disturb_keeps (c : Configuration) (p : PinId) (e : Env) : EnvKeeps e (e.disturb c p) :=
  keepVouch_keeps _ e

theorem afterReset_keeps (ph : Phase) (e : Env) : EnvKeeps e (e.afterReset ph) := by
  cases ph
  · exact redraw_keeps e
  · exact (redraw_keeps e).trans (setStanding_keeps _ _)
  · exact unvouch_keeps e

/-- The reset input draws the content of the chain and settles the standing, and keeps everything else. -/
theorem afterReset_spec (ph : Phase) (e : Env) :
    e.afterReset ph = { e.redraw with standing := (e.afterReset ph).standing } := by
  cases ph <;> rfl

@[simp] theorem keepVouch_true (e : Env) : e.keepVouch true = e := by
  simp [Env.keepVouch]

/-- What keeping the vouch can do: a premise in force fails, or nothing. -/
theorem keepVouch_cases (ok : Bool) (e : Env) :
    (e.standing = .vouched ∧ ok = false ∧ e.keepVouch ok = e.unvouch) ∨
      ((e.standing ≠ .vouched ∨ ok = true) ∧ e.keepVouch ok = e) := by
  unfold Env.keepVouch
  by_cases h : e.standing = .vouched <;> cases ok <;> simp [h]

theorem keepVouch_lines (ok : Bool) (e : Env) : (e.keepVouch ok).lines = e.lines ∧ (e.keepVouch ok).fault = e.fault ∧
    (e.keepVouch ok).givenLevels = e.givenLevels ∧ e.draws ≤ (e.keepVouch ok).draws := by
  rcases keepVouch_cases ok e with ⟨-, -, h⟩ | ⟨-, h⟩ <;> rw [h]
  · exact ⟨rfl, rfl, rfl, Nat.le_succ _⟩
  · exact ⟨rfl, rfl, rfl, le_rfl⟩

/-- Where the vouch is set: the premises are the condition, and nothing but the standing changes. -/
theorem vouchIf_vouched {ok : Bool} {e : Env} (h : (e.vouchIf ok).standing = .vouched) :
    ok = true ∧ e.vouchIf ok = { e with standing := .vouched } := by
  unfold Env.vouchIf at h ⊢
  cases ok <;> simp_all

theorem keepVouch_vouched {ok : Bool} {e : Env} (h : (e.keepVouch ok).standing = .vouched) :
    ok = true ∧ e.standing = .vouched ∧ e.keepVouch ok = e := by
  rcases keepVouch_cases ok e with ⟨-, -, hk⟩ | ⟨hc, hk⟩
  · rw [hk] at h
    cases h
  · rw [hk] at h
    exact ⟨hc.resolve_left (fun hn => hn h), h, hk⟩

theorem disturb_vouched {c : Configuration} {p : PinId} {e : Env} (h : (e.disturb c p).standing = .vouched) :
    c.hasPin p = false ∧ e.disturb c p = e := by
  obtain ⟨h1, -, h3⟩ := keepVouch_vouched h
  exact ⟨by simpa using h1, h3⟩

/-- The environment's part of the premises, field by field. -/
theorem premisesHold_iff {c : Configuration} {e : Env} :
    premisesHold c e = true ↔
      e.chain.chips = c.chainDepth ∧ e.chain.serPin = c.dataPin ∧ e.chain.srclkPin = c.shiftClockPin ∧
        e.chain.rclkPin = c.latchClockPin ∧ c.dataPin ≠ c.shiftClockPin ∧ c.dataPin ≠ c.latchClockPin ∧
          c.shiftClockPin ≠ c.latchClockPin ∧ e.fault = none := by
  simp [premisesHold, and_assoc]

theorem mirrorPremises_iff {s : State} : MirrorPremises s ↔ premisesHold s.cfg s.env = true := by
  rw [premisesHold_iff]
  exact ⟨fun ⟨a, b, c, d, e, f, g, h⟩ => ⟨a, b, c, d, e, f, g, h⟩, fun ⟨a, b, c, d, e, f, g, h⟩ => ⟨a, b, c, d, e, f, g, h⟩⟩

/-- A write to a configured pin where there is no fault and no premise has failed (R222). -/
theorem write_configured (e : Env) (p : PinId) (lvl : Level) (hf : e.fault = none) (hs : e.standing ≠ .failed)
    (hc : e.configured p = true) : e.write p lvl = e.setLine p lvl := by
  simp only [Env.write, hc, if_true]
  exact settle_self _ (by simp [hf]) (by simp [hs])

/-- A write after which no premise has failed went to a configured pin and did nothing but set its line. -/
theorem write_standing_ne {e : Env} {p : PinId} {lvl : Level} (h : (e.write p lvl).standing ≠ .failed) :
    e.standing ≠ .failed ∧ e.fault = none ∧ e.configured p = true ∧ e.write p lvl = e.setLine p lvl := by
  obtain ⟨h1, h2, -⟩ := settle_standing_ne h
  by_cases hc : e.configured p = true
  · simp only [hc, if_true, setLine_standing, setLine_fault] at h1 h2
    exact ⟨h1, h2, hc, write_configured e p lvl h2 h1 hc⟩
  · simp only [hc] at h2
    have := raiseFault_isSome e p
    simp_all

theorem write_vouched {e : Env} {p : PinId} {lvl : Level} (h : (e.write p lvl).standing = .vouched) :
    e.standing = .vouched ∧ e.fault = none ∧ e.configured p = true ∧ e.write p lvl = e.setLine p lvl := by
  obtain ⟨-, h2, h3, h4⟩ := write_standing_ne (by simp [h] : (e.write p lvl).standing ≠ .failed)
  rw [h4, setLine_standing] at h
  exact ⟨h, h2, h3, h4⟩

/-- A configuration event where there is no fault and no premise has failed, and where the vouch is not at stake or no clock is
drawn high, sets the line and does nothing else (R221). -/
theorem configure_eq_setLine (e : Env) (p : PinId) (hf : e.fault = none) (hs : e.standing ≠ .failed)
    (hk : e.standing ≠ .vouched ∨ e.startsLow p (e.drawLevel p).1 = true) :
    e.configure p = (e.drawLevel p).2.setLine p (e.drawLevel p).1 := by
  obtain ⟨gs, k, hd⟩ := drawLevel_spec e p
  have hset : ((e.drawLevel p).2.setLine p (e.drawLevel p).1).settle = (e.drawLevel p).2.setLine p (e.drawLevel p).1 :=
    settle_self _ (by simp [hd, hf]) (by simp [hd, hs])
  rw [Env.configure, hset]
  rcases keepVouch_cases (e.startsLow p (e.drawLevel p).1) ((e.drawLevel p).2.setLine p (e.drawLevel p).1) with
    ⟨hv, hl, -⟩ | ⟨-, h⟩
  · rw [setLine_standing] at hv
    simp only [hd] at hv
    rcases hk with hk | hk
    · exact absurd hv hk
    · rw [hl] at hk
      cases hk
  · exact h

/-- A configuration event after which the premises are still vouched for set the line, to low if the pin is a clock. -/
theorem configure_vouched {e : Env} {p : PinId} (h : (e.configure p).standing = .vouched) :
    e.standing = .vouched ∧ e.fault = none ∧ e.startsLow p (e.drawLevel p).1 = true ∧
      e.configure p = (e.drawLevel p).2.setLine p (e.drawLevel p).1 := by
  obtain ⟨gs, k, hd⟩ := drawLevel_spec e p
  obtain ⟨hl, hs, -⟩ := keepVouch_vouched h
  obtain ⟨-, hf, h3⟩ := settle_standing_ne (by simp [hs] :
    ((e.drawLevel p).2.setLine p (e.drawLevel p).1).settle.standing ≠ .failed)
  rw [h3, setLine_standing] at hs
  simp only [hd, setLine_fault] at hs hf
  exact ⟨hs, hf, hl, configure_eq_setLine e p hf (by simp [hs]) (.inr hl)⟩

/-! ### How the standing can change: it stays, or a premise fails -/

theorem settle_standing_cases (e : Env) : e.settle.standing = e.standing ∨ e.settle.standing = .failed := by
  rw [settle_standing]
  split <;> simp

theorem keepVouch_standing_cases (ok : Bool) (e : Env) :
    (e.keepVouch ok).standing = e.standing ∨ (e.keepVouch ok).standing = .failed := by
  rcases keepVouch_cases ok e with ⟨-, -, h⟩ | ⟨-, h⟩ <;> simp [h]

theorem write_standing_cases (e : Env) (p : PinId) (lvl : Level) :
    (e.write p lvl).standing = e.standing ∨ (e.write p lvl).standing = .failed := by
  by_cases h : (e.write p lvl).standing = .failed
  · exact .inr h
  · obtain ⟨-, -, -, h4⟩ := write_standing_ne h
    exact .inl (by rw [h4, setLine_standing])

theorem configure_standing_cases (e : Env) (p : PinId) :
    (e.configure p).standing = e.standing ∨ (e.configure p).standing = .failed := by
  obtain ⟨gs, k, hd⟩ := drawLevel_spec e p
  unfold Env.configure
  rcases keepVouch_standing_cases (e.startsLow p (e.drawLevel p).1)
    ((e.drawLevel p).2.setLine p (e.drawLevel p).1).settle with h | h
  · rw [h]
    simpa [hd] using settle_standing_cases ((e.drawLevel p).2.setLine p (e.drawLevel p).1)
  · exact .inr h

/-- A configuration event while there is no fault sets the one line to the drawn level (R221). -/
theorem configure_level (e : Env) (p q : PinId) (hf : e.fault = none) :
    lineLevel (e.configure p).lines q = if q = p then some (e.drawLevel p).1 else lineLevel e.lines q := by
  obtain ⟨gs, k, hd⟩ := drawLevel_spec e p
  have : (e.configure p).lines = setLineLevel e.lines p (e.drawLevel p).1 := by
    refine (keepVouch_lines _ _).1.trans ((settle_lines _ ?_).trans ?_) <;> simp [hd, hf]
  rw [this, lineLevel_setLineLevel]

/-- A configuration event with a given level takes that level (R221, D14). -/
theorem configure_given (e : Env) (p : PinId) (lvl : Level) (rest : List Level) (hg : e.givenLevels = lvl :: rest) :
    (e.drawLevel p).1 = lvl ∧ (e.configure p).givenLevels = rest := by
  refine ⟨by simp [Env.drawLevel, hg], (keepVouch_lines _ _).2.2.1.trans ?_⟩
  simp [Env.drawLevel, hg]

/-! ### Edges on three different pins -/

theorem setLine_noEdge (e : Env) (p : PinId) (lvl : Level)
    (h : lvl = .low ∨ lineLevel e.lines p = some lvl ∨ lineLevel e.lines p = none ∨
      (p ≠ e.chain.srclkPin ∧ p ≠ e.chain.rclkPin)) :
    e.setLine p lvl = { e with lines := setLineLevel e.lines p lvl } := by
  rcases setLine_cases e p lvl with ⟨h1, h2, hs⟩ | ⟨-, hs⟩
  · subst h2
    simp only [h1] at h
    have hp : p ≠ e.chain.srclkPin ∧ p ≠ e.chain.rclkPin := by simpa using h
    rw [hs]
    simp [Env.risingEdge, hp.1, hp.2]
  · exact hs

theorem setLine_shiftEdge (e : Env) (lvl : Level) (h1 : e.chain.serPin ≠ e.chain.srclkPin)
    (h2 : e.chain.srclkPin ≠ e.chain.rclkPin) (hl : lineLevel e.lines e.chain.srclkPin = some .low)
    (hs : lineLevel e.lines e.chain.serPin = some lvl) :
    e.setLine e.chain.srclkPin .high =
      { e with lines := setLineLevel e.lines e.chain.srclkPin .high, chain := e.chain.shiftIn (bitOf lvl) } := by
  have h3 : lineLevel (setLineLevel e.lines e.chain.srclkPin .high) e.chain.serPin = some lvl := by
    rw [lineLevel_setLineLevel, if_neg h1, hs]
  unfold Env.setLine
  rw [hl]
  simp [Env.risingEdge, Env.shiftEdge, Env.serialLevel, h1, h3, Chain.shiftIn, h2]

theorem setLine_latchEdge (e : Env) (h2 : e.chain.srclkPin ≠ e.chain.rclkPin)
    (hl : lineLevel e.lines e.chain.rclkPin = some .low) :
    e.setLine e.chain.rclkPin .high =
      { e with
        lines := setLineLevel e.lines e.chain.rclkPin .high
        chain := { e.chain with storage := e.chain.stages } } := by
  unfold Env.setLine
  rw [hl]
  simp [Env.risingEdge, Env.latchEdge, h2, h2.symm]

end Sys2Proof.Laws
end

