-- ==== Sys2Proof/Laws/Operands.lean ====
section
/-! SUPPORT. What the operand checks and the encoders answer. -/

namespace Sys2Proof.Laws

open Sys2Proof.Machine

@[simp] theorem length_zeros (k : Nat) : (zeros k).length = k := by simp [zeros]

theorem capacity_eq (n : Nat) : capacity n = 8 * n := rfl

theorem checkPin_ok {c : Config.Params} {why : Reason} {p q : Int} :
    checkPin c why p = .ok q ↔ c.pinValid p = true ∧ q = p := by
  unfold checkPin
  cases c.pinValid p
  · simp
  · simp only [if_true, Except.ok.injEq, true_and]
    exact eq_comm

theorem checkPin_error {c : Config.Params} {why r : Reason} {p : Int} (h : checkPin c why p = .error r) :
    r = why := by
  unfold checkPin at h
  split at h <;> simp_all

theorem checkDepth_ok {c : Config.Params} {n : Int} {k : Nat} :
    checkDepth c n = .ok k ↔ n = (k : Int) ∧ 1 ≤ k ∧ c.depthTooLarge n = false := by
  unfold checkDepth
  split
  · next h =>
    simp only [reduceCtorEq, false_iff, not_and]
    omega
  · split
    · simp_all
    · next h h' =>
      simp only [Except.ok.injEq, h', and_true]
      omega

theorem checkDepth_error {c : Config.Params} {n : Int} {r : Reason} (h : checkDepth c n = .error r) :
    r = .depthNotPositive ∨ r = .depthExceedsCapacity := by
  unfold checkDepth at h
  split at h
  · simp_all
  · split at h <;> simp_all

/-- INIT's checks succeed exactly when all four operands are legal. -/
theorem checkInit_ok {c : Config.Params} {d s l n : Int} {g : Configuration} :
    checkInit c d s l n = .ok g ↔
      c.pinValid d = true ∧ c.pinValid s = true ∧ c.pinValid l = true ∧
        checkDepth c n = .ok g.chainDepth ∧ g.dataPin = d ∧ g.shiftClockPin = s ∧ g.latchClockPin = l := by
  obtain ⟨gd, gs, gl, gn⟩ := g
  unfold checkInit checkPin
  cases c.pinValid d <;> simp
  cases c.pinValid s <;> simp
  cases c.pinValid l <;> simp
  rcases checkDepth c n with r | k
  · simp
  · simp only [Except.ok.injEq, Configuration.mk.injEq]
    constructor
    · rintro ⟨rfl, rfl, rfl, rfl⟩
      exact ⟨rfl, rfl, rfl, rfl⟩
    · rintro ⟨rfl, rfl, rfl, rfl⟩
      exact ⟨rfl, rfl, rfl, rfl⟩

/-- A reason an operand check gives is never NONE. -/
theorem checkInit_error {c : Config.Params} {d s l n : Int} {r : Reason} (h : checkInit c d s l n = .error r) :
    r ≠ .none := by
  unfold checkInit checkPin at h
  cases hd : c.pinValid d <;> simp only [hd, Bool.false_eq_true, if_false, if_true] at h
  · simp_all
    simp [← h]
  cases hs : c.pinValid s <;> simp only [hs, Bool.false_eq_true, if_false, if_true] at h
  · simp_all
    simp [← h]
  cases hl : c.pinValid l <;> simp only [hl, Bool.false_eq_true, if_false, if_true] at h
  · simp_all
    simp [← h]
  rcases hn : checkDepth c n with r' | k <;> simp only [hn] at h
  · rcases checkDepth_error hn with rfl | rfl <;> · cases h; simp
  · simp at h

theorem encBits_error {es : List Elem} {r : Reason} (h : encBits es = .error r) : r = .elementNotBit := by
  induction es with
  | nil => simp [encBits] at h
  | cons e es ih =>
    unfold encBits at h
    split at h
    · simp_all
    · split at h <;> simp_all

theorem encInt_error {v : Int} {r : Reason} (h : encInt v = .error r) : r = .negativeInteger := by
  unfold encInt at h
  split at h
  · simp_all
  · split at h <;> simp_all

end Sys2Proof.Laws
end

