-- ==== Sys2Proof/Laws/Ops.lean ====
section
/-! SUPPORT. What the shared operations, `exec` and `step` can do, said once each: later proofs cite these and do not unfold
them. -/

namespace Sys2Proof.Laws

open Sys2Proof.Machine

/-! ### Performing action lists -/

@[simp] theorem perform_advance (s : State) (b : Bit) :
    s.perform (.advance b) = { s with shadow := advance s.shadow b } := rfl

@[simp] theorem perform_pinWrite (s : State) (p : PinId) (lvl : Level) :
    s.perform (.pinWrite p lvl) = { s with trace := s.trace ++ [.write p lvl], env := s.env.write p lvl } := rfl

@[simp] theorem perform_pinConfigOut (s : State) (p : PinId) :
    s.perform (.pinConfigOut p) = { s with trace := s.trace ++ [.cfgOut p], env := s.env.configure p } := rfl

/-- An action list advances the shadow by its bits. -/
theorem performAll_shadow (s : State) (as : List Action) :
    (s.performAll as).shadow = advanceAll s.shadow (bitsOf as) := by
  induction as generalizing s with
  | nil => rfl
  | cons a as ih => cases a <;> simp [ih, bitsOf, advanceAll]

/-- An action list appends its events to the trace. -/
theorem performAll_trace (s : State) (as : List Action) : (s.performAll as).trace = s.trace ++ eventsOf as := by
  induction as generalizing s with
  | nil => simp [eventsOf]
  | cons a as ih => cases a <;> simp [ih, eventsOf]

/-- What an action list does to a state depends on no field but the three it changes. -/
theorem performAll_eq (s : State) (as : List Action) :
    s.performAll as = { s with
      shadow := advanceAll s.shadow (bitsOf as)
      trace := s.trace ++ eventsOf as
      env := (s.performAll as).env } := by
  induction as generalizing s with
  | nil => simp [eventsOf, bitsOf, advanceAll]
  | cons a as ih =>
    rw [performAll_cons, ih]
    cases a <;> simp [eventsOf, bitsOf, advanceAll]

/-- The environment after an action list depends on the environment before it alone. -/
theorem performAll_env_congr (s t : State) (as : List Action) (h : s.env = t.env) :
    (s.performAll as).env = (t.performAll as).env := by
  induction as generalizing s t with
  | nil => exact h
  | cons a as ih =>
    refine ih _ _ ?_
    cases a <;> simp [h]

theorem performAll_env_keeps (s : State) (as : List Action) : EnvKeeps s.env (s.performAll as).env := by
  induction as generalizing s with
  | nil => exact EnvKeeps.refl _
  | cons a as ih =>
    refine EnvKeeps.trans ?_ (ih _)
    cases a
    · exact configure_keeps _ _
    · exact write_keeps _ _ _
    · exact EnvKeeps.refl _

/-- No action makes the chain vouched for again. -/
theorem perform_unvouched (s : State) (a : Action) (h : s.env.standing ≠ .vouched) :
    (s.perform a).env.standing ≠ .vouched := by
  cases a with
  | advance b => exact h
  | pinWrite p lvl => exact fun hc => h (write_vouched hc).1
  | pinConfigOut p => exact fun hc => h (configure_vouched hc).1

/-- Nothing is said of a chain that is not vouched for. -/
theorem mirrorsAfter_unvouched (as : List Action) (s : State) (h : s.env.standing ≠ .vouched) : MirrorsAfter as s := by
  induction as generalizing s with
  | nil => exact fun hv => absurd hv h
  | cons a as ih => exact fun e he => ih _ (perform_unvouched _ a (fun hv => h (he.standing.symm.trans hv)))

/-! ### The transaction -/

@[simp] theorem txn_nil (d s l : PinId) : txn d s l [] = pulse l := rfl

theorem txn_cons (d s l : PinId) (b : Bit) (bits : BitSequence) :
    txn d s l (b :: bits) = [.pinWrite d (levelOf b), .advance b, .pinWrite s .high, .pinWrite s .low] ++
      txn d s l bits := by
  simp [txn, serializeBit, pulse]

theorem bitsOf_append (as bs : List Action) : bitsOf (as ++ bs) = bitsOf as ++ bitsOf bs := by
  simp [bitsOf]

theorem eventsOf_append (as bs : List Action) : eventsOf (as ++ bs) = eventsOf as ++ eventsOf bs := by
  simp [eventsOf]

theorem eventsOf_txn_cons (d s l : PinId) (b : Bit) (bits : BitSequence) :
    eventsOf (txn d s l (b :: bits)) =
      [.write d (levelOf b), .write s .high, .write s .low] ++ eventsOf (txn d s l bits) := by
  rw [txn_cons, eventsOf_append]
  rfl

theorem eventsOf_txn_zeros (d s l : PinId) (k : Nat) : eventsOf (txn d s l (zeros k)) = clearEvents d s l k := by
  induction k with
  | zero => rfl
  | succ k ih =>
    have : zeros (k + 1) = false :: zeros k := List.replicate_succ
    rw [this, eventsOf_txn_cons, ih]
    simp [clearEvents, List.replicate_succ, levelOf]

theorem actionOnRoles_txn (c : Configuration) (bits : BitSequence) :
    ∀ a ∈ txn c.dataPin c.shiftClockPin c.latchClockPin bits, ActionOnRoles c a := by
  induction bits with
  | nil => simp [pulse, ActionOnRoles]
  | cons b bits ih =>
    rw [txn_cons]
    intro a ha
    rcases List.mem_append.mp ha with ha | ha
    · simp only [List.mem_cons, List.not_mem_nil, or_false] at ha
      rcases ha with rfl | rfl | rfl | rfl <;> simp [ActionOnRoles]
    · exact ih a ha

/-! ### Rejection and acceptance -/

theorem decoderReject_eq (r : DecodeReject) (s : State) :
    ∃ st rs, st ≠ .ok ∧ (rs ≠ .none ↔ st = .invalidArgument) ∧ s.decoderReject r = s.reject st rs := by
  cases r
  · exact ⟨.unknownCommand, .none, by simp, by simp, rfl⟩
  · exact ⟨.invalidArgument, .boolNotBoolean, by simp, by simp, rfl⟩

/-- A command presented while Busy waits. -/
theorem exec_busy (i : Instr) (s : State) (h : s.phase = .busy) : exec i s = .next s := by
  cases i <;>
    simp [exec, execInit, execSetDataPin, execSetShiftPin, execSetLatchPin, execSetDepth, execShiftBits, execShiftInt,
      execShiftBool, execReadState, execClear, State.whenReady, State.whenConstructed, h]

/-- Every command answers a next state. -/
theorem exec_next (i : Instr) (s : State) : ∃ t, exec i s = .next t := by
  cases i <;> exact ⟨_, rfl⟩

/-- What an accepted command other than INIT does, by its family. -/
inductive AcceptedIdle (s : State) : Instr → State → Prop
  | data (p : Int) (h : s.params.pinValid p = true) :
      AcceptedIdle s (.setDataPin p) (s.replaceConfig { s.cfg with dataPin := p })
  | shiftClock (p : Int) (h : s.params.pinValid p = true) :
      AcceptedIdle s (.setShiftPin p) (s.replaceConfig { s.cfg with shiftClockPin := p })
  | latchClock (p : Int) (h : s.params.pinValid p = true) :
      AcceptedIdle s (.setLatchPin p) (s.replaceConfig { s.cfg with latchClockPin := p })
  | depth (n : Nat) (h : checkDepth s.params (n : Int) = .ok n) : AcceptedIdle s (.setDepth (n : Int)) (s.resize n)
  | shift (i : Instr) (bits : BitSequence) (h : ShiftsBits i bits) : AcceptedIdle s i (s.startShift bits)
  | clear : AcceptedIdle s .clear s.startClear
  | read : AcceptedIdle s .readState (s.accept [] (stateReply s))

theorem whenConstructed_idle (body : State → State) (s : State) (h : s.phase = .idle) :
    s.whenConstructed body = body s := by
  simp [State.whenConstructed, h]

theorem whenConstructed_unconstructed (body : State → State) (s : State) (h : s.phase = .unconstructed) :
    s.whenConstructed body = s.reject .notInitialized .none := by
  simp [State.whenConstructed, h]

theorem whenReady_ready (body : State → State) (s : State) (h : s.phase ≠ .busy) :
    s.whenReady body = body s := by
  unfold State.whenReady
  split
  · rfl
  · rfl
  · next hb => exact absurd hb h

/-- A checked operand: a rejection with the check's reason, or the effect. -/
theorem checked_cases {α : Type} (operand : Except Reason α) (effect : α → State → State) (s : State) :
    (∃ r, operand = .error r ∧ s.checked operand effect = s.reject .invalidArgument r) ∨
      ∃ a, operand = .ok a ∧ s.checked operand effect = effect a s := by
  rcases operand with r | a
  · exact .inl ⟨r, rfl, rfl⟩
  · exact .inr ⟨a, rfl, rfl⟩

/-- What `exec` can do when the block is not Busy: reject, construct, or (when Idle) accept. -/
theorem exec_cases {i : Instr} {s t : State} (h : exec i s = .next t) (hb : s.phase ≠ .busy) :
    (∃ st rs, st ≠ .ok ∧ (rs ≠ .none ↔ st = .invalidArgument) ∧ t = s.reject st rs) ∨
    (∃ d sh l n c, i = .init d sh l n ∧ checkInit s.params d sh l n = .ok c ∧ t = s.construct c) ∨
    (s.phase = .idle ∧ AcceptedIdle s i t) := by
  have rej : ∀ r : Reason, r ≠ .none → t = s.reject .invalidArgument r →
      ∃ st rs, st ≠ .ok ∧ (rs ≠ .none ↔ st = .invalidArgument) ∧ t = s.reject st rs :=
    fun r hr ht => ⟨.invalidArgument, r, by simp, by simp [hr], ht⟩
  by_cases hinit : ∃ d sh l n, i = .init d sh l n
  · obtain ⟨d, sh, l, n, rfl⟩ := hinit
    have ht : t = s.checked (checkInit s.params d sh l n) State.construct := by
      simp only [exec, execInit, whenReady_ready _ s hb, Host.Outcome.next.injEq] at h
      exact h.symm
    rcases checked_cases (checkInit s.params d sh l n) State.construct s with ⟨r, hr, e⟩ | ⟨c, hc, e⟩
    · exact .inl (rej r (checkInit_error hr) (ht.trans e))
    · exact .inr (.inl ⟨d, sh, l, n, c, rfl, hc, ht.trans e⟩)
  · rcases hp : s.phase with _ | _ | _
    · refine .inl ⟨.notInitialized, .none, by simp, by simp, ?_⟩
      cases i with
      | init d sh l n => exact absurd ⟨d, sh, l, n, rfl⟩ hinit
      | _ =>
        simp only [exec, execSetDataPin, execSetShiftPin, execSetLatchPin, execSetDepth, execShiftBits, execShiftInt,
          execShiftBool, execReadState, execClear, whenConstructed_unconstructed _ s hp,
          Host.Outcome.next.injEq] at h
        exact h.symm
    · have acc : AcceptedIdle s i t → (∃ st rs, st ≠ .ok ∧ (rs ≠ .none ↔ st = .invalidArgument) ∧ t = s.reject st rs) ∨
          (∃ d sh l n c, i = .init d sh l n ∧ checkInit s.params d sh l n = .ok c ∧ t = s.construct c) ∨
            (Phase.idle = .idle ∧ AcceptedIdle s i t) := fun h => .inr (.inr ⟨rfl, h⟩)
      cases i with
      | init d sh l n => exact absurd ⟨d, sh, l, n, rfl⟩ hinit
      | setDataPin p =>
        simp only [exec, execSetDataPin, whenConstructed_idle _ s hp, Host.Outcome.next.injEq] at h
        subst h
        rcases checked_cases (checkPin s.params .dataPinInvalid p) (fun q u => u.replaceConfig { u.cfg with dataPin := q }) s
          with ⟨r, hr, e⟩ | ⟨q, hq, e⟩
        · exact .inl (rej r (by rw [checkPin_error hr]; simp) e)
        · obtain ⟨hv, rfl⟩ := checkPin_ok.mp hq
          exact acc (e ▸ .data q hv)
      | setShiftPin p =>
        simp only [exec, execSetShiftPin, whenConstructed_idle _ s hp, Host.Outcome.next.injEq] at h
        subst h
        rcases checked_cases (checkPin s.params .shiftPinInvalid p)
          (fun q u => u.replaceConfig { u.cfg with shiftClockPin := q }) s with ⟨r, hr, e⟩ | ⟨q, hq, e⟩
        · exact .inl (rej r (by rw [checkPin_error hr]; simp) e)
        · obtain ⟨hv, rfl⟩ := checkPin_ok.mp hq
          exact acc (e ▸ .shiftClock q hv)
      | setLatchPin p =>
        simp only [exec, execSetLatchPin, whenConstructed_idle _ s hp, Host.Outcome.next.injEq] at h
        subst h
        rcases checked_cases (checkPin s.params .latchPinInvalid p)
          (fun q u => u.replaceConfig { u.cfg with latchClockPin := q }) s with ⟨r, hr, e⟩ | ⟨q, hq, e⟩
        · exact .inl (rej r (by rw [checkPin_error hr]; simp) e)
        · obtain ⟨hv, rfl⟩ := checkPin_ok.mp hq
          exact acc (e ▸ .latchClock q hv)
      | setDepth n =>
        simp only [exec, execSetDepth, whenConstructed_idle _ s hp, Host.Outcome.next.injEq] at h
        subst h
        rcases checked_cases (checkDepth s.params n) State.resize s with ⟨r, hr, e⟩ | ⟨k, hk, e⟩
        · exact .inl (rej r (by rcases checkDepth_error hr with rfl | rfl <;> simp) e)
        · obtain ⟨rfl, -, -⟩ := checkDepth_ok.mp hk
          exact acc (e ▸ .depth k hk)
      | shiftBits es =>
        simp only [exec, execShiftBits, whenConstructed_idle _ s hp, Host.Outcome.next.injEq] at h
        subst h
        rcases checked_cases (encBits es) State.startShift s with ⟨r, hr, e⟩ | ⟨b, hb, e⟩
        · exact .inl (rej r (by rw [encBits_error hr]; simp) e)
        · exact acc (e ▸ .shift _ b hb)
      | shiftInt v =>
        simp only [exec, execShiftInt, whenConstructed_idle _ s hp, Host.Outcome.next.injEq] at h
        subst h
        rcases checked_cases (encInt v) State.startShift s with ⟨r, hr, e⟩ | ⟨b, hb, e⟩
        · exact .inl (rej r (by rw [encInt_error hr]; simp) e)
        · exact acc (e ▸ .shift _ b hb)
      | shiftBool v =>
        simp only [exec, execShiftBool, whenConstructed_idle _ s hp, Host.Outcome.next.injEq] at h
        subst h
        rcases checked_cases (encBool v) State.startShift s with ⟨r, hr, -⟩ | ⟨b, hb, e⟩
        · simp [encBool] at hr
        · exact acc (e ▸ .shift _ b hb)
      | readState =>
        simp only [exec, execReadState, whenConstructed_idle _ s hp, Host.Outcome.next.injEq] at h
        exact acc (h ▸ .read)
      | clear =>
        simp only [exec, execClear, whenConstructed_idle _ s hp, Host.Outcome.next.injEq] at h
        exact acc (h ▸ .clear)
    · exact absurd hp hb

/-! ### Steps -/

/-- The state in which the block moves: one turn of the host's schedule has passed. -/
theorem turn_noMoveDue (s : State) (h : noMoveDue s.host = true) :
    s.turn = State.blockTurn { s with host := passTurn s.host } := by
  unfold State.turn
  rcases hh : s.host with _ | ⟨⟨k, act⟩, rest⟩
  · cases s; simp_all [passTurn]
  · simp only [hh, noMoveDue, decide_eq_true_eq] at h
    obtain ⟨m, rfl⟩ : ∃ m, k = m + 1 := ⟨k - 1, by omega⟩
    simp [passTurn]

theorem step_busy (s : State) (hb : s.phase = .busy) (h : noMoveDue s.host = true) :
    step s = .next (State.sequencerStep { s with host := passTurn s.host }) := by
  simp [step, turn_noMoveDue s h, State.blockTurn, hb]

theorem step_port (s : State) (hb : s.phase ≠ .busy) (h : noMoveDue s.host = true) :
    step s = match decode s.port with
      | .cmd i n => exec i (State.consume n { s with host := passTurn s.host })
      | .reject r n => .next ((State.consume n { s with host := passTurn s.host }).decoderReject r)
      | .incomplete => .next { s with host := passTurn s.host } := by
  simp only [step, turn_noMoveDue s h]
  rcases hp : s.phase with _ | _ | _
  · simp only [State.blockTurn, State.portTurn]
    cases decode s.port <;> rfl
  · simp only [State.blockTurn, State.portTurn]
    cases decode s.port <;> rfl
  · exact absurd hp hb

/-- What a step can do. -/
theorem step_cases {s t : State} (h : step s = .next t) :
    (∃ act rest, s.host = { after := 0, act := act } :: rest ∧ t = State.hostAct { s with host := rest } act) ∨
    (noMoveDue s.host = true ∧ s.phase = .busy ∧ t = State.sequencerStep { s with host := passTurn s.host }) ∨
    (noMoveDue s.host = true ∧ s.phase ≠ .busy ∧ ∃ i n, decode s.port = .cmd i n ∧
      exec i (State.consume n { s with host := passTurn s.host }) = .next t) ∨
    (noMoveDue s.host = true ∧ s.phase ≠ .busy ∧ ∃ r n, decode s.port = .reject r n ∧
      t = (State.consume n { s with host := passTurn s.host }).decoderReject r) ∨
    (noMoveDue s.host = true ∧ s.phase ≠ .busy ∧ decode s.port = .incomplete ∧
      t = { s with host := passTurn s.host }) := by
  by_cases hd : noMoveDue s.host = true
  · refine .inr ?_
    by_cases hb : s.phase = .busy
    · rw [step_busy s hb hd, Host.Outcome.next.injEq] at h
      exact .inl ⟨hd, hb, h.symm⟩
    · rw [step_port s hb hd] at h
      rcases hp : decode s.port with ⟨i, n⟩ | ⟨r, n⟩ | _
      · simp only [hp] at h
        exact .inr (.inl ⟨hd, hb, i, n, rfl, h⟩)
      · simp only [hp, Host.Outcome.next.injEq] at h
        exact .inr (.inr (.inl ⟨hd, hb, r, n, rfl, h.symm⟩))
      · simp only [hp, Host.Outcome.next.injEq] at h
        exact .inr (.inr (.inr ⟨hd, hb, rfl, h.symm⟩))
  · rcases hh : s.host with _ | ⟨⟨k, act⟩, rest⟩
    · simp [hh, noMoveDue] at hd
    · simp only [hh, noMoveDue, decide_eq_true_eq, not_lt, Nat.le_zero] at hd
      subst hd
      refine .inl ⟨act, rest, rfl, ?_⟩
      simp only [step, State.turn, hh, Host.Outcome.next.injEq] at h
      exact h.symm

theorem steps_succ (n : Nat) (s t : State) (h : step s = .next t) : steps (n + 1) s = steps n t := by
  simp [steps, h]

theorem steps_add (m n : Nat) (s t : State) (h : steps m s = .next t) : steps (m + n) s = steps n t := by
  induction m generalizing s with
  | zero =>
    simp only [steps, Host.Outcome.next.injEq] at h
    simp [h]
  | succ m ih =>
    rcases hs : step s with u | f | r
    · rw [Nat.succ_add, steps_succ _ _ _ hs]
      exact ih u (by rwa [steps_succ _ _ _ hs] at h)
    · simp [steps, hs] at h
    · simp [steps, hs] at h

end Sys2Proof.Laws
end

