-- ==== Sys2Proof/Laws/PerInstr.lean ====
section
/-! SUPPORT. The statements made once for every command as syntax. Family `FrameLength`: the total length of a command's
frame (30_encoding.md R71, R74). -/

namespace Sys2Proof.Laws.FrameLength

/-- The total of a command's format (R71). -/
def total : Instr → Nat
  | .init _ _ _ _ => 17
  | .setDataPin _ => 5
  | .setShiftPin _ => 5
  | .setLatchPin _ => 5
  | .setDepth _ => 5
  | .shiftBits es => 5 + es.length
  | .shiftInt _ => 9
  | .shiftBool _ => 2
  | .readState => 1
  | .clear => 1

/-- The frame of `i` has the length of its format. -/
def Statement (i : Instr) : Prop :=
  (encode i).length = total i

theorem init (d s l n : Int) : Statement (.init d s l n) := rfl

theorem setDataPin (p : Int) : Statement (.setDataPin p) := rfl

theorem setShiftPin (p : Int) : Statement (.setShiftPin p) := rfl

theorem setLatchPin (p : Int) : Statement (.setLatchPin p) := rfl

theorem setDepth (n : Int) : Statement (.setDepth n) := rfl

theorem shiftBits (es : List Elem) : Statement (.shiftBits es) := by
  simp [Statement, encode, total, bytesLE]
  omega

theorem shiftInt (v : Int) : Statement (.shiftInt v) := rfl

theorem shiftBool (b : Bool) : Statement (.shiftBool b) := rfl

theorem readState : Statement .readState := rfl

theorem clear : Statement .clear := rfl

end Sys2Proof.Laws.FrameLength
end

