-- ==== Sys2Proof/Tests/Slice0.lean ====
section
/-! SUPPORT. The model's own tests. Expected results are the vectors of 95_test_vectors.md (V-...), the encodings of
30_encoding.md, or worked out by hand from the rules named; none is the model's own answer. Then one witness for the
hypotheses of each statement that has some. -/

namespace Sys2Proof.Tests

open Sys2Proof.Machine

/-! ### Helpers -/

/-- A bit string of the vectors. -/
def bits (ds : List Nat) : List Bit :=
  ds.map fun d => d == 1

/-- One field of the state an outcome ends in. -/
def field {α : Type} (f : State → α) : Host.Outcome State Fault Refusal → Option α
  | .next t => some (f t)
  | .fault _ => none
  | .refused _ => none

/-- The last reply of a state, with its two status registers. -/
def answer (s : State) : Option Reply × BitVec 8 × BitVec 8 :=
  ((repliesOf s.trace).getLast?, s.lastStatus, s.lastReason)

/-- The chain of V-CH1: one chip, power-on stages 10110111 and storage 11111111. -/
def powerOnChain : Chain :=
  { chips := 1, serPin := 17, srclkPin := 27, rclkPin := 22
    stages := bits [1, 0, 1, 1, 0, 1, 1, 1], storage := bits [1, 1, 1, 1, 1, 1, 1, 1] }

/-- Power-on with the chain of V-CH1, which no INIT has set, and three low levels to be drawn. -/
def blank : State :=
  { State.reset with
    env :=
      { lines := [], fault := none, chain := powerOnChain, standing := .fresh, givenLevels := [.low, .low, .low], draws := 0 } }

/-- Program P1 after SHIFT_INT 12: Idle, `cfg = (17, 27, 22, 1)`, shadow 00001100, all lines low, the chain as in V-CH2. The
trace is left out. -/
def idle : State :=
  { blank with
    phase := .idle
    cfg := { dataPin := 17, shiftClockPin := 27, latchClockPin := 22, chainDepth := 1 }
    shadow := bits [0, 0, 0, 0, 1, 1, 0, 0]
    env :=
      { lines := [(17, .low), (22, .low), (27, .low)]
        fault := none
        chain :=
          { powerOnChain with
            stages := bits [0, 0, 1, 1, 0, 0, 0, 0], storage := bits [0, 0, 1, 1, 0, 0, 0, 0] }
        standing := .vouched
        givenLevels := []
        draws := 0 } }

/-- `idle` with the accepted command SHIFT_BOOL true in progress. -/
def busy : State :=
  idle.accepted
    [.pinWrite 17 .high, .advance true, .pinWrite 27 .high, .pinWrite 27 .low, .pinWrite 22 .high, .pinWrite 22 .low] okReply

/-- A state with these bytes at the port. -/
def withPort (bytes : List Byte) (s : State) : State :=
  { s with port := bytes }

/-- A state with this one move of the host to come. -/
def withMove (after : Nat) (act : HostAct) (s : State) : State :=
  { s with host := [{ after := after, act := act }] }

/-! ### Well-formedness: each check refuses a term -/

theorem test_wf_init_d : Instr.wellFormed (.init 2147483648 27 22 1) = false := by decide
theorem test_wf_init_s : Instr.wellFormed (.init 17 (-2147483649) 22 1) = false := by decide
theorem test_wf_init_l : Instr.wellFormed (.init 17 27 2147483648 1) = false := by decide
theorem test_wf_init_n : Instr.wellFormed (.init 17 27 22 4294967297) = false := by decide
theorem test_wf_setDataPin : Instr.wellFormed (.setDataPin (-2147483649)) = false := by decide
theorem test_wf_setShiftPin : Instr.wellFormed (.setShiftPin 2147483648) = false := by decide
theorem test_wf_setLatchPin : Instr.wellFormed (.setLatchPin 2147483648) = false := by decide
theorem test_wf_setDepth : Instr.wellFormed (.setDepth 2147483648) = false := by decide
theorem test_wf_shiftInt_high : Instr.wellFormed (.shiftInt 9223372036854775808) = false := by decide
theorem test_wf_shiftInt_low : Instr.wellFormed (.shiftInt (-9223372036854775809)) = false := by decide
theorem test_wf_element_low : Instr.wellFormed (.shiftBits [.int 1, .int (-1)]) = false := by decide
theorem test_wf_element_high : Instr.wellFormed (.shiftBits [.int 256]) = false := by decide
theorem test_wf_element_bool : Instr.wellFormed (.shiftBits [.bool true]) = false := by decide
theorem test_wf_list_too_long : lengthFits (List.replicate (2 ^ 32) (.int 0)) = false := by
  simp only [lengthFits, List.length_replicate, lt_irrefl, decide_false]
theorem test_asm_element : Instr.assemblable (.shiftBits [.bool true, .int 256]) = false := by decide
theorem test_asm_pin : Instr.assemblable (.setDataPin 2147483648) = false := by decide
theorem test_wf_accepts : (Instr.wellFormed (.init (-2147483648) 2147483647 0 (-1)) &&
    Instr.wellFormed (.shiftInt (-9223372036854775808)) && Instr.wellFormed (.shiftBits [.int 0, .int 255])) = true := by
  decide

/-! ### Decoding: one word written out from R71-R73 for each constructor -/

theorem test_decode_init :
    decode [0x01, 0x11, 0, 0, 0, 0x1B, 0, 0, 0, 0x16, 0, 0, 0, 0x02, 0x01, 0, 0] = .cmd (.init 17 27 22 258) 17 := by decide
theorem test_decode_setDataPin : decode [0x02, 0xFE, 0xFF, 0xFF, 0xFF] = .cmd (.setDataPin (-2)) 5 := by decide
theorem test_decode_setShiftPin : decode [0x03, 0, 0, 0, 0x80] = .cmd (.setShiftPin (-2147483648)) 5 := by decide
theorem test_decode_setLatchPin : decode [0x04, 0x04, 0x03, 0x02, 0x01] = .cmd (.setLatchPin 16909060) 5 := by decide
theorem test_decode_setDepth : decode [0x05, 0x02, 0, 0, 0] = .cmd (.setDepth 2) 5 := by decide
theorem test_decode_shiftBits :
    decode [0x10, 0x03, 0, 0, 0, 0x01, 0x00, 0xFF] = .cmd (.shiftBits [.int 1, .int 0, .int 255]) 8 := by decide
theorem test_decode_shiftInt :
    decode [0x11, 0xE7, 0x03, 0, 0, 0, 0, 0, 0] = .cmd (.shiftInt 999) 9 := by decide
theorem test_decode_shiftBool : decode [0x12, 0x00] = .cmd (.shiftBool false) 2 := by decide
theorem test_decode_readState : decode [0x13, 0x14] = .cmd .readState 1 := by decide
theorem test_decode_clear : decode [0x14] = .cmd .clear 1 := by decide

/-- V-EN8 and V-EN15: the two ends of the int64 field. -/
theorem test_decode_int64_ends :
    decode [0x11, 0xFF, 0xFF, 0xFF, 0xFF, 0xFF, 0xFF, 0xFF, 0x7F] = .cmd (.shiftInt 9223372036854775807) 9 ∧
      decode [0x11, 0, 0, 0, 0, 0, 0, 0, 0x80] = .cmd (.shiftInt (-9223372036854775808)) 9 := by decide

/-- V-DE2 to V-DE6, and V-DE11. -/
theorem test_decode_rejects :
    decode [0xFF] = .reject .unknownCommand 1 ∧ decode [0x15] = .reject .unknownCommand 1 ∧
      decode [0x06] = .reject .unknownCommand 1 ∧ decode [0x00] = .reject .unknownCommand 1 ∧
      decode [0x12, 0x02] = .reject .boolNotBoolean 2 ∧
      decode [0x10, 0x05, 0, 0, 0, 0x01, 0x01] = .incomplete := by decide

theorem test_table_word_readState : decodeTableWord 8 0x13 = some .readState := by decide
theorem test_table_word_init : decodeTableWord 136 0x00000001000000160000001B0000001101 = some (.init 17 27 22 1) := by decide
theorem test_table_word_short : decodeTableWord 8 0x01 = some (.init 0 0 0 0) := by decide
theorem test_table_word_shiftBits : decodeTableWord 40 0x10 = some (.shiftBits []) := by decide
theorem test_table_word_reject : decodeTableWord 16 0x0212 = none := by decide
theorem test_fetch_word : step (idle.withFetchWord 72 0x0C11) = exec (.shiftInt 12) idle := by rfl

/-! ### The assembler (R81, R82) -/

/-- The lines of P1, with their comments. -/
theorem test_asm_P1 :
    Asm.assemble
        ["INIT 17, 27, 22, 1      ; 01 11 00".toList, "; a comment line".toList, "SHIFT_INT 12".toList, "READ_STATE".toList] =
      some [0x01, 0x11, 0, 0, 0, 0x1B, 0, 0, 0, 0x16, 0, 0, 0, 0x01, 0, 0, 0, 0x11, 0x0C, 0, 0, 0, 0, 0, 0, 0, 0x13] := by
  decide
theorem test_asm_list :
    Asm.assemble ["SHIFT_BITS [1, 0, true]".toList] = some [0x10, 0x03, 0, 0, 0, 0x01, 0x00, 0x01] := by decide
theorem test_asm_latch : Asm.assemble ["LATCH".toList] = some [0x10, 0, 0, 0, 0] := by decide
theorem test_asm_hex : Asm.line "SET_DEPTH -0x1F".toList = .command (.setDepth (-31)) := by decide
theorem test_asm_bool : Asm.line "SHIFT_BOOL true".toList = .command (.shiftBool true) := by decide
theorem test_asm_element_out_of_range : Asm.line "SHIFT_BITS [256]".toList = .malformed := by decide
theorem test_asm_missing_operand : Asm.line "SET_DATA_PIN".toList = .malformed := by decide
theorem test_asm_unknown_mnemonic : Asm.line "NOP".toList = .malformed := by decide

/-! ### Encoder and shadow -/

theorem test_encInt_12 : encInt 12 = .ok (bits [1, 1, 0, 0]) := by rfl
theorem test_encInt_999 : encInt 999 = .ok (bits [1, 1, 1, 1, 1, 0, 0, 1, 1, 1]) := by rfl
theorem test_encInt_0 : encInt 0 = .ok (bits [0]) := by rfl
theorem test_encInt_256 : encInt 256 = .ok (bits [1, 0, 0, 0, 0, 0, 0, 0, 0]) := by rfl
theorem test_encInt_negative : encInt (-1) = .error .negativeInteger := by rfl
theorem test_encBits : encBits [.int 1, .int 0, .bool true, .bool false] = .ok (bits [1, 0, 1, 0]) := by rfl
theorem test_encBits_bad : encBits [.int 1, .int 2] = .error .elementNotBit := by rfl
/-- V-SH3. -/
theorem test_advance_overflow :
    advanceAll (bits [0, 0, 0, 0, 0, 1, 0, 1]) (bits [1, 1, 1, 1, 1, 1, 1, 1, 0]) = bits [1, 1, 1, 1, 1, 1, 1, 0] := by decide
/-- V-SH5. -/
theorem test_advance_two_chips :
    advanceAll (bits [0, 0, 0, 0, 0, 0, 0, 0, 0, 0, 0, 0, 1, 0, 1, 1]) (bits [1, 1, 1, 1, 1, 0, 0, 1, 1, 1]) =
      bits [0, 0, 1, 0, 1, 1, 1, 1, 1, 1, 1, 0, 0, 1, 1, 1] := by decide
/-- V-SH9. -/
theorem test_reply_frame :
    Reply.frame { status := .ok, reason := .none, data := some (bits [0, 0, 0, 0, 1, 1, 0, 0]) } =
      [0x00, 0x00, 0x08, 0, 0, 0, 0, 0, 0, 0, 0x01, 0x01, 0, 0] := by decide

/-! ### The commands, one step each -/

/-- V-CF1: 37 actions, 29 of them events. -/
theorem test_init_accepts :
    field (fun t => (t.phase, t.cfg, t.shadow, t.seq.length, (eventsOf t.seq).length)) (exec (.init 17 27 22 1) blank) =
      some (.busy, { dataPin := 17, shiftClockPin := 27, latchClockPin := 22, chainDepth := 1 },
        bits [0, 0, 0, 0, 0, 0, 0, 0], 37, 29) := by decide
/-- V-CF4: the first failing operand is reported. -/
theorem test_init_first_failure :
    field (fun t => (t.phase, answer t)) (exec (.init (-1) 99 99 0) blank) =
      some (.unconstructed, some { status := .invalidArgument, reason := .dataPinInvalid, data := none }, 0x01, 0x01) := by
  decide
/-- V-CF9. -/
theorem test_setDataPin :
    field (fun t => (t.cfg.dataPin, t.seq, t.pendingReply)) (exec (.setDataPin 5) idle) =
      some (5, [], some { status := .ok, reason := .none, data := none }) := by decide
/-- V-CF12. -/
theorem test_setDataPin_invalid :
    field answer (exec (.setDataPin (-1)) idle) =
      some (some { status := .invalidArgument, reason := .dataPinInvalid, data := none }, 0x01, 0x01) := by decide
/-- V-CF10: no check against the other roles. -/
theorem test_setShiftPin :
    field (fun t => (t.cfg.shiftClockPin, t.cfg.dataPin)) (exec (.setShiftPin 17) idle) = some (17, 17) := by decide
/-- R103. -/
theorem test_setLatchPin :
    field (fun t => (t.cfg.latchClockPin, t.cfg.shiftClockPin)) (exec (.setLatchPin 0) idle) = some (0, 27) := by decide
/-- V-CF11. -/
theorem test_setLatchPin_invalid :
    field answer (exec (.setLatchPin 28) idle) =
      some (some { status := .invalidArgument, reason := .latchPinInvalid, data := none }, 0x01, 0x03) := by decide
/-- V-CF8. -/
theorem test_setDepth :
    field (fun t => (t.cfg.chainDepth, t.shadow, t.seq.length)) (exec (.setDepth 2) idle) =
      some (2, bits [0, 0, 0, 0, 0, 0, 0, 0, 0, 0, 0, 0, 0, 0, 0, 0], 66) := by decide
/-- V-CF6, V-CF5's bound. -/
theorem test_setDepth_rejected :
    field answer (exec (.setDepth 0) idle) =
        some (some { status := .invalidArgument, reason := .depthNotPositive, data := none }, 0x01, 0x04) ∧
      field answer (exec (.setDepth 17) idle) =
        some (some { status := .invalidArgument, reason := .depthExceedsCapacity, data := none }, 0x01, 0x05) := by decide
/-- V-SQ1. -/
theorem test_shiftBits :
    field (fun t => eventsOf t.seq) (exec (.shiftBits [.int 1, .int 0, .int 1]) idle) =
      some [.write 17 .high, .write 27 .high, .write 27 .low, .write 17 .low, .write 27 .high, .write 27 .low,
        .write 17 .high, .write 27 .high, .write 27 .low, .write 22 .high, .write 22 .low] := by decide
/-- V-DE9. -/
theorem test_shiftBits_rejected :
    field (fun t => (t.seq, answer t)) (exec (.shiftBits [.int 1, .int 2]) idle) =
      some ([], some { status := .invalidArgument, reason := .elementNotBit, data := none }, 0x01, 0x06) := by decide
/-- V-SQ2. -/
theorem test_shiftInt :
    field (fun t => eventsOf t.seq) (exec (.shiftInt 12) idle) =
      some [.write 17 .high, .write 27 .high, .write 27 .low, .write 17 .high, .write 27 .high, .write 27 .low,
        .write 17 .low, .write 27 .high, .write 27 .low, .write 17 .low, .write 27 .high, .write 27 .low,
        .write 22 .high, .write 22 .low] := by decide
/-- V-DE7: NOT_INITIALIZED before the operand check. -/
theorem test_shiftInt_unconstructed :
    field answer (exec (.shiftInt (-1)) blank) =
      some (some { status := .notInitialized, reason := .none, data := none }, 0x03, 0x00) := by decide
/-- V-SQ3, R160's order. -/
theorem test_shiftBool : exec (.shiftBool true) idle = .next busy := by rfl
/-- R142. -/
theorem test_readState :
    field (fun t => (t.seq, t.pendingReply, t.shadow)) (exec .readState idle) =
      some ([], some { status := .ok, reason := .none, data := some (bits [0, 0, 0, 0, 1, 1, 0, 0]) },
        bits [0, 0, 0, 0, 1, 1, 0, 0]) := by decide
/-- V-SQ6. -/
theorem test_clear :
    field (fun t => (t.seq.length, (eventsOf t.seq).length, t.shadow)) (exec .clear idle) =
      some (34, 26, bits [0, 0, 0, 0, 1, 1, 0, 0]) := by decide

/-! ### Single steps -/

/-- V-DE6. -/
theorem test_step_bool_reject :
    field (fun t => (t.phase, t.port, answer t)) (step (withPort [0x12, 0x02] blank)) =
      some (.unconstructed, [], some { status := .invalidArgument, reason := .boolNotBoolean, data := none }, 0x01, 0x08) := by
  decide
/-- V-DE12: decoding resumes at the byte after the unknown opcode. -/
theorem test_step_unknown :
    field (fun t => (t.port, answer t)) (step (withPort [0xFF, 0x13] idle)) =
      some ([0x13], some { status := .unknownCommand, reason := .none, data := none }, 0x02, 0x00) := by decide
/-- V-DE13: while Busy the frame waits. -/
theorem test_step_busy_port :
    field (fun t => (t.port, t.seq.length)) (step (withPort [0x13] busy)) = some ([0x13], 5) := by decide
/-- R30: the reply step. -/
theorem test_step_reply :
    field (fun t => (t.phase, t.pendingReply, answer t)) (step (idle.accepted [] okReply)) =
      some (.idle, none, some { status := .ok, reason := .none, data := none }, 0x00, 0x00) := by decide
/-- R38, R36, U15: in mid-command the rest of the action list is dropped, the lines stay, the chain is a draw, and the command
has no reply. -/
theorem test_step_reset_input :
    step (withMove 0 .assertReset busy) = .next { State.reset with env := idle.env.unvouch, dropped := 1 } ∧
      idle.env.unvouch.lines = [(17, .low), (22, .low), (27, .low)] ∧
      idle.env.unvouch.chain.stages = (List.range 8).map (Config.openStage 0) := ⟨rfl, rfl, rfl⟩
/-- R245: the command that the reset input left without its reply keeps the run from being finished. -/
theorem test_dropped_not_finished :
    field State.finished (step (withMove 0 .assertReset busy)) = some false ∧
      field State.finished (step (withMove 0 .assertReset idle)) = some true := by decide
/-- R248: the wiring moves. -/
theorem test_step_rewire :
    field (fun t => (t.env.chain.serPin, t.env.chain.srclkPin, t.env.chain.rclkPin, t.env.standing))
      (step (withMove 0 (.rewire 5 6 7) idle)) = some (5, 6, 7, .failed) := by decide
/-- U14: another agent's write to a block's pin ends the vouch; a write to another configured pin does not. -/
theorem test_step_foreign_write :
    field (fun t => t.env.standing) (step (withMove 0 (.writePin 17 .high) idle)) = some .failed ∧
      field (fun t => (t.env.standing, t.env.chain))
        (step (withMove 0 (.writePin 5 .high) { idle with env := { idle.env with lines := (5, .low) :: idle.env.lines } })) =
        some (.vouched, idle.env.chain) := by decide
/-- R233: a role change, and a depth that is not the wired one, end the vouch; writing the same pin again does not. -/
theorem test_role_change_ends_the_vouch :
    field (fun t => t.env.standing) (exec (.setDataPin 5) idle) = some .failed ∧
      field (fun t => t.env.standing) (exec (.setDepth 2) idle) = some .failed ∧
      field (fun t => (t.env.standing, t.env.chain)) (exec (.setDataPin 17) idle) = some (.vouched, idle.env.chain) := by decide
/-- R247: a CLEAR with both clocks low sets the whole chain, so the chain is vouched for again. -/
theorem test_clear_vouches :
    field (fun t => t.env.standing) (exec .clear { idle with env := idle.env.unvouch }) = some .vouched ∧
      field (fun t => t.env.standing)
        (exec .clear { idle with env := { idle.env.unvouch with lines := [(17, .low), (22, .low), (27, .high)] } }) =
        some .failed := by decide
/-- R225: bytes the host presents arrive behind those that wait. -/
theorem test_step_present :
    field (fun t => (t.port, t.host)) (step (withMove 0 (.present [0x14]) (withPort [0x13] idle))) =
      some ([0x13, 0x14], []) := by decide

/-! ### The environment -/

/-- V-CH8, R227: the first two writes of SHIFT_BITS [1] change the stages and not the storage. -/
theorem test_shift_edge :
    ((idle.env.write 17 .high).write 27 .high).chain =
      { idle.env.chain with stages := bits [1, 0, 0, 1, 1, 0, 0, 0] } := by decide
/-- V-CH5's reason: a clock that is already high gives no edge. -/
theorem test_no_edge :
    (Env.write { idle.env with lines := [(17, .high), (22, .low), (27, .high)] } 27 .high).chain = idle.env.chain := by
  decide
/-- R229. -/
theorem test_latch_edge :
    (Env.write { idle.env with chain := { idle.env.chain with storage := bits [1, 1, 1, 1, 1, 1, 1, 1] } } 22 .high).chain =
      idle.env.chain := by decide
/-- V-CF15, R223: the fault is the environment's. -/
theorem test_unconfigured_write :
    (idle.env.write 5 .low).fault = some (.unconfiguredPinWrite 5) := by decide
/-- R221: the three configuration events of an INIT, with the clocks drawn low. -/
theorem test_configure :
    (((blank.env.configure 17).configure 27).configure 22).lines = [(17, .low), (22, .low), (27, .low)] := by decide
/-- V-CH5: a clock drawn high ends the vouch for the chain. -/
theorem test_clock_starts_high :
    (Env.configure { idle.env with givenLevels := [.high] } 27).standing = .failed ∧
      (Env.configure { idle.env with givenLevels := [.high] } 17).standing = .vouched := by decide
/-- R227, R229 before any INIT: from the power-on content of V-CH1, with all three pins configured, another agent's pulse on the
shift clock shifts, and one on the latch clock copies. -/
theorem test_fresh_chain_shifts_and_latches :
    let e := ((blank.env.configure 17).configure 27).configure 22
    ((e.write 17 .high).write 27 .high).chain = { powerOnChain with stages := bits [1, 1, 0, 1, 1, 0, 1, 1] } ∧
      (e.write 22 .high).chain = { powerOnChain with storage := bits [1, 0, 1, 1, 0, 1, 1, 1] } ∧
      ((e.write 17 .high).write 27 .low).chain = powerOnChain := by decide
/-- R221, R227: a configuration event that draws high for a low line is an edge; the serial pin is low. -/
theorem test_fresh_chain_configuration_edge :
    (Env.configure { blank.env with lines := [(17, .low), (27, .low)], givenLevels := [.high] } 27).chain =
      { powerOnChain with stages := bits [0, 1, 0, 1, 1, 0, 1, 1] } := by decide
/-- R36: the reset input while Idle leaves a drawn chain that follows its rules again; in mid-command it does not (U15). -/
theorem test_reset_standing :
    field (fun t => t.env.standing) (step (withMove 0 .assertReset idle)) = some .fresh ∧
      field (fun t => t.env.standing) (step (withMove 0 .assertReset busy)) = some .failed := by decide
/-- R231, V-CH2: chip 0 shows QC = QD = 1. -/
theorem test_outputs : idle.env.chain.outputs 0 = bits [0, 0, 1, 1, 0, 0, 0, 0] := by decide

/-! ### Witnesses: concrete data that meet the hypotheses of each statement, every clause at an edge of its range -/

theorem inv_blank : Inv blank where
  params := by decide
  configuration := fun h => absurd rfl h
  shadow := fun h => absurd rfl h
  sequencer := ⟨fun _ => ⟨rfl, rfl⟩, fun h => absurd h (by decide)⟩
  data := fun _ _ h => nomatch h
  roles := fun _ h => absurd h List.not_mem_nil
  status := ⟨rfl, rfl⟩
  replies := fun _ h => absurd h List.not_mem_nil
  lines := (by decide : linesWf blank.env.lines = true)
  chain := ⟨by decide, rfl, rfl⟩
  vouched := fun h => nomatch h
  standing := ⟨fun _ => rfl, fun _ => by decide⟩

theorem premises_idle : MirrorPremises idle :=
  ⟨rfl, rfl, rfl, rfl, by decide, by decide, by decide, rfl⟩

theorem premises_busy : MirrorPremises busy :=
  ⟨rfl, rfl, rfl, rfl, by decide, by decide, by decide, rfl⟩

theorem inv_idle : Inv idle where
  params := by decide
  configuration := fun _ => by decide
  shadow := fun _ => rfl
  sequencer := ⟨fun _ => ⟨rfl, rfl⟩, fun h => absurd h (by decide)⟩
  data := fun _ _ h => nomatch h
  roles := fun _ h => absurd h List.not_mem_nil
  status := ⟨rfl, rfl⟩
  replies := fun _ h => absurd h List.not_mem_nil
  lines := (by decide : linesWf idle.env.lines = true)
  chain := ⟨by decide, rfl, rfl⟩
  vouched := fun _ => premises_idle
  standing := ⟨nofun, nofun⟩

theorem inv_busy : Inv busy where
  params := by decide
  configuration := fun _ => by decide
  shadow := fun _ => rfl
  sequencer := ⟨fun h => absurd rfl h, fun _ => ⟨okReply, rfl, rfl, rfl⟩⟩
  data := fun r bs h hd => by
    cases (Option.some.inj h : okReply = r)
    exact nomatch hd
  roles := by simp [SequenceOnRoles, ActionOnRoles, busy, State.accepted, idle]
  status := ⟨rfl, rfl⟩
  replies := fun _ h => absurd h List.not_mem_nil
  lines := (by decide : linesWf busy.env.lines = true)
  chain := ⟨by decide, rfl, rfl⟩
  vouched := fun _ => premises_busy
  standing := ⟨nofun, nofun⟩

theorem witness_DecodeOfEncodeIsIdentity :
    Instr.wellFormed (.init (-2147483648) 2147483647 0 1) = true ∧
      Instr.wellFormed (.shiftBits [.int 0, .int 255]) = true ∧
      Instr.wellFormed (.shiftInt (-9223372036854775808)) = true := by decide

theorem witness_EncodeOfDecodeIsTheFrame :
    decode [0x10, 0x01, 0, 0, 0, 0xFF, 0x13] = .cmd (.shiftBits [.int 255]) 6 ∧ decode [0x14] = .cmd .clear 1 := by decide

theorem witness_AssembledListsDecodeToIntegerElements :
    Instr.assemblable (.shiftBits [.bool true, .int 255, .bool false, .int 0]) = true := by decide

theorem witness_UnassignedOpcodesAreRejected :
    (∀ op ∈ ([0x00, 0x06, 0x0F, 0x15, 0xFF] : List Byte),
      op.toNat = 0x00 ∨ (0x06 ≤ op.toNat ∧ op.toNat ≤ 0x0F) ∨ 0x15 ≤ op.toNat) ∧
    (∀ op ∈ ([0x01, 0x05, 0x10, 0x14] : List Byte),
      ¬ (op.toNat = 0x00 ∨ (0x06 ≤ op.toNat ∧ op.toNat ≤ 0x0F) ∨ 0x15 ≤ op.toNat)) ∧
    decode [0xFF, 0x13] = .reject .unknownCommand 1 ∧
    (withPort [0x15] blank).phase ≠ .busy ∧ noMoveDue (withPort [0x15] blank).host = true ∧
    (withPort [0x15] blank).port = 0x15 :: [] := by decide

theorem witness_NonBooleanByteIsRejected :
    (withPort [0x12, 0x02] blank).phase ≠ .busy ∧ noMoveDue (withPort [0x12, 0x02] blank).host = true ∧
      (withPort [0x12, 0x02] blank).port = 0x12 :: 0x02 :: [] ∧ (0x02 : Byte) ≠ 0x00 ∧ (0x02 : Byte) ≠ 0x01 := by decide

theorem witness_PartialFramesWait :
    Instr.wellFormed (.shiftBits [.int 1]) = true ∧ 0 < (encode (.shiftBits [.int 1])).length ∧
      5 < (encode (.shiftBits [.int 1])).length ∧
    (withPort [0x10, 0x01] idle).phase ≠ .busy ∧ noMoveDue (withPort [0x10, 0x01] idle).host = true ∧
      decode (withPort [0x10, 0x01] idle).port = .incomplete ∧ decode idle.port = .incomplete ∧
    (withPort [0x10, 0x01] idle).port ≠ [] := by decide

theorem witness_DecodingIgnoresLaterBytes :
    decode [0x13] ≠ .incomplete ∧ decode [0x13] = .cmd .readState 1 ∧
      decode [0xFF] ≠ .incomplete ∧ decode [0xFF] = .reject .unknownCommand 1 := by decide

theorem witness_ReplyFrameLayout :
    okReply.data = none ∧ (stateReply idle).data = some (bits [0, 0, 0, 0, 1, 1, 0, 0]) ∧
      (bits [0, 0, 0, 0, 1, 1, 0, 0]).length < 2 ^ 32 ∧ ([] : List Bit).length < 2 ^ 32 := by decide

theorem witness_StepRunsTheCommandAtThePort :
    (withPort [0x13, 0x14] idle).phase ≠ .busy ∧ noMoveDue (withPort [0x13, 0x14] idle).host = true ∧
      decode (withPort [0x13, 0x14] idle).port = .cmd .readState 1 ∧
    noMoveDue (withMove 1 .assertReset (withPort [0x14] blank)).host = true ∧
      (withMove 1 .assertReset (withPort [0x14] blank)).phase ≠ .busy ∧
      decode (withMove 1 .assertReset (withPort [0x14] blank)).port = .cmd .clear 1 := by decide

theorem witness_BusyStepPerformsOneAction :
    (busy.phase = .busy ∧ noMoveDue busy.host = true ∧
      busy.seq = .pinWrite 17 .high :: [.advance true, .pinWrite 27 .high, .pinWrite 27 .low, .pinWrite 22 .high,
        .pinWrite 22 .low]) ∧
    (idle.accepted [.pinConfigOut 17] okReply).seq = .pinConfigOut 17 :: [] ∧
    (idle.accepted [.advance true] okReply).seq = .advance true :: [] ∧
    (idle.accepted [] okReply).phase = .busy ∧ (idle.accepted [] okReply).seq = [] ∧
      (idle.accepted [] okReply).pendingReply = some okReply := by decide

theorem witness_BusyWaitEnds :
    (busy.phase = .busy ∧ busy.host = [] ∧ busy.pendingReply = some okReply ∧ 0 ≤ busy.seq.length ∧ 6 ≤ busy.seq.length) ∧
      (withMove 2 (.writePin 17 .high) busy).phase = .busy ∧
      (withMove 2 (.writePin 17 .high) busy).pendingReply = some okReply ∧
      (∀ m ∈ (withMove 2 (.writePin 17 .high) busy).host, m.act ≠ .assertReset) := by
  decide

theorem witness_FinishedRunsStay :
    (State.reset.finished = true ∧ idle.finished = true ∧ State.reset.host = [] ∧ ∃ t, step idle = .next t) ∧
      (withMove 0 (.configurePin 5) idle).finished = true ∧ (∃ t, step (withMove 0 (.configurePin 5) idle) = .next t) :=
  ⟨⟨by decide, by decide, rfl, _, rfl⟩, by decide, _, rfl⟩

theorem witness_DueHostMovesAreMade :
    (withMove 0 (.present [0x13]) busy).host = { after := 0, act := .present [0x13] } :: [] ∧
      (withMove 0 (.configurePin 5) idle).host = { after := 0, act := .configurePin 5 } :: [] ∧
      (withMove 0 (.writePin 17 .high) idle).host = { after := 0, act := .writePin 17 .high } :: [] ∧
      (withMove 0 (.rewire 5 6 7) idle).host = { after := 0, act := .rewire 5 6 7 } :: [] ∧
      (withMove 0 .assertReset busy).host = { after := 0, act := .assertReset } :: [] := by decide

theorem witness_RejectionChangesOnlyStatusAndTrace :
    (blank.phase ≠ .busy ∧ ∃ t, exec .readState blank = .next t ∧ t.phase ≠ .busy) ∧
      (idle.phase ≠ .busy ∧ exec (.shiftBool true) idle = .next busy ∧ busy.phase = .busy) :=
  ⟨⟨by decide, _, rfl, by decide⟩, by decide, rfl, rfl⟩

theorem witness_CommandsBeforeInitAreRejected :
    blank.phase = .unconstructed ∧ isInit (.shiftInt (-1)) = false ∧ isInit .clear = false := by decide

theorem witness_InitReportsFirstFailingOperand :
    blank.phase ≠ .busy ∧ idle.phase ≠ .busy ∧
      blank.params.pinValid (-1) = false ∧ blank.params.pinValid 28 = false ∧
      blank.params.pinValid 0 = true ∧ blank.params.pinValid 27 = true ∧
      (0 : Int) < 1 ∧ (1 : Int) ≤ 17 ∧ blank.params.depthTooLarge 17 = true := by decide

theorem witness_SettersRejectInvalidOperands :
    idle.phase = .idle ∧ idle.params.pinValid 28 = false ∧ (0 : Int) < 1 ∧ (1 : Int) ≤ 17 ∧
      idle.params.depthTooLarge 17 = true := by decide

theorem witness_BadPayloadsAreRejectedWhole :
    idle.phase = .idle ∧
      (∃ e ∈ [Elem.int 1, Elem.int 2], e ≠ .int 0 ∧ e ≠ .int 1 ∧ e ≠ .bool false ∧ e ≠ .bool true) ∧
      (∀ e ∈ ([] : List Elem), e = .int 0 ∨ e = .int 1 ∨ e = .bool false ∨ e = .bool true) ∧
      (∀ e ∈ [Elem.int 0, .int 1, .bool false, .bool true],
        e = .int 0 ∨ e = .int 1 ∨ e = .bool false ∨ e = .bool true) ∧
      (-1 : Int) < 0 ∧ (0 : Int) ≤ 0 := by decide

theorem witness_RejectionReplyBytes :
    (blank.phase ≠ .busy ∧ blank.phase = .unconstructed ∧ isInit .clear = false) ∧
      (idle.phase ≠ .busy ∧ idle.phase = .idle) ∧
      idle.params.pinValid (-1) = false ∧ idle.params.pinValid 28 = false ∧ idle.params.pinValid 0 = true ∧
      idle.params.pinValid 27 = true ∧ (0 : Int) < 1 ∧ (1 : Int) ≤ 17 ∧ idle.params.depthTooLarge 17 = true ∧
      (∃ e ∈ [Elem.int 1, Elem.int 2], e ≠ .int 0 ∧ e ≠ .int 1 ∧ e ≠ .bool false ∧ e ≠ .bool true) ∧ (-1 : Int) < 0 ∧
      (noMoveDue (withPort [0x12, 0x02] blank).host = true ∧
        decode (withPort [0x12, 0x02] blank).port = .reject .boolNotBoolean 2) ∧
      decode (withPort [0xFF] blank).port = .reject .unknownCommand 1 := by decide

theorem witness_InitAcceptingStep :
    blank.phase ≠ .busy ∧ blank.params.pinValid 17 = true ∧ blank.params.pinValid 27 = true ∧
      blank.params.pinValid 0 = true ∧ 1 ≤ 1 ∧ blank.params.depthTooLarge ((1 : Nat) : Int) = false ∧
      1 ≤ 16 ∧ blank.params.depthTooLarge ((16 : Nat) : Int) = false := by decide

/-- The frame `INIT 17, 27, 22, 1` of R83. -/
def initFrame : List Byte :=
  [0x01, 0x11, 0, 0, 0, 0x1B, 0, 0, 0, 0x16, 0, 0, 0, 0x01, 0, 0, 0]

theorem witness_InitCompletes :
    (withPort initFrame blank).phase ≠ .busy ∧ (withPort initFrame blank).host = [] ∧
      decode (withPort initFrame blank).port = .cmd (.init 17 27 22 ((1 : Nat) : Int)) 17 ∧
      blank.params.pinValid 17 = true ∧ blank.params.pinValid 27 = true ∧ blank.params.pinValid 22 = true ∧
      1 ≤ 1 ∧ blank.params.depthTooLarge ((1 : Nat) : Int) = false := by decide

theorem witness_RoleSettersReplaceOneRegister :
    idle.phase = .idle ∧ noMoveDue idle.host = true ∧ idle.params.pinValid 0 = true ∧ idle.params.pinValid 27 = true := by
  decide

theorem witness_SetDepthCompletes :
    (withPort [0x05, 0x10, 0, 0, 0] idle).phase = .idle ∧ (withPort [0x05, 0x10, 0, 0, 0] idle).host = [] ∧ 1 ≤ 16 ∧
      idle.params.depthTooLarge ((16 : Nat) : Int) = false ∧ 1 ≤ 1 ∧ idle.params.depthTooLarge ((1 : Nat) : Int) = false ∧
      decode (withPort [0x05, 0x10, 0, 0, 0] idle).port = .cmd (.setDepth ((16 : Nat) : Int)) 5 := by decide

theorem premises_withPort (bytes : List Byte) : MirrorPremises (withPort bytes idle) :=
  ⟨rfl, rfl, rfl, rfl, premises_idle.distinctDataShift, premises_idle.distinctDataLatch,
    premises_idle.distinctShiftLatch, rfl⟩

/-- `Inv` does not look at the port. -/
theorem inv_withPort (bytes : List Byte) : Inv (withPort bytes idle) :=
  ⟨inv_idle.params, inv_idle.configuration, inv_idle.shadow, inv_idle.sequencer, inv_idle.data, inv_idle.roles,
    inv_idle.status, inv_idle.replies, inv_idle.lines, inv_idle.chain, fun _ => premises_withPort bytes,
    inv_idle.standing⟩

theorem witness_ShiftCommandsBigStep :
    (Inv (withPort [0x12, 0x01] idle) ∧ (withPort [0x12, 0x01] idle).phase = .idle ∧
      (withPort [0x12, 0x01] idle).host = [] ∧ ShiftsBits (.shiftBool true) [true] ∧
      decode (withPort [0x12, 0x01] idle).port = .cmd (.shiftBool true) 2) ∧
    (ShiftsBits (.shiftBits []) [] ∧ decode (withPort [0x10, 0, 0, 0, 0] idle).port = .cmd (.shiftBits []) 5) ∧
    (ShiftsBits (.shiftInt 12) (bits [1, 1, 0, 0]) ∧
      decode (withPort [0x11, 0x0C, 0, 0, 0, 0, 0, 0, 0] idle).port = .cmd (.shiftInt 12) 9) :=
  ⟨⟨inv_withPort _, rfl, rfl, rfl, by decide⟩, ⟨rfl, by decide⟩, rfl, by decide⟩

theorem witness_ClearCompletes :
    Inv (withPort [0x14] idle) ∧ (withPort [0x14] idle).phase = .idle ∧ (withPort [0x14] idle).host = [] ∧
      decode (withPort [0x14] idle).port = .cmd .clear 1 :=
  ⟨inv_withPort _, rfl, rfl, by decide⟩

theorem witness_ReadStateReplies :
    (withPort [0x13, 0x13] idle).phase = .idle ∧ (withPort [0x13, 0x13] idle).host = [] ∧
      (withPort [0x13, 0x13] idle).seq = [] ∧ (withPort [0x13, 0x13] idle).pendingReply = none ∧
      (withPort [0x13, 0x13] idle).port = 0x13 :: [0x13] ∧ ([0x13] : List Byte) = 0x13 :: [] := by decide

theorem witness_LatchIsAnEmptyShift : idle.phase = .idle := by decide

theorem witness_AdvanceIsOneFifoStep : idle.shadow = false :: bits [0, 0, 0, 1, 1, 0, 0] := by decide

theorem witness_AdvanceSequenceLaw :
    bits [1] ≠ [] ∧ (bits []).length ≤ (bits [1]).length ∧ (bits [0]).length ≤ (bits [1]).length ∧
      (bits [1]).length < (bits [0, 1]).length := by decide

theorem witness_EncBitsLaw :
    encBits [.int 1, .bool false] = .ok [true, false] ∧ encBits [] = .ok [] ∧
      (∀ e ∈ [Elem.int 0, .int 1, .bool false, .bool true],
        e = .int 0 ∨ e = .int 1 ∨ e = .bool false ∨ e = .bool true) ∧
      (∃ e ∈ [Elem.int 1, .int (-1)], ¬ (e = .int 0 ∨ e = .int 1 ∨ e = .bool false ∨ e = .bool true)) :=
  ⟨rfl, rfl, by decide, by decide⟩

theorem witness_EncIntLaw : (-1 : Int) < 0 ∧ 0 < 1 ∧ 1 < 2 ^ 1 := by decide

theorem witness_EncIntIntegerLaws :
    0 < 1 ∧ encInt ((5 : Nat) : Int) = encInt ((5 : Nat) : Int) ∧ (bitsValue [true, false] = 2 ∧
      [true, false].head? = some true) ∧ bitsValue [false] = 0 :=
  ⟨by decide, rfl, by decide, by decide⟩

theorem witness_TransactionOrder : 0 < (bits [1, 0]).length ∧ 1 < (bits [1, 0]).length := by decide

theorem witness_TransactionCounts : (17 : PinId) ≠ 27 ∧ (17 : PinId) ≠ 22 ∧ (27 : PinId) ≠ 22 := by decide

theorem witness_ActionCounts :
    idle.phase ≠ .busy ∧
      ∀ i ∈ [Instr.init 17 27 22 1, .setDataPin 5, .setShiftPin 5, .setLatchPin 5, .setDepth 16, .shiftBits [],
          .shiftInt 0, .shiftBool true, .readState, .clear],
        field State.phase (exec i idle) = some .busy := by decide

theorem witness_LineLevelsAfterTransaction :
    (17 : PinId) ≠ 27 ∧ (17 : PinId) ≠ 22 ∧ (27 : PinId) ≠ 22 ∧ bits [] = [] ∧ bits [0, 1] = bits [0] ++ [true] ∧
      (5 : PinId) ≠ 17 ∧ (5 : PinId) ≠ 27 ∧ (5 : PinId) ≠ 22 := by decide

theorem witness_CommandFrame :
    exec (.shiftBool true) idle = .next busy ∧ isInit (.shiftBool true) = false ∧ busy.env.standing = .vouched ∧
      field (fun t => decide (t.phase ≠ .busy)) (exec .clear blank) = some true ∧
      (∀ p, Instr.shiftBool true ≠ .setDataPin p) ∧ (∀ p, Instr.shiftBool true ≠ .setShiftPin p) ∧
      (∀ p, Instr.shiftBool true ≠ .setLatchPin p) ∧ (∀ n, Instr.shiftBool true ≠ .setDepth n) :=
  ⟨rfl, rfl, rfl, by decide, nofun, nofun, nofun, nofun⟩

theorem witness_SequencerFrame :
    busy.phase = .busy ∧ noMoveDue busy.host = true ∧ (∃ t, step busy = .next t) ∧ busy.seq ≠ [] ∧
      (∀ b rest, busy.seq ≠ .advance b :: rest) ∧
    (idle.accepted [.advance true] okReply).phase = .busy ∧
      (∃ t, step (idle.accepted [.advance true] okReply) = .next t) ∧
      (∀ p rest, (idle.accepted [.advance true] okReply).seq ≠ .pinConfigOut p :: rest) ∧
      (∀ p lvl rest, (idle.accepted [.advance true] okReply).seq ≠ .pinWrite p lvl :: rest) :=
  ⟨rfl, rfl, ⟨_, rfl⟩, by decide, nofun, rfl, ⟨_, rfl⟩, nofun, nofun⟩

theorem witness_ParametersNeverChange :
    (∃ t, step (withMove 0 .assertReset busy) = .next t) ∧
      (∀ ser srclk rclk rest, (withMove 0 .assertReset busy).host ≠ { after := 0, act := .rewire ser srclk rclk } :: rest) ∧
      ∃ t, step (withMove 0 (.rewire 5 6 7) busy) = .next t := by
  refine ⟨⟨_, rfl⟩, ?_, _, rfl⟩
  simp [withMove]

/-- `idle` with the environment in its fault. -/
def faulted : State :=
  { idle with env := { idle.env with fault := some (.unconfiguredPinWrite 5) } }

theorem witness_EnvironmentFaultIsNeverCleared :
    (∃ t, step (withMove 0 (.writePin 17 .high) faulted) = .next t) ∧
      (withMove 0 (.writePin 17 .high) faulted).env.fault = some (.unconfiguredPinWrite 5) ∧
      (withMove 0 (.writePin 17 .high) faulted).env.configured 17 = true :=
  ⟨⟨_, rfl⟩, rfl, rfl⟩

theorem witness_TraceIsAppendOnly :
    (∃ t, step busy = .next t) ∧ (∀ rest, busy.host ≠ { after := 0, act := .assertReset } :: rest) ∧
      (∃ t, step (withMove 1 .assertReset busy) = .next t) ∧
      (∀ rest, (withMove 1 .assertReset busy).host ≠ { after := 0, act := .assertReset } :: rest) := by
  refine ⟨⟨_, rfl⟩, nofun, ⟨_, rfl⟩, ?_⟩
  simp [withMove]

theorem witness_StepKeepsInvariant : Inv busy ∧ ∃ t, step busy = .next t :=
  ⟨inv_busy, _, rfl⟩

theorem witness_ResetInput :
    (withMove 0 .assertReset busy).host = { after := 0, act := .assertReset } :: [] := by decide

/-- Power-on with the three pins configured, and high the next level to be drawn. -/
def freshEnv : Env :=
  { blank.env with lines := [(17, .high), (22, .low), (27, .low)], givenLevels := [.high] }

theorem witness_ShiftEdgeSamplesSerialLine :
    (∀ e ∈ [idle.env, freshEnv], e.standing ≠ .failed ∧ e.fault = none ∧ e.chain.serPin ≠ e.chain.srclkPin ∧
      e.chain.srclkPin ≠ e.chain.rclkPin ∧ lineLevel e.lines e.chain.srclkPin = some .low) ∧
    lineLevel idle.env.lines idle.env.chain.serPin = some .low ∧
    (lineLevel freshEnv.lines freshEnv.chain.serPin = some .high ∧ freshEnv.standing = .fresh ∧
      (freshEnv.drawLevel freshEnv.chain.srclkPin).1 = .high) ∧
    (lineLevel [(27, Level.low)] freshEnv.chain.serPin = none ∧
      lineLevel [(27, Level.low)] freshEnv.chain.srclkPin = some .low) := by decide

theorem witness_LatchEdgeCopiesStages :
    (∀ e ∈ [idle.env, freshEnv], e.standing ≠ .failed ∧ e.fault = none ∧ e.chain.srclkPin ≠ e.chain.rclkPin ∧
      lineLevel e.lines e.chain.rclkPin = some .low) ∧
    freshEnv.standing = .fresh ∧ (freshEnv.drawLevel freshEnv.chain.rclkPin).1 = .high := by
  decide

theorem witness_NoRisingClockNoChange :
    (idle.env.write 27 .high).standing ≠ .failed ∧ (idle.env.write 27 .high).fault = none ∧
      (idle.env.write 27 .high).configured 27 = true ∧ lineLevel (idle.env.write 27 .high).lines 27 = some .high ∧
      (17 : PinId) ≠ idle.env.chain.srclkPin ∧ (17 : PinId) ≠ idle.env.chain.rclkPin ∧ idle.env.configured 17 = true ∧
      (Env.drawLevel { idle.env with givenLevels := [.low] } 27).1 = .low ∧
    (blank.env.standing = .fresh ∧ blank.env.fault = none ∧ lineLevel blank.env.lines 27 ≠ some .low) := by decide

/-- The first clause: a waiting block, a configuration event and a write of the host before any INIT. -/
theorem witness_UnvouchedChainIsADraw_beforeInit :
    (blank.phase = .unconstructed ∧ blank.env.standing = .fresh ∧ noMoveDue blank.host = true ∧
      ∃ t, step blank = .next t ∧ t.phase = .unconstructed ∧ t.env.fault = none) ∧
    ((withMove 0 (.configurePin 27) blank).host = { after := 0, act := .configurePin 27 } :: [] ∧
      ∃ t, step (withMove 0 (.configurePin 27) blank) = .next t ∧ t.phase = .unconstructed ∧ t.env.fault = none) ∧
    ((withMove 0 (.writePin 27 .high) { blank with env := freshEnv }).host =
        { after := 0, act := .writePin 27 .high } :: [] ∧
      ∃ t, step (withMove 0 (.writePin 27 .high) { blank with env := freshEnv }) = .next t ∧ t.phase = .unconstructed ∧
        t.env.fault = none) :=
  ⟨⟨rfl, rfl, rfl, _, rfl, rfl, rfl⟩, ⟨rfl, _, rfl, rfl, rfl⟩, rfl, _, rfl, rfl, rfl⟩

theorem witness_ConfiguredWriteSetsTheLine :
    idle.env.fault = none ∧ idle.env.configured 17 = true ∧ (27 : PinId) ≠ 17 := by decide

theorem witness_ConfigureDrawsTheLevel :
    blank.env.fault = none ∧ blank.env.givenLevels = .low :: [.low, .low] ∧ idle.env.fault = none ∧
      idle.env.givenLevels = [] ∧ (27 : PinId) ≠ 17 := by decide

theorem witness_UnconfiguredWriteFaultsTheEnvironment :
    idle.env.configured 5 = false ∧ idle.env.fault = none := by decide

/-- The other two clauses: a step in which a premise fails, a step that redraws the chain after that, and a clock drawn high. -/
theorem witness_UnvouchedChainIsADraw :
    (∃ t, step (withMove 0 .assertReset busy) = .next t ∧ t.env.standing = .failed) ∧ busy.env.standing ≠ .failed ∧
      (∃ t, step (withMove 0 (.writePin 17 .high) { idle with env := idle.env.unvouch }) = .next t ∧
        t.env.standing = .failed ∧ t.env.draws = 2) ∧
      (idle.env.standing = .vouched ∧ 27 = idle.env.chain.srclkPin ∧ 22 = idle.env.chain.rclkPin ∧
        (Env.drawLevel { idle.env with givenLevels := [.high] } 27).1 = .high ∧
        (Env.drawLevel { idle.env with givenLevels := [.high] } 22).1 = .high) :=
  ⟨⟨_, rfl, rfl⟩, by decide, ⟨_, rfl, rfl, rfl⟩, by decide⟩

theorem witness_OutputsChangeOnlyAtTheLatchPulse :
    MirrorPremises idle ∧ idle.env.standing = .vouched ∧ idle.env.configured idle.cfg.dataPin = true ∧
      idle.env.configured idle.cfg.shiftClockPin = true ∧ 0 ≤ 4 * (bits [1, 0]).length ∧ 8 ≤ 4 * (bits [1, 0]).length :=
  ⟨premises_idle, by decide⟩

theorem witness_InitEstablishesTheMirror :
    Inv (withPort initFrame blank) ∧ (withPort initFrame blank).phase ≠ .busy ∧ (withPort initFrame blank).host = [] ∧
      decode (withPort initFrame blank).port = .cmd (.init 17 27 22 ((1 : Nat) : Int)) 17 ∧
      blank.params.pinValid 17 = true ∧ blank.params.pinValid 27 = true ∧ blank.params.pinValid 22 = true ∧
      1 ≤ 1 ∧ blank.params.depthTooLarge ((1 : Nat) : Int) = false ∧
      blank.env.chain.chips = 1 ∧ blank.env.chain.serPin = 17 ∧ blank.env.chain.srclkPin = 27 ∧
      blank.env.chain.rclkPin = 22 ∧ (17 : PinId) ≠ 27 ∧ (17 : PinId) ≠ 22 ∧ (27 : PinId) ≠ 22 ∧
      blank.env.fault = none ∧ blank.env.givenLevels = .low :: .low :: .low :: [] :=
  ⟨⟨inv_blank.params, inv_blank.configuration, inv_blank.shadow, inv_blank.sequencer, inv_blank.data, inv_blank.roles,
    inv_blank.status, inv_blank.replies, inv_blank.lines, inv_blank.chain, nofun,
    inv_blank.standing⟩, by decide⟩

/-- `idle` with a chain that is not vouched for, and these bytes at the port. -/
def stale (bytes : List Byte) : State :=
  { withPort bytes idle with env := idle.env.unvouch }

theorem inv_stale (bytes : List Byte) : Inv (stale bytes) :=
  ⟨inv_idle.params, inv_idle.configuration, inv_idle.shadow, inv_idle.sequencer, inv_idle.data, inv_idle.roles,
    inv_idle.status, inv_idle.replies, inv_idle.lines, (Laws.unvouch_keeps idle.env).sized inv_idle.chain,
    nofun, ⟨nofun, nofun⟩⟩

theorem witness_ClearRestoresTheMirror :
    (Inv (stale [0x14]) ∧ (stale [0x14]).phase = .idle ∧ (stale [0x14]).host = [] ∧
      decode (stale [0x14]).port = .cmd .clear 1 ∧ (1 : Nat) = (stale [0x14]).cfg.chainDepth) ∧
    (decode (stale [0x05, 0x01, 0, 0, 0]).port = .cmd (.setDepth ((1 : Nat) : Int)) 5 ∧ 1 ≤ 1 ∧
      (stale []).params.depthTooLarge ((1 : Nat) : Int) = false) ∧
    premisesHold { (stale []).cfg with chainDepth := 1 } (stale []).env = true ∧
      clearReady (stale []).cfg (stale []).env = true :=
  ⟨⟨inv_stale _, rfl, rfl, by decide, rfl⟩, by decide, by decide, by decide⟩

/-- A step of a transaction; a configuration event that draws low for a clock; another agent's configuration of another pin. -/
theorem witness_PremisesKeepTheVouch :
    ((∃ t, step busy = .next t ∧ MirrorPremises t ∧ ClocksStartLow busy t) ∧ busy.env.standing = .vouched ∧
      MirrorPremises busy ∧ HostSparesRoles busy) ∧
    (let s := { idle.accepted [.pinConfigOut 27] okReply with env := { idle.env with givenLevels := [.low] } }
      ∃ t, step s = .next t ∧ MirrorPremises t ∧ ClocksStartLow s t) ∧
    HostSparesRoles (withMove 0 (.configurePin 5) busy) := by
  refine ⟨⟨⟨_, rfl, ⟨rfl, rfl, rfl, rfl, by decide, by decide, by decide, rfl⟩, ?_⟩, rfl, premises_busy, nofun⟩,
    ⟨_, rfl, ⟨rfl, rfl, rfl, rfl, by decide, by decide, by decide, rfl⟩, ?_⟩, ?_⟩
  · intro p rest _ _ h
    exact nomatch h
  · intro p rest _ _ h _
    cases h
    decide
  · intro act rest h
    cases h
    rfl

theorem willMirror_idle (bytes : List Byte) : WillMirror (withPort bytes idle) :=
  fun _ => ⟨rfl, rfl, rfl, rfl, rfl⟩

/-- At a command boundary, with a shift command at the port, and with a move of another agent. -/
theorem witness_StepKeepsTheMirror_boundary :
    (Inv (withPort [0x12, 0x01] idle) ∧ WillMirror (withPort [0x12, 0x01] idle) ∧
      step (withPort [0x12, 0x01] idle) = .next busy ∧ (withPort [0x12, 0x01] idle).seq = [] ∧
      (withPort [0x12, 0x01] idle).env.standing = .vouched) ∧
    (WillMirror (withMove 0 (.writePin 5 .high) idle) ∧ ∃ t, step (withMove 0 (.writePin 5 .high) idle) = .next t) :=
  ⟨⟨inv_withPort _, willMirror_idle _, rfl, rfl, rfl⟩, fun _ => ⟨rfl, rfl, rfl, rfl, rfl⟩, _, rfl⟩

/-- With one action left, the fall of the latch clock. -/
def lastAction : State :=
  { idle.accepted [.pinWrite 22 .low] okReply with env := { idle.env with lines := [(17, .low), (22, .high), (27, .low)] } }

/-- In mid-command. -/
theorem witness_StepKeepsTheMirror_busy : Inv lastAction ∧ WillMirror lastAction ∧ ∃ t, step lastAction = .next t := by
  refine ⟨⟨by decide, fun _ => by decide, fun _ => rfl, ⟨fun h => absurd rfl h, fun _ => ⟨okReply, rfl, rfl, rfl⟩⟩, ?_, ?_,
    ⟨rfl, rfl⟩, fun _ h => absurd h List.not_mem_nil, (by decide : linesWf lastAction.env.lines = true),
    ⟨by decide, rfl, rfl⟩, fun _ => ⟨rfl, rfl, rfl, rfl, by decide, by decide, by decide, rfl⟩,
    ⟨nofun, nofun⟩⟩, ?_, _, rfl⟩
  · intro r bs h hd
    cases (Option.some.inj h : okReply = r)
    exact nomatch hd
  · simp [SequenceOnRoles, ActionOnRoles, lastAction, State.accepted, idle]
  · intro e he hv
    obtain ⟨-, -, -, hw⟩ := Laws.write_vouched hv
    rw [Laws.setLine_noEdge e 22 .low (.inl rfl)] at hw
    obtain ⟨hc, hf, hv', hd, hs, hl⟩ := he
    have hd : lineLevel e.lines 17 = some .low := hd
    have hs : lineLevel e.lines 27 = some .low := hs
    have level (q : PinId) : lineLevel (State.perform { lastAction with env := e } (.pinWrite 22 .low)).env.lines q =
        if q = 22 then some .low else lineLevel e.lines q := by
      rw [Laws.perform_pinWrite]
      simp only [hw, Laws.lineLevel_setLineLevel]
    have chain : (State.perform { lastAction with env := e } (.pinWrite 22 .low)).env.chain = lastAction.env.chain := by
      rw [Laws.perform_pinWrite]
      simp only [hw, hc]
    refine ⟨?_, ?_, ?_, ?_, ?_⟩
    · rw [chain]; rfl
    · rw [chain]; rfl
    · exact (level 27).trans hs
    · exact level 22
    · exact congrArg Option.isSome ((level 17).trans hd)

end Sys2Proof.Tests
end

/-! ## The environment and the parameters over one step (00_scope.md R7)

`EnvKeeps` says what every operation of the environment keeps. Here it is carried from those operations up to `step`: the one
move that does not have it is `rewire`. -/

namespace Sys2Proof.Proofs

open Sys2Proof.Machine Sys2Proof.Laws

/-! ### The environment's remaining operations -/

theorem revouch_keeps (c : Configuration) (e : Env) : EnvKeeps e (e.revouch c) :=
  vouchIf_keeps _ e

/-- But for the wiring itself, rewiring keeps what every operation of the environment keeps. -/
theorem rewire_keeps (ser srclk rclk : PinId) (e : Env) :
    EnvKeeps { e with chain := { e.chain with serPin := ser, srclkPin := srclk, rclkPin := rclk } }
      (e.rewire ser srclk rclk) :=
  (redraw_keeps _).trans (keepVouch_keeps _ _)

/-! ### The block's moves -/

theorem perform_env_keeps (s : State) (a : Action) : EnvKeeps s.env (s.perform a).env :=
  performAll_env_keeps s [a]

/-- What a step of the sequencer can do: perform the next action, give the reply, or go Idle with none owed. -/
theorem sequencerStep_cases (s : State) :
    (∃ a rest, s.seq = a :: rest ∧ s.sequencerStep = State.perform { s with seq := rest } a) ∨
    (∃ r, s.seq = [] ∧ s.pendingReply = some r ∧ s.sequencerStep = s.complete r) ∨
    (s.seq = [] ∧ s.pendingReply = none ∧ s.sequencerStep = { s with phase := .idle }) := by
  unfold State.sequencerStep
  rcases s.seq with _ | ⟨a, rest⟩
  · rcases s.pendingReply with _ | r
    · exact .inr (.inr ⟨rfl, rfl, rfl⟩)
    · exact .inr (.inl ⟨r, rfl, rfl, rfl⟩)
  · exact .inl ⟨a, rest, rfl, rfl⟩

@[simp] theorem sequencerStep_params (s : State) : s.sequencerStep.params = s.params := by
  rcases sequencerStep_cases s with ⟨a, rest, -, h⟩ | ⟨r, -, -, h⟩ | ⟨-, -, h⟩ <;> simp [h]

theorem sequencerStep_env_keeps (s : State) : EnvKeeps s.env s.sequencerStep.env := by
  rcases sequencerStep_cases s with ⟨a, rest, -, h⟩ | ⟨r, -, -, h⟩ | ⟨-, -, h⟩ <;> rw [h]
  · exact perform_env_keeps { s with seq := rest } a
  · exact EnvKeeps.refl _
  · exact EnvKeeps.refl _

@[simp] theorem decoderReject_params (r : DecodeReject) (s : State) : (s.decoderReject r).params = s.params := by
  cases r <;> rfl

@[simp] theorem decoderReject_env (r : DecodeReject) (s : State) : (s.decoderReject r).env = s.env := by
  cases r <;> rfl

theorem acceptedIdle_params {s t : State} {i : Instr} (h : AcceptedIdle s i t) : t.params = s.params := by
  cases h <;> rfl

theorem acceptedIdle_env_keeps {s t : State} {i : Instr} (h : AcceptedIdle s i t) : EnvKeeps s.env t.env := by
  cases h with
  | data | shiftClock | latchClock => exact keepVouch_keeps _ _
  | depth | clear => exact revouch_keeps _ _
  | shift | read => exact EnvKeeps.refl _

theorem exec_params {i : Instr} {s t : State} (h : exec i s = .next t) (hb : s.phase ≠ .busy) : t.params = s.params := by
  rcases exec_cases h hb with ⟨st, rs, -, -, rfl⟩ | ⟨d, sh, l, n, c, -, -, rfl⟩ | ⟨-, ha⟩
  · exact reject_params st rs s
  · exact construct_params c s
  · exact acceptedIdle_params ha

theorem exec_env_keeps {i : Instr} {s t : State} (h : exec i s = .next t) (hb : s.phase ≠ .busy) :
    EnvKeeps s.env t.env := by
  rcases exec_cases h hb with ⟨st, rs, -, -, rfl⟩ | ⟨d, sh, l, n, c, -, -, rfl⟩ | ⟨-, ha⟩
  · exact EnvKeeps.refl _
  · exact vouchIf_keeps _ _
  · exact acceptedIdle_env_keeps ha

/-! ### The host's moves -/

@[simp] theorem hostAct_params (s : State) (act : HostAct) : (s.hostAct act).params = s.params := by
  cases act <;> rfl

/-- The host's acts keep what every operation of the environment keeps, but for the one that rewires the chain. -/
theorem hostAct_env_keeps (s : State) (act : HostAct) :
    EnvKeeps s.env (s.hostAct act).env ∨
      ∃ ser srclk rclk, act = .rewire ser srclk rclk ∧ (s.hostAct act).env = s.env.rewire ser srclk rclk := by
  cases act with
  | present bytes => exact .inl (EnvKeeps.refl _)
  | configurePin p => exact .inl ((configure_keeps _ p).trans (disturb_keeps _ p _))
  | writePin p lvl => exact .inl ((write_keeps _ p lvl).trans (disturb_keeps _ p _))
  | rewire ser srclk rclk => exact .inr ⟨ser, srclk, rclk, rfl, rfl⟩
  | assertReset => exact .inl (afterReset_keeps _ _)

/-! ### Steps -/

theorem step_params {s t : State} (h : step s = .next t) : t.params = s.params := by
  rcases step_cases h with ⟨act, rest, -, rfl⟩ | ⟨-, -, rfl⟩ | ⟨-, hb, i, n, -, hx⟩ | ⟨-, -, r, n, -, rfl⟩ | ⟨-, -, -, rfl⟩
  · exact hostAct_params _ act
  · exact sequencerStep_params _
  · exact (exec_params hx hb :)
  · exact decoderReject_params r _
  · rfl

/-- Every step keeps what every operation of the environment keeps, but for the move that rewires the chain. -/
theorem step_env_keeps {s t : State} (h : step s = .next t) :
    EnvKeeps s.env t.env ∨
      ∃ ser srclk rclk rest, s.host = { after := 0, act := .rewire ser srclk rclk } :: rest ∧
        t.env = s.env.rewire ser srclk rclk := by
  rcases step_cases h with
    ⟨act, rest, hh, rfl⟩ | ⟨-, -, rfl⟩ | ⟨-, hb, i, n, -, hx⟩ | ⟨-, -, r, n, -, rfl⟩ | ⟨-, -, -, rfl⟩
  · rcases hostAct_env_keeps { s with host := rest } act with hk | ⟨ser, srclk, rclk, rfl, he⟩
    · exact .inl hk
    · exact .inr ⟨ser, srclk, rclk, rest, hh, he⟩
  · exact .inl (sequencerStep_env_keeps { s with host := passTurn s.host })
  · exact .inl (exec_env_keeps hx hb :)
  · exact .inl (by rw [decoderReject_env]; exact EnvKeeps.refl _)
  · exact .inl (EnvKeeps.refl _)

/-- Settles O42: a step other than the move `rewire` keeps size and wiring of the chain with the rest of the environment, and
`rewire` keeps the size. -/
theorem parametersNeverChange : Obligations.ParametersNeverChange := by
  intro s t h
  refine ⟨step_params h, ?_⟩
  rcases step_env_keeps h with hk | ⟨ser, srclk, rclk, rest, hh, he⟩
  · exact ⟨hk.chips, fun _ => ⟨hk.serPin, hk.srclkPin, hk.rclkPin⟩⟩
  · have hchips : t.env.chain.chips = s.env.chain.chips := he ▸ (rewire_keeps ser srclk rclk s.env).chips
    exact ⟨hchips, fun hno => absurd hh (hno ser srclk rclk rest)⟩

end Sys2Proof.Proofs

/-! ## Single steps (10_state.md R30-R33, R36, R38)

One equation for each thing a step can be: a move of the host that is due, an action, the reply, the command at the port. -/

namespace Sys2Proof.Proofs

open Sys2Proof.Machine Sys2Proof.Laws

/-! ### `State.afterReply` -/

@[simp] theorem afterReply_phase (s : State) (r : Reply) : (s.afterReply r).phase = .idle := rfl
@[simp] theorem afterReply_cfg (s : State) (r : Reply) : (s.afterReply r).cfg = s.cfg := rfl
@[simp] theorem afterReply_shadow (s : State) (r : Reply) : (s.afterReply r).shadow = s.shadow := rfl
@[simp] theorem afterReply_seq (s : State) (r : Reply) : (s.afterReply r).seq = [] := rfl
@[simp] theorem afterReply_pendingReply (s : State) (r : Reply) : (s.afterReply r).pendingReply = none := rfl
@[simp] theorem afterReply_trace (s : State) (r : Reply) : (s.afterReply r).trace = s.trace ++ [.reply r] := rfl
@[simp] theorem afterReply_lastStatus (s : State) (r : Reply) : (s.afterReply r).lastStatus = r.status.code := rfl
@[simp] theorem afterReply_lastReason (s : State) (r : Reply) : (s.afterReply r).lastReason = r.reason.code := rfl
@[simp] theorem afterReply_port (s : State) (r : Reply) : (s.afterReply r).port = s.port := rfl
@[simp] theorem afterReply_params (s : State) (r : Reply) : (s.afterReply r).params = s.params := rfl
@[simp] theorem afterReply_env (s : State) (r : Reply) : (s.afterReply r).env = s.env := rfl
@[simp] theorem afterReply_host (s : State) (r : Reply) : (s.afterReply r).host = s.host := rfl
@[simp] theorem afterReply_dropped (s : State) (r : Reply) : (s.afterReply r).dropped = s.dropped := rfl

/-! ### What the next step is -/

/-- A due move of the host is made, and the block does not move. -/
theorem step_hostMove {s : State} {act : HostAct} {rest : List HostMove}
    (h : s.host = { after := 0, act := act } :: rest) :
    step s = .next (State.hostAct { s with host := rest } act) := by
  simp [step, State.turn, h]

theorem step_action {s : State} {a : Action} {rest : List Action} (hb : s.phase = .busy)
    (hd : noMoveDue s.host = true) (hs : s.seq = a :: rest) :
    step s = .next (State.perform { s with seq := rest, host := passTurn s.host } a) := by
  rw [step_busy s hb hd]
  simp [State.sequencerStep, hs]

theorem complete_eq_afterReply {s : State} (r : Reply) (hs : s.seq = []) : s.complete r = s.afterReply r := by
  unfold State.afterReply
  rw [← hs]
  rfl

theorem step_reply {s : State} {r : Reply} (hb : s.phase = .busy) (hd : noMoveDue s.host = true) (hs : s.seq = [])
    (hr : s.pendingReply = some r) : step s = .next { s.afterReply r with host := passTurn s.host } := by
  rw [step_busy s hb hd]
  simp [State.sequencerStep, hs, hr, complete_eq_afterReply, State.afterReply]

theorem step_command {s : State} {i : Instr} {n : Nat} (hb : s.phase ≠ .busy) (hd : noMoveDue s.host = true)
    (hp : decode s.port = .cmd i n) : step s = exec i (State.consume n { s with host := passTurn s.host }) := by
  rw [step_port s hb hd, hp]

/-- Settles O10. -/
theorem stepRunsTheCommandAtThePort : Obligations.StepRunsTheCommandAtThePort :=
  fun _ _ _ hb hd hp => step_command hb hd hp

/-- Settles O11: each kind of action is `step_action`, the reply is `step_reply`. -/
theorem busyStepPerformsOneAction : Obligations.BusyStepPerformsOneAction := by
  intro s hb hd
  refine ⟨fun p rest hs => ?_, fun p lvl rest hs => ?_, fun b rest hs => ?_, fun r hs hr => step_reply hb hd hs hr⟩
  · exact step_action hb hd hs
  · exact step_action hb hd hs
  · exact step_action hb hd hs

/-- A command can be waiting, rejected, an accepted INIT, or another accepted command. -/
theorem exec_inversion {i : Instr} {s t : State} (h : exec i s = .next t) :
    t = s ∨ (∃ st rs, t = s.reject st rs) ∨ (∃ d sh l n c, i = .init d sh l n ∧ t = s.construct c) ∨
      AcceptedIdle s i t := by
  by_cases hb : s.phase = .busy
  · rw [exec_busy i s hb, Host.Outcome.next.injEq] at h
    exact .inl h.symm
  · rcases exec_cases h hb with ⟨st, rs, -, -, ht⟩ | ⟨d, sh, l, n, c, hi, -, ht⟩ | ⟨-, ha⟩
    · exact .inr (.inl ⟨st, rs, ht⟩)
    · exact .inr (.inr (.inl ⟨d, sh, l, n, c, hi, ht⟩))
    · exact .inr (.inr (.inr ha))

/-! ### The trace -/

/-- No act of the host but the reset input touches the block. -/
theorem hostAct_block (s : State) {act : HostAct} (h : act ≠ .assertReset) :
    s.hostAct act = { s with port := (s.hostAct act).port, env := (s.hostAct act).env } := by
  cases act with
  | assertReset => exact absurd rfl h
  | _ => rfl

theorem perform_trace_cases (s : State) (a : Action) :
    (s.perform a).trace = s.trace ∨ ∃ e, (s.perform a).trace = s.trace ++ [e] := by
  cases a with
  | pinConfigOut p => exact .inr ⟨_, rfl⟩
  | pinWrite p lvl => exact .inr ⟨_, rfl⟩
  | advance b => exact .inl rfl

theorem sequencerStep_trace_cases (s : State) :
    s.sequencerStep.trace = s.trace ∨ ∃ e, s.sequencerStep.trace = s.trace ++ [e] := by
  rcases sequencerStep_cases s with ⟨a, rest, -, h⟩ | ⟨r, -, -, h⟩ | ⟨-, -, h⟩ <;> rw [h]
  · exact perform_trace_cases { s with seq := rest } a
  · exact .inr ⟨_, rfl⟩
  · exact .inl rfl

theorem acceptedIdle_trace {s t : State} {i : Instr} (h : AcceptedIdle s i t) : t.trace = s.trace := by
  cases h <;> rfl

/-- A command presented appends nothing to the trace, or its rejection (R203). -/
theorem exec_trace_cases {i : Instr} {s t : State} (h : exec i s = .next t) :
    t.trace = s.trace ∨ ∃ r, t.trace = s.trace ++ [.reply r] := by
  rcases exec_inversion h with rfl | ⟨st, rs, rfl⟩ | ⟨d, sh, l, n, c, -, rfl⟩ | ha
  · exact .inl rfl
  · exact .inr ⟨_, rfl⟩
  · exact .inl rfl
  · exact .inl (acceptedIdle_trace ha)

/-- Settles O44, by what a step can do. -/
theorem traceIsAppendOnly : Obligations.TraceIsAppendOnly := by
  intro s t h hreset
  rcases step_cases h with
    ⟨act, rest, hh, rfl⟩ | ⟨-, -, rfl⟩ | ⟨-, -, i, n, -, hx⟩ | ⟨-, -, r, n, -, rfl⟩ | ⟨-, -, -, rfl⟩
  · have hact : act ≠ .assertReset := fun ha => hreset rest (ha ▸ hh)
    rw [hostAct_block _ hact]
    exact .inl rfl
  · exact sequencerStep_trace_cases { s with host := passTurn s.host }
  · exact (exec_trace_cases hx).imp id fun ⟨r, hr⟩ => ⟨.reply r, hr⟩
  · obtain ⟨st, rs, -, -, hr⟩ := decoderReject_eq r (State.consume n { s with host := passTurn s.host })
    exact .inr ⟨_, congrArg State.trace hr⟩
  · exact .inl rfl

/-! ### Power-on and the reset input -/

/-- Settles O47: every part is a value of `State.reset`. -/
theorem powerOnState : Obligations.PowerOnState :=
  ⟨rfl, rfl, rfl, rfl, rfl, rfl, rfl, fun _ => ⟨rfl, rfl⟩⟩

theorem dropped_assertReset (s : State) :
    (s.phase = .busy → s.assertReset.dropped = s.dropped + 1) ∧ (s.phase ≠ .busy → s.assertReset.dropped = s.dropped) := by
  have h : s.assertReset.dropped = s.dropped + if s.ready then 0 else 1 := rfl
  rw [h, State.ready]
  rcases s.phase <;> simp

/-- Settles O48: the reset input is the host's move, and of the environment it draws the chain and settles the standing
(`afterReset_spec`). -/
theorem resetInput : Obligations.ResetInput := by
  intro s rest hh
  refine ⟨State.assertReset { s with host := rest }, step_hostMove hh, rfl, rfl, rfl, rfl, rfl, rfl, rfl, rfl, rfl, ?_⟩
  have henv : (State.assertReset { s with host := rest }).env = s.env.afterReset s.phase := rfl
  obtain ⟨hbusy, hready⟩ := dropped_assertReset { s with host := rest }
  rw [henv, afterReset_spec]
  refine ⟨rfl, rfl, rfl, rfl, rfl, rfl, rfl, rfl, rfl, fun h => ?_, fun h => ?_, fun h => ?_, rfl, rfl, rfl, hbusy, hready⟩
  · rw [h]; rfl
  · rw [h]; rfl
  · rw [h]; rfl

end Sys2Proof.Proofs

/-! ## The invariant (10_state.md R23, R26, R29, R30; 20_memory.md R50; 60_exceptions.md R201, R226)

Four ways to reach the next state cover every step but the reset input: the environment moves and the block does not, an
action of the list is performed, a reply is given, a command is accepted. Each keeps the invariant; `step_cases` puts them
together. -/

namespace Sys2Proof.Proofs

open Sys2Proof.Machine Sys2Proof.Laws

/-! ### The environment's part -/

/-- What the invariant asks of an operation of the environment: canonical lines and the chain's size are kept, the standing
stays or a premise fails, and where the chain is still vouched for, the premises that held before still hold. -/
structure EnvKeepsInv (e e' : Env) : Prop where
  lines : linesWf e.lines = true → linesWf e'.lines = true
  sized : ChainSized e.chain → ChainSized e'.chain
  standing : e'.standing = e.standing ∨ e'.standing = .failed
  premises : e'.standing = .vouched → ∀ c, premisesHold c e = true → premisesHold c e' = true

theorem EnvKeepsInv.refl (e : Env) : EnvKeepsInv e e :=
  ⟨id, id, .inl rfl, fun _ _ h => h⟩

theorem EnvKeepsInv.trans {a b c : Env} (h : EnvKeepsInv a b) (k : EnvKeepsInv b c) : EnvKeepsInv a c := by
  refine ⟨k.lines ∘ h.lines, k.sized ∘ h.sized, ?_, fun hv g hg => k.premises hv g (h.premises ?_ g hg)⟩
  · exact k.standing.elim (fun hk => hk ▸ h.standing) .inr
  · exact k.standing.elim (fun hk => hk ▸ hv) fun hk => by rw [hk] at hv; cases hv

/-- The premises speak of size, wiring and fault alone. -/
theorem premisesHold_of_keeps {c : Configuration} {e e' : Env} (hk : EnvKeeps e e') (hf : e'.fault = e.fault)
    (h : premisesHold c e = true) : premisesHold c e' = true := by
  rw [premisesHold_iff] at h ⊢
  rw [hk.chips, hk.serPin, hk.srclkPin, hk.rclkPin, hf]
  exact h

theorem keepsInv_of_keeps {e e' : Env} (hk : EnvKeeps e e') (hs : e'.standing = e.standing ∨ e'.standing = .failed)
    (hf : e'.standing = .vouched → e'.fault = e.fault) : EnvKeepsInv e e' :=
  ⟨hk.lines, hk.sized, hs, fun hv _ => premisesHold_of_keeps hk (hf hv)⟩

theorem configure_keepsInv (e : Env) (p : PinId) : EnvKeepsInv e (e.configure p) := by
  refine keepsInv_of_keeps (configure_keeps e p) (configure_standing_cases e p) fun hv => ?_
  obtain ⟨-, -, -, h⟩ := configure_vouched hv
  obtain ⟨gs, k, hd⟩ := drawLevel_spec e p
  rw [h, setLine_fault, hd]

theorem write_keepsInv (e : Env) (p : PinId) (lvl : Level) : EnvKeepsInv e (e.write p lvl) := by
  refine keepsInv_of_keeps (write_keeps e p lvl) (write_standing_cases e p lvl) fun hv => ?_
  obtain ⟨-, -, -, h⟩ := write_vouched hv
  rw [h, setLine_fault]

theorem keepVouch_keepsInv (ok : Bool) (e : Env) : EnvKeepsInv e (e.keepVouch ok) :=
  keepsInv_of_keeps (keepVouch_keeps ok e) (keepVouch_standing_cases ok e) fun _ => (keepVouch_lines ok e).2.1

theorem keepVouch_false_standing (e : Env) : (e.keepVouch false).standing ≠ .vouched := fun hv => by
  cases (keepVouch_vouched hv).1

/-- Rewiring breaks premise Wired, so no premise has to be shown. -/
theorem rewire_keepsInv (ser srclk rclk : PinId) (e : Env) : EnvKeepsInv e (e.rewire ser srclk rclk) :=
  have hk := rewire_keeps ser srclk rclk e
  ⟨hk.lines, hk.sized, keepVouch_standing_cases _ _, fun hv => absurd hv (keepVouch_false_standing _)⟩

theorem perform_env_keepsInv (s : State) (a : Action) : EnvKeepsInv s.env (s.perform a).env := by
  cases a with
  | pinConfigOut p => exact configure_keepsInv _ p
  | pinWrite p lvl => exact write_keepsInv _ p lvl
  | advance b => exact EnvKeepsInv.refl _

/-- Every act of the host but the reset input keeps the environment's part of the invariant. -/
theorem hostAct_env_keepsInv (s : State) {act : HostAct} (h : act ≠ .assertReset) :
    EnvKeepsInv s.env (s.hostAct act).env := by
  cases act with
  | present bytes => exact EnvKeepsInv.refl _
  | configurePin p => exact (configure_keepsInv _ p).trans (keepVouch_keepsInv _ _)
  | writePin p lvl => exact (write_keepsInv _ p lvl).trans (keepVouch_keepsInv _ _)
  | rewire ser srclk rclk => exact rewire_keepsInv ser srclk rclk _
  | assertReset => exact absurd rfl h

theorem standingMatchesPhase_of_keepsInv {s t : State} (he : EnvKeepsInv s.env t.env) (hp : t.phase = s.phase)
    (h : StandingMatchesPhase s) : StandingMatchesPhase t := by
  obtain ⟨hfresh, hunc⟩ := h
  unfold StandingMatchesPhase
  rw [hp]
  rcases he.standing with hs | hs <;> rw [hs]
  · exact ⟨hfresh, hunc⟩
  · exact ⟨nofun, fun _ => nofun⟩

theorem mirrorPremises_of_keepsInv {s t : State} (he : EnvKeepsInv s.env t.env) (hc : t.cfg = s.cfg)
    (h : s.env.standing = .vouched → MirrorPremises s) : t.env.standing = .vouched → MirrorPremises t := by
  intro hv
  have hs : s.env.standing = .vouched := he.standing.elim (fun hk => hk ▸ hv) fun hk => by rw [hk] at hv; cases hv
  rw [mirrorPremises_iff, hc]
  exact he.premises hv _ (mirrorPremises_iff.mp (h hs))

/-! ### The environment moves, and the block does not -/

/-- The invariant says nothing of the port, the host's schedule and the dropped commands. -/
theorem inv_moveEnv {s : State} (h : Inv s) (port : List Byte) (host : List HostMove) {e : Env}
    (he : EnvKeepsInv s.env e) : Inv { s with port := port, host := host, env := e } :=
  { h with
    lines := he.lines h.lines
    chain := he.sized h.chain
    vouched := mirrorPremises_of_keepsInv he rfl h.vouched
    standing := standingMatchesPhase_of_keepsInv he rfl h.standing }

theorem inv_schedule {s : State} (h : Inv s) (port : List Byte) (host : List HostMove) :
    Inv { s with port := port, host := host } :=
  inv_moveEnv h port host (EnvKeepsInv.refl _)

/-! ### An action is performed -/

@[simp] theorem repliesOf_append (t u : List Event) : repliesOf (t ++ u) = repliesOf t ++ repliesOf u := by
  simp [repliesOf]

/-- An action gives no reply. -/
theorem repliesOf_perform (s : State) (a : Action) : repliesOf (s.perform a).trace = repliesOf s.trace := by
  cases a <;> simp [repliesOf]

theorem length_advance (shadow : List Bit) (b : Bit) (h : 0 < shadow.length) :
    (advance shadow b).length = shadow.length := by
  simp only [advance, List.length_append, List.length_tail, List.length_singleton]
  omega

theorem length_shadow_perform (s : State) (a : Action) (h : 0 < s.shadow.length) :
    (s.perform a).shadow.length = s.shadow.length := by
  cases a with
  | advance b => exact length_advance _ b h
  | _ => rfl

/-- A constructed block has at least one chip, so its shadow is not empty. -/
theorem shadow_pos {s : State} (h : Inv s) (hc : s.phase ≠ .unconstructed) : 0 < s.shadow.length := by
  obtain ⟨-, -, -, hdepth, -⟩ := h.configuration hc
  have := h.shadow hc
  omega

theorem inv_perform {s : State} {a : Action} {rest : List Action} (h : Inv s) (hb : s.phase = .busy)
    (hs : s.seq = a :: rest) : Inv (State.perform { s with seq := rest } a) := by
  have hc : s.phase ≠ .unconstructed := by simp [hb]
  have hpos : 0 < s.shadow.length := shadow_pos h hc
  have he := perform_env_keepsInv { s with seq := rest } a
  constructor
  case params => simpa using h.params
  case configuration => simpa [ConfigurationValid] using h.configuration
  case shadow =>
    intro _
    rw [perform_cfg]
    exact (length_shadow_perform { s with seq := rest } a hpos).trans (h.shadow hc)
  case sequencer =>
    obtain ⟨-, hreply⟩ := h.sequencer
    simpa [SequencerMatchesPhase, hb] using hreply hb
  case data =>
    intro r bits hr hbits
    rw [perform_pendingReply] at hr
    have : s.seq = [] := (h.data r bits hr hbits).2
    simp [hs] at this
  case roles =>
    intro b hmem
    rw [perform_seq] at hmem
    rw [perform_cfg]
    exact h.roles b (hs ▸ List.mem_cons_of_mem a hmem)
  case status => simpa [StatusIsLastReply, repliesOf_perform] using h.status
  case replies => simpa [RepliesWellFormed, repliesOf_perform] using h.replies
  case lines => exact he.lines h.lines
  case chain => exact he.sized h.chain
  case vouched => exact mirrorPremises_of_keepsInv (s := s) he (perform_cfg _ a) h.vouched
  case standing => exact standingMatchesPhase_of_keepsInv (s := s) he (perform_phase _ a) h.standing

/-! ### A reply is given -/

theorem statusIsLastReply_deliver (r : Reply) (s : State) : StatusIsLastReply (s.deliver r) := by
  simp [StatusIsLastReply, repliesOf]

theorem repliesWellFormed_deliver {r : Reply} {s : State} (h : RepliesWellFormed s)
    (hr : (r.data.isSome = true → r.status = .ok) ∧ (r.reason ≠ .none ↔ r.status = .invalidArgument)) :
    RepliesWellFormed (s.deliver r) := by
  intro q hq
  rw [deliver_trace, repliesOf_append, List.mem_append] at hq
  rcases hq with hq | hq
  · exact h q hq
  · obtain rfl : q = r := by simpa [repliesOf] using hq
    exact hr

theorem inv_reject {s : State} {st : Status} {rs : Reason} (h : Inv s) (hr : rs ≠ .none ↔ st = .invalidArgument) :
    Inv (s.reject st rs) :=
  { h with
    status := statusIsLastReply_deliver _ s
    replies := repliesWellFormed_deliver h.replies ⟨by simp, hr⟩
    vouched := mirrorPremises_of_keepsInv (EnvKeepsInv.refl s.env) rfl h.vouched }

theorem inv_decoderReject {s : State} (h : Inv s) (r : DecodeReject) : Inv (s.decoderReject r) := by
  obtain ⟨st, rs, -, hr, heq⟩ := decoderReject_eq r s
  exact heq ▸ inv_reject h hr

theorem inv_complete {s : State} {r : Reply} (h : Inv s) (hb : s.phase = .busy) (hs : s.seq = [])
    (hr : s.pendingReply = some r) : Inv (s.complete r) := by
  have hc : s.phase ≠ .unconstructed := by simp [hb]
  obtain ⟨hfresh, -⟩ := h.standing
  obtain ⟨q, hq, hok, hnone⟩ := h.sequencer.2 hb
  obtain rfl : r = q := by simpa [hr] using hq
  exact { h with
    configuration := fun _ => h.configuration hc
    shadow := fun _ => h.shadow hc
    sequencer := ⟨fun _ => ⟨hs, rfl⟩, nofun⟩
    data := nofun
    status := statusIsLastReply_deliver r s
    replies := repliesWellFormed_deliver h.replies ⟨fun _ => hok, by simp [hok, hnone]⟩
    vouched := mirrorPremises_of_keepsInv (EnvKeepsInv.refl s.env) rfl h.vouched
    standing := ⟨fun hf => absurd (hfresh hf) hc, nofun⟩ }

theorem inv_sequencerStep {s : State} (h : Inv s) (hb : s.phase = .busy) : Inv s.sequencerStep := by
  rcases sequencerStep_cases s with ⟨a, rest, hs, heq⟩ | ⟨r, hs, hr, heq⟩ | ⟨-, hr, -⟩
  · exact heq ▸ inv_perform h hb hs
  · exact heq ▸ inv_complete h hb hs hr
  · obtain ⟨-, hbusy⟩ := h.sequencer
    obtain ⟨q, hq, -⟩ := hbusy hb
    simp [hr] at hq

/-! ### A command is accepted -/

/-- R23 of a configuration. -/
def LegalConfiguration (params : Config.Params) (c : Configuration) : Prop :=
  params.pinValid c.dataPin = true ∧ params.pinValid c.shiftClockPin = true ∧ params.pinValid c.latchClockPin = true ∧
    1 ≤ c.chainDepth ∧ params.depthTooLarge (c.chainDepth : Int) = false

theorem legalConfiguration_of_idle {s : State} (h : Inv s) (hi : s.phase = .idle) : LegalConfiguration s.params s.cfg :=
  h.configuration (by simp [hi])

theorem legalConfiguration_of_checkInit {params : Config.Params} {d sh l n : Int} {c : Configuration}
    (h : checkInit params d sh l n = .ok c) : LegalConfiguration params c := by
  obtain ⟨hd, hs, hl, hn, rfl, rfl, rfl⟩ := checkInit_ok.mp h
  obtain ⟨rfl, hpos, hcap⟩ := checkDepth_ok.mp hn
  exact ⟨hd, hs, hl, hpos, hcap⟩

/-- What an acceptance that leaves the configuration `c` may do to the environment: a chain it leaves vouched for has the
premises, and none is left fresh. -/
structure VouchSettled (c : Configuration) (e e' : Env) : Prop where
  keeps : EnvKeeps e e'
  premises : e'.standing = .vouched → premisesHold c e' = true
  notFresh : e'.standing ≠ .fresh

/-- The premises do not speak of the standing, so setting it keeps them. -/
theorem vouchSettled_vouchIf {c : Configuration} {ok : Bool} {e : Env} (hok : ok = true → premisesHold c e = true) :
    VouchSettled c e (e.vouchIf ok) where
  keeps := vouchIf_keeps ok e
  premises hv := by
    obtain ⟨h, heq⟩ := vouchIf_vouched hv
    rw [heq]
    exact hok h
  notFresh := by cases ok <;> nofun

theorem vouchSettled_revouch (c : Configuration) (e : Env) : VouchSettled c e (e.revouch c) :=
  vouchSettled_vouchIf fun h => (Bool.and_eq_true_iff.mp h).1

theorem vouchSettled_keepVouch {c : Configuration} {e : Env} (hf : e.standing ≠ .fresh) :
    VouchSettled c e (e.keepVouch (premisesHold c e)) where
  keeps := keepVouch_keeps _ e
  premises hv := by
    obtain ⟨h, -, heq⟩ := keepVouch_vouched hv
    rw [heq]
    exact h
  notFresh := by
    rcases keepVouch_standing_cases (premisesHold c e) e with hk | hk <;> rw [hk]
    · exact hf
    · nofun

/-- What every acceptance writes, and when it meets the invariant. -/
theorem inv_accept {s : State} {c : Configuration} {shadow : List Bit} {e : Env} {acts : List Action} {r : Reply} (h : Inv s)
    (hc : LegalConfiguration s.params c) (hlen : shadow.length = 8 * c.chainDepth)
    (hok : r.status = .ok ∧ r.reason = .none) (hdata : ∀ bits, r.data = some bits → bits = shadow ∧ acts = [])
    (hacts : ∀ a ∈ acts, ActionOnRoles c a) (he : VouchSettled c s.env e) :
    Inv (State.accept acts r { s with cfg := c, shadow := shadow, env := e }) :=
  { h with
    configuration := fun _ => hc
    shadow := fun _ => hlen
    sequencer := ⟨fun hn => absurd rfl hn, fun _ => ⟨r, rfl, hok⟩⟩
    data := fun q bits hq hbits => hdata bits (by cases hq; exact hbits)
    roles := hacts
    lines := he.keeps.lines h.lines
    chain := he.keeps.sized h.chain
    vouched := fun hv => mirrorPremises_iff.mpr (he.premises hv)
    standing := ⟨fun hf => absurd hf he.notFresh, nofun⟩ }

theorem actionOnRoles_pinSetup (c : Configuration) : ∀ a ∈ pinSetup c, ActionOnRoles c a := by
  simp [pinSetup, ActionOnRoles]

theorem inv_construct {s : State} {c : Configuration} (h : Inv s) (hc : LegalConfiguration s.params c) :
    Inv (s.construct c) := by
  refine inv_accept h hc (length_zeros _) ⟨rfl, rfl⟩ nofun (fun a ha => ?_) (vouchSettled_vouchIf id)
  exact (List.mem_append.mp ha).elim (actionOnRoles_pinSetup c a) (actionOnRoles_txn c _ a)

section Idle

variable {s : State} (h : Inv s) (hi : s.phase = .idle)
include h hi

/-- An idle block has been constructed, so the premises have been in force. -/
theorem standing_ne_fresh_of_idle : s.env.standing ≠ .fresh := fun hf => by
  have := h.standing.1 hf
  simp [hi] at this

theorem vouchSettled_of_idle : VouchSettled s.cfg s.env s.env :=
  ⟨EnvKeeps.refl _, fun hv => mirrorPremises_iff.mp (h.vouched hv), standing_ne_fresh_of_idle h hi⟩

theorem length_shadow_of_idle : s.shadow.length = 8 * s.cfg.chainDepth :=
  h.shadow (by simp [hi])

theorem inv_replaceConfig {c : Configuration} (hc : LegalConfiguration s.params c)
    (hdepth : c.chainDepth = s.cfg.chainDepth) : Inv (s.replaceConfig c) :=
  inv_accept h hc (hdepth ▸ length_shadow_of_idle h hi) ⟨rfl, rfl⟩ nofun nofun
    (vouchSettled_keepVouch (standing_ne_fresh_of_idle h hi))

theorem inv_resize {n : Nat} (hn : checkDepth s.params (n : Int) = .ok n) : Inv (s.resize n) := by
  obtain ⟨hd, hs, hl, -, -⟩ := legalConfiguration_of_idle h hi
  obtain ⟨-, hpos, hcap⟩ := checkDepth_ok.mp hn
  exact inv_accept (s := s) (c := { s.cfg with chainDepth := n }) h ⟨hd, hs, hl, hpos, hcap⟩ (length_zeros _) ⟨rfl, rfl⟩
    nofun (actionOnRoles_txn { s.cfg with chainDepth := n } _) (vouchSettled_revouch _ _)

theorem inv_startShift (bits : BitSequence) : Inv (s.startShift bits) :=
  inv_accept h (legalConfiguration_of_idle h hi) (length_shadow_of_idle h hi) ⟨rfl, rfl⟩ nofun (actionOnRoles_txn _ _)
    (vouchSettled_of_idle h hi)

theorem inv_startClear : Inv s.startClear :=
  inv_accept h (legalConfiguration_of_idle h hi) (length_shadow_of_idle h hi) ⟨rfl, rfl⟩ nofun (actionOnRoles_txn _ _)
    (vouchSettled_revouch _ _)

theorem inv_readState : Inv (s.accept [] (stateReply s)) :=
  inv_accept h (legalConfiguration_of_idle h hi) (length_shadow_of_idle h hi) ⟨rfl, rfl⟩
    (fun _ hbits => ⟨(Option.some.inj hbits).symm, rfl⟩) nofun (vouchSettled_of_idle h hi)

theorem inv_acceptedIdle {i : Instr} {t : State} (ha : AcceptedIdle s i t) : Inv t := by
  obtain ⟨hd, hs, hl, hdepth⟩ := legalConfiguration_of_idle h hi
  cases ha with
  | data p hp => exact inv_replaceConfig h hi ⟨hp, hs, hl, hdepth⟩ rfl
  | shiftClock p hp => exact inv_replaceConfig h hi ⟨hd, hp, hl, hdepth⟩ rfl
  | latchClock p hp => exact inv_replaceConfig h hi ⟨hd, hs, hp, hdepth⟩ rfl
  | depth n hn => exact inv_resize h hi hn
  | shift i bits => exact inv_startShift h hi bits
  | clear => exact inv_startClear h hi
  | read => exact inv_readState h hi

end Idle

theorem inv_exec {i : Instr} {s t : State} (h : Inv s) (hb : s.phase ≠ .busy) (hx : exec i s = .next t) : Inv t := by
  rcases exec_cases hx hb with ⟨st, rs, -, hr, rfl⟩ | ⟨d, sh, l, n, c, -, hc, rfl⟩ | ⟨hi, ha⟩
  · exact inv_reject h hr
  · exact inv_construct h (legalConfiguration_of_checkInit hc)
  · exact inv_acceptedIdle h hi ha

/-! ### The host's moves -/

/-- A block not yet constructed with its power-on values meets the invariant in any environment whose chain is not vouched
for. -/
theorem inv_powerOn {params : Config.Params} {e : Env} (port : List Byte) (host : List HostMove) (dropped : Nat)
    (hp : params.wf = true) (hl : linesWf e.lines = true) (hc : ChainSized e.chain) (hv : e.standing ≠ .vouched) :
    Inv { State.reset with params := params, env := e, port := port, host := host, dropped := dropped } where
  params := hp
  configuration := fun hn => absurd rfl hn
  shadow := fun hn => absurd rfl hn
  sequencer := ⟨fun _ => ⟨rfl, rfl⟩, nofun⟩
  data := nofun
  roles := nofun
  status := ⟨rfl, rfl⟩
  replies := nofun
  lines := hl
  chain := hc
  vouched := fun hvouched => absurd hvouched hv
  standing := ⟨fun _ => rfl, fun _ => hv⟩

/-- After the reset input no premise is in force. -/
theorem afterReset_standing_ne_vouched {s : State} (h : Inv s) : (s.env.afterReset s.phase).standing ≠ .vouched := by
  rcases hp : s.phase with _ | _ | _
  · exact h.standing.2 hp
  · nofun
  · nofun

theorem inv_assertReset {s : State} (h : Inv s) : Inv s.assertReset :=
  have hk := afterReset_keeps s.phase s.env
  inv_powerOn _ _ _ h.params (hk.lines h.lines) (hk.sized h.chain) (afterReset_standing_ne_vouched h)

theorem inv_hostAct {s : State} (h : Inv s) (act : HostAct) : Inv (s.hostAct act) := by
  by_cases ha : act = .assertReset
  · subst ha
    exact inv_assertReset h
  · rw [hostAct_block s ha]
    exact inv_moveEnv h _ _ (hostAct_env_keepsInv s ha)

/-! ### Every step, and power-on -/

/-- Settles O46, by what a step can do. -/
theorem stepKeepsInvariant : Obligations.StepKeepsInvariant := by
  intro s t h hstep
  rcases step_cases hstep with
    ⟨act, rest, -, rfl⟩ | ⟨-, hb, rfl⟩ | ⟨-, hb, i, n, -, hx⟩ | ⟨-, -, r, n, -, rfl⟩ | ⟨-, -, -, rfl⟩
  · exact inv_hostAct (inv_schedule h s.port rest) act
  · exact inv_sequencerStep (inv_schedule h s.port _) hb
  · exact inv_exec (inv_schedule h (s.port.drop n) (passTurn s.host)) hb hx
  · exact inv_decoderReject (inv_schedule h (s.port.drop n) (passTurn s.host)) r
  · exact inv_schedule h s.port _

theorem chainSized_resetChain : ChainSized resetChain :=
  ⟨le_rfl, by simp [resetChain, Config.bitsPerChip], by simp [resetChain, Config.bitsPerChip]⟩

/-- Settles O45: at power-on nothing is vouched for, so the mirror part asks nothing. -/
theorem resetMeetsInvariant : Obligations.ResetMeetsInvariant :=
  ⟨inv_powerOn [] [] 0 rfl rfl chainSized_resetChain nofun, mirrorsAfter_unvouched [] State.reset nofun⟩

end Sys2Proof.Proofs

/-! ## The Busy wait (10_state.md R30, R37; 70_reset_and_hazards.md R252) -/

namespace Sys2Proof.Proofs

open Sys2Proof.Machine Sys2Proof.Laws

/-! ### With no move of the host to come -/

theorem performAll_withSeq (s : State) (as seq : List Action) :
    State.performAll { s with seq := seq } as = { s.performAll as with seq := seq } := by
  rw [performAll_eq, performAll_eq s as, performAll_env_congr { s with seq := seq } s as rfl]

theorem passTurn_host {s : State} (h : s.host = []) : passTurn s.host = s.host := by
  rw [h]
  rfl

/-- The block performs the actions of its list one a step, in order. -/
theorem steps_performAll {s : State} {as rest : List Action} (hb : s.phase = .busy) (hh : s.host = [])
    (hs : s.seq = as ++ rest) : steps as.length s = .next { s.performAll as with seq := rest } := by
  induction as generalizing s with
  | nil =>
    cases s
    cases hs
    rfl
  | cons a as ih =>
    have hfirst : step s = .next (State.perform { s with seq := as ++ rest } a) := by
      rw [step_action (rest := as ++ rest) hb (by rw [hh]; rfl) hs, passTurn_host hh]
    have hrest := ih (s := State.perform { s with seq := as ++ rest } a) (by simpa using hb) (by simpa using hh) (by simp)
    rw [List.length_cons, steps_succ _ _ _ hfirst, hrest, ← performAll_cons, performAll_withSeq]

theorem steps_reply {s : State} {r : Reply} (hb : s.phase = .busy) (hh : s.host = []) (hr : s.pendingReply = some r) :
    steps (s.seq.length + 1) s = .next ((s.performAll s.seq).afterReply r) := by
  have hall := steps_performAll hb hh (List.append_nil s.seq).symm
  have hlast : step { s.performAll s.seq with seq := [] } = .next ((s.performAll s.seq).afterReply r) := by
    rw [step_reply (r := r) (by simpa using hb) (by simp [hh, noMoveDue]) rfl (by simpa using hr)]
    simp [State.afterReply, hh, passTurn]
  rw [steps_add _ 1 _ _ hall, steps_succ _ _ _ hlast]
  rfl

/-! ### With moves of the host to come -/

/-- Within `n` steps the block performs what is left of its list, replies `r` and is Idle. -/
def RepliesWithin (n : Nat) (s : State) (r : Reply) : Prop :=
  ∃ k t, k ≤ n ∧ steps k s = .next t ∧ t.phase = .idle ∧ t.trace = s.trace ++ eventsOf s.seq ++ [.reply r] ∧
    t.shadow = advanceAll s.shadow (bitsOf s.seq) ∧ t.cfg = s.cfg

/-- A step that performs part of the list, or none of it, comes before the rest of the wait. -/
theorem repliesWithin_succ {s u : State} {r : Reply} {n : Nat} (hstep : step s = .next u)
    (htrace : u.trace ++ eventsOf u.seq = s.trace ++ eventsOf s.seq)
    (hshadow : advanceAll u.shadow (bitsOf u.seq) = advanceAll s.shadow (bitsOf s.seq)) (hcfg : u.cfg = s.cfg)
    (h : RepliesWithin n u r) : RepliesWithin (n + 1) s r := by
  obtain ⟨k, t, hk, hrun, hidle, ht, hsh, hc⟩ := h
  exact ⟨k + 1, t, Nat.succ_le_succ hk, (steps_succ k s u hstep).trans hrun, hidle, by rw [ht, htrace], hsh.trans hshadow,
    hc.trans hcfg⟩

theorem repliesWithin_of_reply {s : State} {r : Reply} (n : Nat) (hb : s.phase = .busy)
    (hd : noMoveDue s.host = true) (hs : s.seq = []) (hr : s.pendingReply = some r) : RepliesWithin (n + 1) s r :=
  ⟨1, _, Nat.le_add_left 1 n, steps_succ 0 s _ (step_reply hb hd hs hr), rfl, by simp [hs, eventsOf],
    by simp [hs, bitsOf, advanceAll], rfl⟩

theorem length_passTurn (ms : List HostMove) : (passTurn ms).length = ms.length := by
  cases ms <;> rfl

/-- A turn of the block changes when the host's moves are due, not what they do. -/
theorem act_passTurn {ms : List HostMove} {P : HostAct → Prop} (h : ∀ m ∈ ms, P m.act) : ∀ m ∈ passTurn ms, P m.act := by
  cases ms with
  | nil => exact h
  | cons m ms =>
    obtain ⟨hm, hms⟩ := List.forall_mem_cons.mp h
    exact List.forall_mem_cons.mpr ⟨hm, hms⟩

theorem noMoveDue_cases (ms : List HostMove) :
    noMoveDue ms = true ∨ ∃ act rest, ms = { after := 0, act := act } :: rest := by
  rcases ms with _ | ⟨⟨_ | k, act⟩, rest⟩
  · exact .inl rfl
  · exact .inr ⟨act, rest, rfl⟩
  · exact .inl (by simp [noMoveDue])

/-- Every step of the wait takes a move from the host's schedule or an action from the list, and the last one replies. -/
theorem repliesWithin_busy {s : State} {r : Reply} (hb : s.phase = .busy) (hr : s.pendingReply = some r)
    (hreset : ∀ m ∈ s.host, m.act ≠ .assertReset) : RepliesWithin (s.seq.length + s.host.length + 1) s r := by
  induction hn : s.seq.length + s.host.length generalizing s with
  | zero =>
    obtain ⟨hs, hh⟩ : s.seq = [] ∧ s.host = [] := by simpa using hn
    exact repliesWithin_of_reply 0 hb (by simp [hh, noMoveDue]) hs hr
  | succ n ih =>
    rcases noMoveDue_cases s.host with hd | ⟨act, rest, hh⟩
    · rcases hs : s.seq with _ | ⟨a, rest⟩
      · exact repliesWithin_of_reply (n + 1) hb hd hs hr
      · refine repliesWithin_succ (step_action hb hd hs) ?_ ?_ (perform_cfg _ a)
          (ih (by simpa using hb) (by simpa using hr) (by simpa using act_passTurn (P := (· ≠ .assertReset)) hreset) ?_)
        · rw [hs, perform_seq]
          cases a <;> simp [eventsOf]
        · rw [hs, perform_seq]
          cases a <;> rfl
        · rw [hs, List.length_cons] at hn
          simp only [perform_seq, perform_host, length_passTurn]
          omega
    · obtain ⟨hact, hrest⟩ := List.forall_mem_cons.mp (hh ▸ hreset)
      have hmove : step s = .next _ := (step_hostMove hh).trans (congrArg _ (hostAct_block _ hact))
      rw [hh, List.length_cons] at hn
      exact repliesWithin_succ hmove rfl rfl rfl (ih hb hr hrest (by simpa using by omega))

/-- Settles O12: `steps_performAll` and `steps_reply` count the steps where the host makes no move, `repliesWithin_busy`
bounds them where it does. -/
theorem busyWaitEnds : Obligations.BusyWaitEnds := by
  intro s r hb hr
  refine ⟨fun hh => ⟨fun k hk => ?_, steps_reply hb hh hr⟩, repliesWithin_busy hb hr⟩
  have hrun := steps_performAll (as := s.seq.take k) hb hh (List.take_append_drop k s.seq).symm
  rw [List.length_take_of_le hk] at hrun
  exact ⟨_, hrun, by simpa using hb, rfl, by simp, by simp, by simpa using hr⟩

/-! ### INIT -/

/-- An accepted command with no move of the host to come ends `L + 2` steps after it is presented, `L` the length of its action
list (R252). -/
theorem steps_accepted {s u : State} {r : Reply} (h : step s = .next u) (hb : u.phase = .busy) (hh : u.host = [])
    (hr : u.pendingReply = some r) : steps (u.seq.length + 2) s = .next ((u.performAll u.seq).afterReply r) :=
  (steps_succ _ _ _ h).trans (steps_reply hb hh hr)

theorem exec_init_accept {st : State} {d s l : Int} {n : Nat} (hb : st.phase ≠ .busy)
    (hd : st.params.pinValid d = true) (hs : st.params.pinValid s = true) (hl : st.params.pinValid l = true) (hn : 1 ≤ n)
    (hcap : st.params.depthTooLarge (n : Int) = false) :
    exec (.init d s l (n : Int)) st =
      .next (st.construct { dataPin := d, shiftClockPin := s, latchClockPin := l, chainDepth := n }) := by
  have hc : checkInit st.params d s l (n : Int) =
      .ok { dataPin := d, shiftClockPin := s, latchClockPin := l, chainDepth := n } :=
    checkInit_ok.mpr ⟨hd, hs, hl, checkDepth_ok.mpr ⟨rfl, hn, hcap⟩, rfl, rfl, rfl⟩
  rw [exec, execInit, whenReady_ready _ st hb, hc]
  rfl

theorem step_init_accept {st : State} {d s l : Int} {n len : Nat} (hb : st.phase ≠ .busy) (hh : st.host = [])
    (hp : decode st.port = .cmd (.init d s l (n : Int)) len) (hd : st.params.pinValid d = true)
    (hs : st.params.pinValid s = true) (hl : st.params.pinValid l = true) (hn : 1 ≤ n)
    (hcap : st.params.depthTooLarge (n : Int) = false) :
    step st = .next (State.construct { dataPin := d, shiftClockPin := s, latchClockPin := l, chainDepth := n }
      { st with port := st.port.drop len }) := by
  rw [step_command hb (by rw [hh]; rfl) hp, passTurn_host hh]
  exact exec_init_accept (st := st.consume len) hb hd hs hl hn hcap

theorem length_txn (d s l : PinId) (bits : BitSequence) : (txn d s l bits).length = 4 * bits.length + 2 := by
  induction bits with
  | nil => rfl
  | cons b bits ih =>
    rw [txn_cons, List.length_append, ih, List.length_cons]
    simp only [List.length_cons, List.length_nil]
    omega

theorem length_clearEvents (d s l : PinId) (k : Nat) : (clearEvents d s l k).length = 3 * k + 2 := by
  simp [clearEvents, Nat.mul_comm]

theorem bitsOf_txn (d s l : PinId) (bits : BitSequence) : bitsOf (txn d s l bits) = bits := by
  induction bits with
  | nil => rfl
  | cons b bits ih =>
    rw [txn_cons, bitsOf_append, ih]
    rfl

theorem advance_zeros (m : Nat) (hm : 0 < m) : advance (zeros m) false = zeros m := by
  obtain ⟨m, rfl⟩ : ∃ j, m = j + 1 := ⟨m - 1, by omega⟩
  exact (List.replicate_succ' ..).symm

/-- Zeros shifted into a shadow of zeros leave it as it is. -/
theorem advanceAll_zeros (m k : Nat) (hm : 0 < m) : advanceAll (zeros m) (zeros k) = zeros m := by
  induction k with
  | zero => rfl
  | succ k ih =>
    have hcons : zeros (k + 1) = false :: zeros k := List.replicate_succ
    rw [hcons, advanceAll, List.foldl_cons, advance_zeros m hm]
    exact ih

theorem lastWrite_append (p : PinId) (acc : Option Level) (t u : List Event) :
    lastWrite p acc (t ++ u) = lastWrite p (lastWrite p acc t) u := by
  induction t generalizing acc with
  | nil => rfl
  | cons e t ih => cases e <;> exact ih _

/-- The writes of one zero leave the data line and the shift clock low, on one pin or on two. -/
theorem lastWrite_zeroBit (d s p : PinId) (acc : Option Level) :
    lastWrite p acc [.write d .low, .write s .high, .write s .low] = if p = d ∨ p = s then some .low else acc := by
  simp only [lastWrite]
  by_cases hs : s = p
  · simp [hs]
  · simp [hs, eq_comm (a := p)]

/-- What the writes of some zeros, at least one of them, drive last. -/
theorem lastWrite_zeroBits (d s p : PinId) (acc : Option Level) (k : Nat) (hk : 0 < k) (hp : p = d ∨ p = s) :
    lastWrite p acc (List.replicate k [Event.write d .low, Event.write s .high, Event.write s .low]).flatten =
      some .low := by
  obtain ⟨k, rfl⟩ : ∃ m, k = m + 1 := ⟨k - 1, by omega⟩
  rw [List.replicate_succ', List.flatten_append, lastWrite_append, List.flatten_singleton, lastWrite_zeroBit, if_pos hp]

/-- A CLEAR of at least one zero leaves all its three pins low, whichever of them coincide. -/
theorem lastWrite_clearEvents (d s l p : PinId) (acc : Option Level) (k : Nat) (hk : 0 < k)
    (hp : p = d ∨ p = s ∨ p = l) : lastWrite p acc (clearEvents d s l k) = some .low := by
  rw [clearEvents, lastWrite_append]
  by_cases hl : l = p
  · simp [lastWrite, hl]
  · have hds : p = d ∨ p = s := by
      rcases hp with h | h | h
      · exact .inl h
      · exact .inr h
      · exact absurd h.symm hl
    rw [lastWrite_zeroBits d s p acc k hk hds]
    simp [lastWrite, hl]

theorem length_construct_seq (c : Configuration) (s : State) : (s.construct c).seq.length = 32 * c.chainDepth + 5 := by
  rw [construct_seq, List.length_append, length_txn, length_zeros, capacity_eq]
  simp only [pinSetup, List.length_cons, List.length_nil]
  omega

theorem eventsOf_construct_seq (c : Configuration) (s : State) :
    eventsOf (s.construct c).seq = [.cfgOut c.dataPin, .cfgOut c.shiftClockPin, .cfgOut c.latchClockPin] ++
      clearEvents c.dataPin c.shiftClockPin c.latchClockPin (8 * c.chainDepth) := by
  rw [construct_seq, eventsOf_append, eventsOf_txn_zeros]
  rfl

theorem bitsOf_construct_seq (c : Configuration) (s : State) :
    bitsOf (s.construct c).seq = zeros (8 * c.chainDepth) := by
  rw [construct_seq, bitsOf_append, bitsOf_txn]
  rfl

/-- A run that ends with a CLEAR and its reply leaves the pins of the CLEAR driven low. -/
theorem drv_of_clear {t : State} {before : List Event} {r : Reply} {d s l p : PinId} {k : Nat}
    (ht : t.trace = before ++ clearEvents d s l k ++ [.reply r]) (hk : 0 < k) (hp : p = d ∨ p = s ∨ p = l) :
    t.drv p = some .low := by
  rw [State.drv, ht, lastWrite_append, lastWrite_append]
  exact lastWrite_clearEvents d s l p _ k hk hp

/-- What INIT appends to the trace, from the state it is accepted in to its reply (R37). -/
theorem construct_performAll_trace (c : Configuration) (s : State) (r : Reply) :
    (((s.construct c).performAll (s.construct c).seq).afterReply r).trace =
      s.trace ++ [.cfgOut c.dataPin, .cfgOut c.shiftClockPin, .cfgOut c.latchClockPin] ++
        clearEvents c.dataPin c.shiftClockPin c.latchClockPin (8 * c.chainDepth) ++ [.reply r] := by
  rw [afterReply_trace, performAll_trace, eventsOf_construct_seq, construct_trace]
  simp only [List.append_assoc]

theorem construct_performAll_shadow {c : Configuration} (hc : 1 ≤ c.chainDepth) (s : State) :
    ((s.construct c).performAll (s.construct c).seq).shadow = zeros (8 * c.chainDepth) := by
  rw [performAll_shadow, bitsOf_construct_seq, construct_shadow, capacity_eq]
  exact advanceAll_zeros _ _ (by omega)

/-- Settles O23: one step accepts and `steps_accepted` does the rest; the levels last driven are read off the trace. -/
theorem initCompletes : Obligations.InitCompletes := by
  intro st d s l n len hb hh hp hd hs hl hn hcap
  have hrun := steps_accepted (step_init_accept hb hh hp hd hs hl hn hcap) rfl hh rfl
  rw [length_construct_seq] at hrun
  have htrace := construct_performAll_trace { dataPin := d, shiftClockPin := s, latchClockPin := l, chainDepth := n }
    { st with port := st.port.drop len } okReply
  have hdrv {p : PinId} := drv_of_clear (p := p) htrace (by simpa using by omega)
  refine ⟨_, hrun, rfl, by simp, construct_performAll_shadow hn _, hdrv (.inl rfl),
    hdrv (.inr (.inl rfl)), hdrv (.inr (.inr rfl)), rfl, rfl, rfl, rfl, htrace, ?_, performAll_env_congr _ _ _ rfl,
    by simp, by simp, by simpa using hh⟩
  rw [length_clearEvents]
  omega

end Sys2Proof.Proofs

/-! ## What a command leaves unchanged (10_state.md R22, R24, R25, R29) -/

namespace Sys2Proof.Proofs

open Sys2Proof.Machine Sys2Proof.Laws

/-! ### The environment -/

/-- What the accepting or rejecting step of a command can do to the environment: nothing, or settle the vouch for the chain. -/
inductive EnvAfterCommand (e : Env) : Env → Prop
  | same : EnvAfterCommand e e
  | vouched : EnvAfterCommand e { e with standing := .vouched }
  | unvouched : EnvAfterCommand e e.unvouch

theorem envAfterCommand_vouchIf (ok : Bool) (e : Env) : EnvAfterCommand e (e.vouchIf ok) := by
  cases ok
  · exact .unvouched
  · exact .vouched

theorem envAfterCommand_keepVouch (ok : Bool) (e : Env) : EnvAfterCommand e (e.keepVouch ok) := by
  rcases keepVouch_cases ok e with ⟨-, -, h⟩ | ⟨-, h⟩ <;> rw [h]
  · exact .unvouched
  · exact .same

theorem acceptedIdle_envAfterCommand {s t : State} {i : Instr} (h : AcceptedIdle s i t) :
    EnvAfterCommand s.env t.env := by
  cases h with
  | data | shiftClock | latchClock => exact envAfterCommand_keepVouch _ _
  | depth | clear => exact envAfterCommand_vouchIf _ _
  | shift | read => exact .same

theorem exec_envAfterCommand {i : Instr} {s t : State} (h : exec i s = .next t) : EnvAfterCommand s.env t.env := by
  rcases exec_inversion h with rfl | ⟨st, rs, rfl⟩ | ⟨d, sh, l, n, c, -, rfl⟩ | ha
  · exact .same
  · exact .same
  · exact envAfterCommand_vouchIf _ _
  · exact acceptedIdle_envAfterCommand ha

/-- The commands whose accepting step settles the vouch for the chain. -/
def settlesVouch : Instr → Bool
  | .init _ _ _ _ | .setDataPin _ | .setShiftPin _ | .setLatchPin _ | .setDepth _ | .clear => true
  | .shiftBits _ | .shiftInt _ | .shiftBool _ | .readState => false

theorem acceptedIdle_env_eq {s t : State} {i : Instr} (h : AcceptedIdle s i t) (hi : settlesVouch i = false) :
    t.env = s.env := by
  cases h with
  | shift | read => rfl
  | data | shiftClock | latchClock | depth | clear => cases hi

/-- Nothing happens to the environment where the command settles no vouch. -/
theorem exec_env_eq {i : Instr} {s t : State} (h : exec i s = .next t) (hi : settlesVouch i = false) : t.env = s.env := by
  rcases exec_inversion h with rfl | ⟨st, rs, rfl⟩ | ⟨d, sh, l, n, c, rfl, -⟩ | ha
  · rfl
  · rfl
  · cases hi
  · exact acceptedIdle_env_eq ha hi

theorem acceptedIdle_phase {s t : State} {i : Instr} (h : AcceptedIdle s i t) : t.phase = .busy := by
  cases h <;> rfl

/-- Nothing happens to the environment where the command is not accepted. -/
theorem exec_env_eq_of_not_busy {i : Instr} {s t : State} (h : exec i s = .next t) (ht : t.phase ≠ .busy) :
    t.env = s.env := by
  rcases exec_inversion h with rfl | ⟨st, rs, rfl⟩ | ⟨d, sh, l, n, c, -, rfl⟩ | ha
  · rfl
  · rfl
  · exact absurd (construct_phase c s) ht
  · exact absurd (acceptedIdle_phase ha) ht

/-! ### The registers -/

/-- CR0-CR2 are written by their own setter alone, CR3 and the whole shadow by SET_DEPTH. -/
structure RegisterFrame (i : Instr) (s t : State) : Prop where
  dataPin : (∀ p, i ≠ .setDataPin p) → t.cfg.dataPin = s.cfg.dataPin
  shiftClockPin : (∀ p, i ≠ .setShiftPin p) → t.cfg.shiftClockPin = s.cfg.shiftClockPin
  latchClockPin : (∀ p, i ≠ .setLatchPin p) → t.cfg.latchClockPin = s.cfg.latchClockPin
  depth : (∀ n, i ≠ .setDepth n) → t.cfg.chainDepth = s.cfg.chainDepth ∧ t.shadow = s.shadow

theorem registerFrame_of_eq {i : Instr} {s t : State} (hc : t.cfg = s.cfg) (hs : t.shadow = s.shadow) :
    RegisterFrame i s t :=
  ⟨fun _ => hc ▸ rfl, fun _ => hc ▸ rfl, fun _ => hc ▸ rfl, fun _ => ⟨hc ▸ rfl, hs⟩⟩

theorem acceptedIdle_registers {s t : State} {i : Instr} (h : AcceptedIdle s i t) : RegisterFrame i s t := by
  cases h with
  | data p => exact ⟨fun hi => absurd rfl (hi p), fun _ => rfl, fun _ => rfl, fun _ => ⟨rfl, rfl⟩⟩
  | shiftClock p => exact ⟨fun _ => rfl, fun hi => absurd rfl (hi p), fun _ => rfl, fun _ => ⟨rfl, rfl⟩⟩
  | latchClock p => exact ⟨fun _ => rfl, fun _ => rfl, fun hi => absurd rfl (hi p), fun _ => ⟨rfl, rfl⟩⟩
  | depth n => exact ⟨fun _ => rfl, fun _ => rfl, fun _ => rfl, fun hi => absurd rfl (hi n)⟩
  | shift | clear | read => exact registerFrame_of_eq rfl rfl

theorem exec_registers {i : Instr} {s t : State} (h : exec i s = .next t) (hi : isInit i = false) :
    RegisterFrame i s t := by
  rcases exec_inversion h with rfl | ⟨st, rs, rfl⟩ | ⟨d, sh, l, n, c, rfl, -⟩ | ha
  · exact registerFrame_of_eq rfl rfl
  · exact registerFrame_of_eq rfl rfl
  · cases hi
  · exact acceptedIdle_registers ha

theorem acceptedIdle_surroundings {s t : State} {i : Instr} (h : AcceptedIdle s i t) :
    t.port = s.port ∧ t.params = s.params ∧ t.host = s.host ∧ t.dropped = s.dropped := by
  cases h <;> exact ⟨rfl, rfl, rfl, rfl⟩

/-- No command touches the port, the parameters, the host's schedule or the count of dropped commands. -/
theorem exec_surroundings {i : Instr} {s t : State} (h : exec i s = .next t) :
    t.port = s.port ∧ t.params = s.params ∧ t.host = s.host ∧ t.dropped = s.dropped := by
  rcases exec_inversion h with rfl | ⟨st, rs, rfl⟩ | ⟨d, sh, l, n, c, -, rfl⟩ | ha
  · exact ⟨rfl, rfl, rfl, rfl⟩
  · exact ⟨rfl, rfl, rfl, rfl⟩
  · exact ⟨rfl, rfl, rfl, rfl⟩
  · exact acceptedIdle_surroundings ha

/-- What holds of the environment after every command: the lines and the given levels stay, and with them size and wiring of the
chain; its content stays unless a premise has failed. -/
theorem envAfterCommand_frame {e e' : Env} (h : EnvAfterCommand e e') :
    e'.lines = e.lines ∧ e'.fault = e.fault ∧ e'.givenLevels = e.givenLevels ∧ e'.chain.chips = e.chain.chips ∧
      e'.chain.serPin = e.chain.serPin ∧ e'.chain.srclkPin = e.chain.srclkPin ∧ e'.chain.rclkPin = e.chain.rclkPin ∧
        (e'.standing ≠ .failed → e'.chain = e.chain) := by
  cases h with
  | same | vouched => exact ⟨rfl, rfl, rfl, rfl, rfl, rfl, rfl, fun _ => rfl⟩
  | unvouched => exact ⟨rfl, rfl, rfl, rfl, rfl, rfl, rfl, fun hs => absurd rfl hs⟩

/-- Settles O40, part by part. -/
theorem commandFrame : Obligations.CommandFrame := by
  intro i s t h
  obtain ⟨hport, hparams, hhost, hdropped⟩ := exec_surroundings h
  obtain ⟨hlines, hfault, hgiven, hchips, hser, hsrclk, hrclk, hchain⟩ := envAfterCommand_frame (exec_envAfterCommand h)
  refine ⟨hport, hparams, hhost, hdropped, hlines, hfault, hgiven, hchips, hser, hsrclk, hrclk, hchain, ?_,
    fun hi => (exec_registers h hi).dataPin, fun hi => (exec_registers h hi).shiftClockPin,
    fun hi => (exec_registers h hi).latchClockPin, fun hi => (exec_registers h hi).depth, exec_trace_cases h⟩
  rintro es v b (rfl | rfl | rfl | rfl | ht)
  · exact exec_env_eq h rfl
  · exact exec_env_eq h rfl
  · exact exec_env_eq h rfl
  · exact exec_env_eq h rfl
  · exact exec_env_eq_of_not_busy h ht

end Sys2Proof.Proofs

/-! ## The chain before an INIT and after a failed premise (10_state.md R36; 60_exceptions.md R226-R233) -/

namespace Sys2Proof.Proofs

open Sys2Proof.Machine Sys2Proof.Laws

/-! ### Fresh draws (93_implementation_defined.md U13-U15) -/

/-- The whole content of the chain is a draw, taken when at least `n` values had been drawn. -/
def DrawnSince (n : Nat) (e : Env) : Prop :=
  ∃ k, n ≤ k ∧ k < e.draws ∧ e.chain.stages = (List.range e.chain.stages.length).map (Config.openStage k) ∧
    e.chain.storage = (List.range e.chain.storage.length).map (Config.openStorage k)

theorem drawnSince_redraw (e : Env) : DrawnSince e.draws e.redraw :=
  ⟨e.draws, le_rfl, Nat.lt_succ_self _, by simp [Env.redraw, Chain.openContent, Chain.openOutputs],
    by simp [Env.redraw, Chain.openContent, Chain.openOutputs]⟩

theorem drawnSince_unvouch (e : Env) : DrawnSince e.draws e.unvouch :=
  drawnSince_redraw e

theorem DrawnSince.mono {m n : Nat} {e : Env} (hmn : m ≤ n) (h : DrawnSince n e) : DrawnSince m e := by
  obtain ⟨k, hk, hrest⟩ := h
  exact ⟨k, hmn.trans hk, hrest⟩

/-- Where a premise has failed, the chain is a draw since draw number `n`. -/
def DrawnIfFailed (n : Nat) (e : Env) : Prop :=
  e.standing = .failed → DrawnSince n e

theorem drawnIfFailed_settle (e : Env) : DrawnIfFailed e.draws e.settle := by
  intro hf
  rcases settle_cases e with ⟨-, hs, h⟩ | ⟨-, -, h⟩ | ⟨-, h⟩ <;> rw [h] at hf ⊢
  · exact absurd hf hs
  · exact drawnSince_redraw e
  · exact drawnSince_unvouch e

theorem drawnIfFailed_keepVouch {n : Nat} {e : Env} (ok : Bool) (hn : n ≤ e.draws) (h : DrawnIfFailed n e) :
    DrawnIfFailed n (e.keepVouch ok) := by
  rcases keepVouch_cases ok e with ⟨-, -, hk⟩ | ⟨-, hk⟩ <;> rw [hk]
  · exact fun _ => (drawnSince_unvouch e).mono hn
  · exact h

theorem drawLevel_draws (e : Env) (p : PinId) : e.draws ≤ (e.drawLevel p).2.draws := by
  unfold Env.drawLevel
  split
  · exact le_rfl
  · exact Nat.le_succ _

theorem drawLevel_setLine_draws (e : Env) (p : PinId) :
    e.draws ≤ ((e.drawLevel p).2.setLine p (e.drawLevel p).1).draws :=
  (drawLevel_draws e p).trans (setLine_draws _ p _)

theorem configure_draws (e : Env) (p : PinId) : e.draws ≤ (e.configure p).draws := by
  obtain ⟨-, -, -, hkeep⟩ := keepVouch_lines (e.startsLow p (e.drawLevel p).1)
    ((e.drawLevel p).2.setLine p (e.drawLevel p).1).settle
  exact (drawLevel_setLine_draws e p).trans ((settle_draws _).trans hkeep)

theorem drawnIfFailed_configure (e : Env) (p : PinId) : DrawnIfFailed e.draws (e.configure p) := by
  have hn := drawLevel_setLine_draws e p
  exact drawnIfFailed_keepVouch _ (hn.trans (settle_draws _)) fun hf => (drawnIfFailed_settle _ hf).mono hn

theorem raiseFault_draws (e : Env) (p : PinId) : (e.raiseFault p).draws = e.draws := by
  unfold Env.raiseFault
  split <;> rfl

/-- The draws a write takes before it is settled. -/
theorem write_unsettled_draws (e : Env) (p : PinId) (lvl : Level) :
    e.draws ≤ (if e.configured p then e.setLine p lvl else e.raiseFault p).draws := by
  split
  · exact setLine_draws e p lvl
  · exact (raiseFault_draws e p).ge

theorem write_draws (e : Env) (p : PinId) (lvl : Level) : e.draws ≤ (e.write p lvl).draws :=
  (write_unsettled_draws e p lvl).trans (settle_draws _)

theorem drawnIfFailed_write (e : Env) (p : PinId) (lvl : Level) : DrawnIfFailed e.draws (e.write p lvl) :=
  fun hf => (drawnIfFailed_settle _ hf).mono (write_unsettled_draws e p lvl)

theorem drawnIfFailed_rewire (ser srclk rclk : PinId) (e : Env) : DrawnIfFailed e.draws (e.rewire ser srclk rclk) :=
  drawnIfFailed_keepVouch false (Nat.le_succ _) fun _ =>
    drawnSince_redraw { e with chain := { e.chain with serPin := ser, srclkPin := srclk, rclkPin := rclk } }

theorem drawnIfFailed_afterReset (ph : Phase) (e : Env) : DrawnIfFailed e.draws (e.afterReset ph) := by
  rw [afterReset_spec]
  exact fun _ => drawnSince_redraw e

theorem drawnIfFailed_envAfterCommand {e e' : Env} (h : EnvAfterCommand e e') : e' = e ∨ DrawnIfFailed e.draws e' := by
  cases h with
  | same => exact .inl rfl
  | vouched => exact .inr nofun
  | unvouched => exact .inr fun _ => drawnSince_unvouch e

theorem drawnIfFailed_perform (s : State) (a : Action) :
    (s.perform a).env = s.env ∨ DrawnIfFailed s.env.draws (s.perform a).env := by
  cases a with
  | pinConfigOut p => exact .inr (drawnIfFailed_configure _ p)
  | pinWrite p lvl => exact .inr (drawnIfFailed_write _ p lvl)
  | advance b => exact .inl rfl

theorem drawnIfFailed_sequencerStep (s : State) :
    s.sequencerStep.env = s.env ∨ DrawnIfFailed s.env.draws s.sequencerStep.env := by
  rcases sequencerStep_cases s with ⟨a, rest, -, h⟩ | ⟨r, -, -, h⟩ | ⟨-, -, h⟩ <;> rw [h]
  · exact drawnIfFailed_perform { s with seq := rest } a
  · exact .inl rfl
  · exact .inl rfl

theorem drawnIfFailed_hostAct (s : State) (act : HostAct) :
    (s.hostAct act).env = s.env ∨ DrawnIfFailed s.env.draws (s.hostAct act).env := by
  cases act with
  | present bytes => exact .inl rfl
  | configurePin p => exact .inr (drawnIfFailed_keepVouch _ (configure_draws _ p) (drawnIfFailed_configure _ p))
  | writePin p lvl => exact .inr (drawnIfFailed_keepVouch _ (write_draws _ p lvl) (drawnIfFailed_write _ p lvl))
  | rewire ser srclk rclk => exact .inr (drawnIfFailed_rewire ser srclk rclk _)
  | assertReset => exact .inr (drawnIfFailed_afterReset _ _)

/-- A step leaves the environment as it is, or draws the chain where a premise has failed. -/
theorem drawnIfFailed_step {s t : State} (h : step s = .next t) : t.env = s.env ∨ DrawnIfFailed s.env.draws t.env := by
  rcases step_cases h with
    ⟨act, rest, -, rfl⟩ | ⟨-, -, rfl⟩ | ⟨-, -, i, n, -, hx⟩ | ⟨-, -, r, n, -, rfl⟩ | ⟨-, -, -, rfl⟩
  · exact drawnIfFailed_hostAct { s with host := rest } act
  · exact drawnIfFailed_sequencerStep { s with host := passTurn s.host }
  · exact (drawnIfFailed_envAfterCommand (exec_envAfterCommand hx) :)
  · exact .inl (decoderReject_env r _)
  · exact .inl rfl

/-! ### Before an INIT -/

theorem keepVouch_fresh {e : Env} (ok : Bool) (h : e.standing = .fresh) : e.keepVouch ok = e := by
  simp [Env.keepVouch, h]

theorem rewire_fresh {e : Env} (ser srclk rclk : PinId) (h : e.standing = .fresh) :
    (e.rewire ser srclk rclk).standing = .fresh := by
  rw [Env.rewire, keepVouch_fresh false (by exact h)]
  exact h

/-- A fault that is not there after an operation was not there before it. -/
theorem fault_none_of_keeps {e e' : Env} (hk : EnvKeeps e e') (h : e'.fault = none) : e.fault = none := by
  rcases hf : e.fault with _ | f
  · rfl
  · rw [hk.fault f hf] at h
    cases h

theorem drawLevel_standing (e : Env) (p : PinId) : (e.drawLevel p).2.standing = e.standing := by
  obtain ⟨gs, k, hd⟩ := drawLevel_spec e p
  rw [hd]

theorem configure_fresh {e : Env} {p : PinId} (hs : e.standing = .fresh) (hf : (e.configure p).fault = none) :
    e.configure p = (e.drawLevel p).2.setLine p (e.drawLevel p).1 ∧ (e.configure p).standing = .fresh := by
  have heq := configure_eq_setLine e p (fault_none_of_keeps (configure_keeps e p) hf) (by simp [hs]) (by simp [hs])
  exact ⟨heq, by rw [heq, setLine_standing, drawLevel_standing, hs]⟩

/-- A write that leaves no fault went to a configured pin (R223). -/
theorem configured_of_write_fault {e : Env} {p : PinId} {lvl : Level} (hf : (e.write p lvl).fault = none) :
    e.configured p = true := by
  by_contra hc
  have hraise := raiseFault_isSome e p
  rw [Env.write, if_neg hc, settle_fault] at hf
  simp [hf] at hraise

theorem write_fresh {e : Env} {p : PinId} {lvl : Level} (hs : e.standing = .fresh) (hf : (e.write p lvl).fault = none) :
    e.write p lvl = e.setLine p lvl ∧ (e.write p lvl).standing = .fresh := by
  have heq := write_configured e p lvl (fault_none_of_keeps (write_keeps e p lvl) hf) (by simp [hs])
    (configured_of_write_fault hf)
  exact ⟨heq, by rw [heq, setLine_standing, hs]⟩

/-- What an act of the host does to the environment before an INIT. -/
theorem hostAct_env_fresh {s : State} {act : HostAct} (hp : s.phase = .unconstructed) (hs : s.env.standing = .fresh)
    (hf : (s.hostAct act).env.fault = none) :
    (s.hostAct act).env.standing = .fresh ∧
      (∀ p, act = .configurePin p → (s.hostAct act).env = (s.env.drawLevel p).2.setLine p (s.env.drawLevel p).1) ∧
      (∀ p lvl, act = .writePin p lvl → (s.hostAct act).env = s.env.setLine p lvl) := by
  cases act with
  | present bytes => exact ⟨hs, nofun, nofun⟩
  | configurePin p =>
    have hfault : (s.env.configure p).fault = none := fault_none_of_keeps (disturb_keeps s.cfg p _) hf
    obtain ⟨heq, hfresh⟩ := configure_fresh hs hfault
    have henv : (s.hostAct (.configurePin p)).env = s.env.configure p := keepVouch_fresh _ hfresh
    rw [henv]
    exact ⟨hfresh, fun q hq => by cases hq; exact heq, nofun⟩
  | writePin p lvl =>
    have hfault : (s.env.write p lvl).fault = none := fault_none_of_keeps (disturb_keeps s.cfg p _) hf
    obtain ⟨heq, hfresh⟩ := write_fresh hs hfault
    have henv : (s.hostAct (.writePin p lvl)).env = s.env.write p lvl := keepVouch_fresh _ hfresh
    rw [henv]
    exact ⟨hfresh, nofun, fun q l hq => by cases hq; exact heq⟩
  | rewire ser srclk rclk => exact ⟨rewire_fresh ser srclk rclk hs, nofun, nofun⟩
  | assertReset =>
    have henv : (s.hostAct .assertReset).env = s.env.afterReset s.phase := rfl
    rw [henv, hp]
    exact ⟨hs, nofun, nofun⟩

/-- A command that leaves the block Unconstructed was rejected. -/
theorem exec_env_unconstructed {i : Instr} {s t : State} (h : exec i s = .next t) (ht : t.phase = .unconstructed) :
    t.env = s.env :=
  exec_env_eq_of_not_busy h (by simp [ht])

/-- Before an INIT a step without a due move leaves the environment as it is. -/
theorem step_env_unconstructed {s t : State} (h : step s = .next t) (hd : noMoveDue s.host = true)
    (hp : s.phase = .unconstructed) (ht : t.phase = .unconstructed) : t.env = s.env := by
  rcases step_cases h with
    ⟨act, rest, hh, -⟩ | ⟨-, hb, -⟩ | ⟨-, -, i, n, -, hx⟩ | ⟨-, -, r, n, -, rfl⟩ | ⟨-, -, -, rfl⟩
  · simp [hh, noMoveDue] at hd
  · simp [hb] at hp
  · exact (exec_env_unconstructed hx ht :)
  · exact decoderReject_env r _
  · rfl

/-- A clock that a configuration event draws high while the premises are in force breaks premise ClocksStartLow. -/
theorem configure_clock_high {e : Env} {p : PinId} (hv : e.standing = .vouched)
    (hp : p = e.chain.srclkPin ∨ p = e.chain.rclkPin) (hh : (e.drawLevel p).1 = .high) :
    (e.configure p).standing = .failed := by
  rcases configure_standing_cases e p with h | h
  · obtain ⟨-, -, hlow, -⟩ := configure_vouched (h.trans hv)
    simp only [Env.startsLow, hh] at hlow
    rcases hp with hp | hp <;> simp [← hp] at hlow
  · exact h

theorem unconstructed_step_follows_rules {s t : State} (hp : s.phase = .unconstructed) (hs : s.env.standing = .fresh)
    (h : step s = .next t) (ht : t.phase = .unconstructed) (hf : t.env.fault = none) :
    t.env.standing = .fresh ∧ (noMoveDue s.host = true → t.env = s.env) ∧
    (∀ p rest, s.host = { after := 0, act := .configurePin p } :: rest →
      t.env = (s.env.drawLevel p).2.setLine p (s.env.drawLevel p).1) ∧
    (∀ p lvl rest, s.host = { after := 0, act := .writePin p lvl } :: rest → t.env = s.env.setLine p lvl) := by
  rcases noMoveDue_cases s.host with hd | ⟨act, rest, hh⟩
  · have henv := step_env_unconstructed h hd hp ht
    refine ⟨henv ▸ hs, fun _ => henv, fun p rest hh => ?_, fun p lvl rest hh => ?_⟩ <;> simp [hh, noMoveDue] at hd
  · rw [step_hostMove hh, Host.Outcome.next.injEq] at h
    subst h
    obtain ⟨hfresh, hconf, hwrite⟩ := hostAct_env_fresh (s := { s with host := rest }) hp hs hf
    have hact {act' : HostAct} {rest' : List HostMove} (hh' : s.host = { after := 0, act := act' } :: rest') :
        act = act' := congrArg HostMove.act (List.cons.inj (hh.symm.trans hh')).1
    refine ⟨hfresh, fun hd => ?_, fun p _ hh' => hconf p (hact hh'), fun p lvl _ hh' => hwrite p lvl (hact hh')⟩
    simp [hh, noMoveDue] at hd

/-- Settles O55: before an INIT every act is one of the collaborator's; a failed premise draws the chain
(`drawnIfFailed_step`); and a clock drawn high is such a failure. -/
theorem unvouchedChainIsADraw : Obligations.UnvouchedChainIsADraw := by
  refine ⟨fun s t hp hs h ht hf => unconstructed_step_follows_rules hp hs h ht hf, fun s t h hfail hchange => ?_,
    fun e p hv hp hh => ?_⟩
  · rcases drawnIfFailed_step h with henv | hdrawn
    · rw [henv] at hfail hchange
      exact absurd rfl (hchange.resolve_left (absurd hfail))
    · exact hdrawn hfail
  · have hfail := configure_clock_high hv hp hh
    exact ⟨hfail, drawnIfFailed_configure e p hfail⟩

end Sys2Proof.Proofs

/-! ## The frame of a step while a command is in progress (20_memory.md R59, R62, 10_state.md R25)

The shadow and the environment have one writer each among the actions of R32. What `perform` leaves alone is carried to
`State.sequencerStep` through `sequencerStep_cases`. -/

namespace Sys2Proof.Proofs

open Sys2Proof.Machine Sys2Proof.Laws

/-! ### One action -/

theorem perform_shadow_of_not_advance (s : State) {a : Action} (h : ∀ b, a ≠ .advance b) :
    (s.perform a).shadow = s.shadow := by
  cases a with
  | pinConfigOut p => rfl
  | pinWrite p lvl => rfl
  | advance b => exact absurd rfl (h b)

theorem perform_env_of_not_pin (s : State) {a : Action} (hc : ∀ p, a ≠ .pinConfigOut p)
    (hw : ∀ p lvl, a ≠ .pinWrite p lvl) : (s.perform a).env = s.env := by
  cases a with
  | pinConfigOut p => exact absurd rfl (hc p)
  | pinWrite p lvl => exact absurd rfl (hw p lvl)
  | advance b => rfl

/-! ### One step of the sequencer -/

@[simp] theorem sequencerStep_cfg (s : State) : s.sequencerStep.cfg = s.cfg := by
  rcases sequencerStep_cases s with ⟨a, rest, -, h⟩ | ⟨r, -, -, h⟩ | ⟨-, -, h⟩ <;> simp [h]

@[simp] theorem sequencerStep_port (s : State) : s.sequencerStep.port = s.port := by
  rcases sequencerStep_cases s with ⟨a, rest, -, h⟩ | ⟨r, -, -, h⟩ | ⟨-, -, h⟩ <;> simp [h]

@[simp] theorem sequencerStep_dropped (s : State) : s.sequencerStep.dropped = s.dropped := by
  rcases sequencerStep_cases s with ⟨a, rest, -, h⟩ | ⟨r, -, -, h⟩ | ⟨-, -, h⟩ <;> simp [h]

/-- While actions are left, the reply and what it writes are still to come. -/
theorem sequencerStep_before_reply {s : State} (hs : s.seq ≠ []) :
    s.sequencerStep.lastStatus = s.lastStatus ∧ s.sequencerStep.lastReason = s.lastReason ∧
      s.sequencerStep.pendingReply = s.pendingReply ∧ s.sequencerStep.phase = s.phase := by
  obtain ⟨a, rest, -, h⟩ | ⟨r, hnil, -, -⟩ | ⟨hnil, -, -⟩ := sequencerStep_cases s
  · simp [h]
  · exact absurd hnil hs
  · exact absurd hnil hs

theorem sequencerStep_shadow_of_not_advance {s : State} (hs : ∀ b rest, s.seq ≠ .advance b :: rest) :
    s.sequencerStep.shadow = s.shadow := by
  rcases sequencerStep_cases s with ⟨a, rest, hseq, h⟩ | ⟨r, -, -, h⟩ | ⟨-, -, h⟩ <;> rw [h]
  · exact perform_shadow_of_not_advance { s with seq := rest } fun b ha => hs b rest (ha ▸ hseq)
  · exact complete_shadow r s

theorem sequencerStep_env_of_not_pin {s : State} (hc : ∀ p rest, s.seq ≠ .pinConfigOut p :: rest)
    (hw : ∀ p lvl rest, s.seq ≠ .pinWrite p lvl :: rest) : s.sequencerStep.env = s.env := by
  rcases sequencerStep_cases s with ⟨a, rest, hseq, h⟩ | ⟨r, -, -, h⟩ | ⟨-, -, h⟩ <;> rw [h]
  · exact perform_env_of_not_pin { s with seq := rest } (fun p ha => hc p rest (ha ▸ hseq))
      fun p lvl ha => hw p lvl rest (ha ▸ hseq)
  · exact complete_env r s

/-- Settles O41: the step is the sequencer's own, taken after one turn of the host's schedule has passed. -/
theorem sequencerFrame : Obligations.SequencerFrame := by
  intro s t hb hd h
  rw [step_busy s hb hd, Host.Outcome.next.injEq] at h
  subst h
  refine ⟨sequencerStep_cfg _, sequencerStep_params _, sequencerStep_port _, sequencerStep_dropped _, fun hs => ?_,
    fun hs => sequencerStep_shadow_of_not_advance (s := { s with host := passTurn s.host }) hs,
    fun hc hw => sequencerStep_env_of_not_pin (s := { s with host := passTurn s.host }) hc hw⟩
  have hframe := sequencerStep_before_reply (s := { s with host := passTurn s.host }) hs
  exact hb ▸ hframe

end Sys2Proof.Proofs

/-! ## Frames (30_encoding.md R71-R83)

The decoder and the encoder are inverse to each other: `decode_encode_append` and `decode_cmd` are the two directions.
With `decode_reject`, which says what is rejected, and its two converses they are all that the other statements need of the
decoder. -/

namespace Sys2Proof.Proofs

open Sys2Proof.Machine Sys2Proof.Laws

/-! ### Fields (R72) -/

theorem fieldAt_cons (b : Byte) (bs : List Byte) (off k : Nat) : fieldAt (b :: bs) (off + 1) k = fieldAt bs off k := rfl

/-- The opcode byte and the `k` bytes behind it. -/
theorem cons_fieldAt_one (op : Byte) (args : List Byte) (k : Nat) :
    op :: fieldAt (op :: args) 1 k = (op :: args).take (k + 1) := rfl

theorem fieldAt_zero_append {a : List Byte} {k : Nat} (rest : List Byte) (h : a.length = k) :
    fieldAt (a ++ rest) 0 k = a := by
  subst h
  simp [fieldAt]

theorem fieldAt_add_append {a : List Byte} {j : Nat} (rest : List Byte) (off k : Nat) (h : a.length = j) :
    fieldAt (a ++ rest) (off + j) k = fieldAt rest off k := by
  subst h
  simp [fieldAt, Nat.add_comm off]

/-- Two fields that adjoin are one field. -/
theorem fieldAt_append_fieldAt (bs : List Byte) (off j k : Nat) :
    fieldAt bs off j ++ fieldAt bs (off + j) k = fieldAt bs off (j + k) := by
  simp only [fieldAt, ← List.drop_drop, List.take_add]

theorem rawLE_fieldAt_lt (bs : List Byte) (off k : Nat) : rawLE (fieldAt bs off k) < 2 ^ (8 * k) := by
  have hlen : (fieldAt bs off k).length ≤ k := List.length_take_le _ _
  calc rawLE (fieldAt bs off k) < 2 ^ (8 * (fieldAt bs off k).length) := rawLE_lt _
    _ ≤ 2 ^ (8 * k) := Nat.pow_le_pow_right (by decide) (by omega)

/-! ### What a reader makes of a written field -/

theorem pin32At_cons (b : Byte) (bs : List Byte) (off : Nat) : pin32At (b :: bs) (off + 1) = pin32At bs off := rfl

theorem pin32At_zero_signedField {v : Int} (rest : List Byte) (h : fitsSigned 32 v = true) :
    pin32At (signedField 4 v ++ rest) 0 = v := by
  rw [pin32At, fieldAt_zero_append rest (length_signedField 4 v)]
  exact sext_signedField 4 (by decide) v h

theorem pin32At_add_signedField (v : Int) (rest : List Byte) (off : Nat) :
    pin32At (signedField 4 v ++ rest) (off + 4) = pin32At rest off := by
  rw [pin32At, pin32At, fieldAt_add_append rest off 4 (length_signedField 4 v)]

theorem depth32At_eq_pin32At (bs : List Byte) (off : Nat) : depth32At bs off = pin32At bs off := rfl

theorem int64At_one_signedField {b : Byte} {v : Int} (rest : List Byte) (h : fitsSigned 64 v = true) :
    int64At (b :: (signedField 8 v ++ rest)) 1 = v := by
  rw [int64At, fieldAt_cons, fieldAt_zero_append rest (length_signedField 8 v)]
  exact sext_signedField 8 (by decide) v h

theorem len32At_one_bytesLE {b : Byte} {n : Nat} (rest : List Byte) (h : n < 2 ^ 32) :
    len32At (b :: (bytesLE 4 n ++ rest)) 1 = n := by
  rw [len32At, fieldAt_cons, fieldAt_zero_append rest (length_bytesLE 4 n), rawLE_bytesLE]
  exact Nat.mod_eq_of_lt h

/-- The elements of a list stand behind the opcode and the length. -/
theorem fieldAt_five_bytesLE {op : Byte} (n : Nat) {a : List Byte} {k : Nat} (rest : List Byte) (h : a.length = k) :
    fieldAt (op :: (bytesLE 4 n ++ (a ++ rest))) 5 k = a := by
  rw [fieldAt_cons, fieldAt_add_append _ 0 k (length_bytesLE 4 n), fieldAt_zero_append rest h]

theorem map_elem8_map_encodeElem {es : List Elem} (h : es.all Elem.isFrameElem = true) :
    (es.map encodeElem).map elem8 = es := by
  rw [List.map_map]
  exact (List.map_congr_left fun e he => elem8_encodeElem e (List.all_eq_true.mp h e he)).trans (List.map_id es)

/-! ### Opcodes (R73, R77) -/

/-- The opcodes of no command (R77). -/
def Unassigned (op : Byte) : Prop :=
  op.toNat = 0x00 ∨ (0x06 ≤ op.toNat ∧ op.toNat ≤ 0x0F) ∨ 0x15 ≤ op.toNat

/-- How R73 and R77 divide the opcode bytes: one case for each command, and the unassigned ones. -/
inductive Opcode : Byte → Prop where
  | init : Opcode 0x01
  | setDataPin : Opcode 0x02
  | setShiftPin : Opcode 0x03
  | setLatchPin : Opcode 0x04
  | setDepth : Opcode 0x05
  | shiftBits : Opcode 0x10
  | shiftInt : Opcode 0x11
  | shiftBool : Opcode 0x12
  | readState : Opcode 0x13
  | clear : Opcode 0x14
  | unassigned {op : Byte} (h : Unassigned op) : Opcode op

theorem opcode_cases (op : Byte) : Opcode op := by
  have h : op = 0x01 ∨ op = 0x02 ∨ op = 0x03 ∨ op = 0x04 ∨ op = 0x05 ∨ op = 0x10 ∨ op = 0x11 ∨ op = 0x12 ∨
      op = 0x13 ∨ op = 0x14 ∨ Unassigned op := by
    unfold Unassigned
    bv_omega
  rcases h with rfl | rfl | rfl | rfl | rfl | rfl | rfl | rfl | rfl | rfl | h
  all_goals constructor
  exact h

theorem decodeFrame_unassigned {op : Byte} (h : Unassigned op) (bs : List Byte) :
    decodeFrame op bs = .reject .unknownCommand 1 := by
  unfold Unassigned at h
  unfold decodeFrame
  split
  case h_11 => rfl
  all_goals omega

theorem frameLength_unassigned {op : Byte} (h : Unassigned op) (len : Nat) : frameLength op.toNat len = 1 := by
  unfold Unassigned at h
  unfold frameLength
  split
  case h_9 => rfl
  all_goals omega

/-! ### The byte of SHIFT_BOOL -/

theorem exists_cons_of_two_le {op : Byte} {args : List Byte} (h : 2 ≤ (op :: args).length) :
    ∃ b rest, args = b :: rest :=
  List.exists_cons_of_length_pos (Nat.le_of_succ_le_succ h)

/-- The byte is a boolean's, or it is rejected. -/
theorem decodeBool8_cases (b : Byte) :
    (∃ v : Bool, b = (if v then 0x01 else 0x00) ∧ decodeBool8 b = .cmd (.shiftBool v) 2) ∨
      (b ≠ 0x00 ∧ b ≠ 0x01 ∧ decodeBool8 b = .reject .boolNotBoolean 2) := by
  by_cases h0 : b = 0x00
  · exact .inl ⟨false, h0, h0 ▸ rfl⟩
  by_cases h1 : b = 0x01
  · exact .inl ⟨true, h1, h1 ▸ rfl⟩
  refine .inr ⟨h0, h1, ?_⟩
  unfold decodeBool8
  split
  case h_3 => rfl
  all_goals bv_omega

/-! ### Decoding a frame -/

/-- The four commands with one 32-bit operand differ in their opcode only. -/
theorem decode_signedField_append {op : Byte} {f : Int → Instr} {v : Int} (hlen : ∀ len, frameLength op.toNat len = 5)
    (hdec : ∀ bs, decodeFrame op bs = .cmd (f (pin32At bs 1)) 5) (hv : fitsSigned 32 v = true) (rest : List Byte) :
    decode (op :: (signedField 4 v ++ rest)) = .cmd (f v) 5 := by
  rw [decode_of_length _ _ (by simp [hlen]), hdec, pin32At_cons, pin32At_zero_signedField rest hv]

/-- A frame is decoded to its command, whatever bytes follow it. -/
theorem decode_encode_append {i : Instr} (rest : List Byte) (h : i.wellFormed = true) :
    decode (encode i ++ rest) = .cmd i (encode i).length := by
  cases i with
  | init d s l n =>
    simp only [Instr.wellFormed, Bool.and_eq_true] at h
    obtain ⟨⟨⟨hd, hs⟩, hl⟩, hn⟩ := h
    rw [encode, List.cons_append, decode_of_length _ _ (by simp [frameLength]; omega)]
    simp [decodeFrame, depth32At_eq_pin32At, pin32At_cons, pin32At_add_signedField, pin32At_zero_signedField, hd, hs, hl,
      hn]
  | setDataPin p => exact decode_signedField_append (fun _ => rfl) (fun _ => rfl) h rest
  | setShiftPin p => exact decode_signedField_append (fun _ => rfl) (fun _ => rfl) h rest
  | setLatchPin p => exact decode_signedField_append (fun _ => rfl) (fun _ => rfl) h rest
  | setDepth n => exact decode_signedField_append (fun _ => rfl) (fun _ => rfl) h rest
  | shiftBits es =>
    simp only [Instr.wellFormed, lengthFits, Bool.and_eq_true, decide_eq_true_eq] at h
    obtain ⟨hlen, hall⟩ := h
    rw [encode, List.cons_append, List.append_assoc, decode_of_length]
    · simp [decodeFrame, len32At_one_bytesLE _ hlen, fieldAt_five_bytesLE, map_elem8_map_encodeElem hall]
      omega
    · simp [len32At_one_bytesLE _ hlen, frameLength]
      omega
  | shiftInt v =>
    have hv : fitsSigned 64 v = true := h
    rw [encode, List.cons_append, decode_of_length _ _ (by simp [frameLength])]
    simp [decodeFrame, int64At_one_signedField, hv]
  | shiftBool b => cases b <;> rfl
  | readState => rfl
  | clear => rfl

/-! ### Reading a frame back -/

/-- What is not incomplete is a whole frame, decoded by its opcode's rule. -/
theorem decode_complete {bs : List Byte} {d : Decoded} (h : decode bs = d) (hd : d ≠ .incomplete) :
    ∃ op args, bs = op :: args ∧ frameLength op.toNat (len32At bs 1) ≤ bs.length ∧ decodeFrame op bs = d := by
  cases bs with
  | nil => exact absurd h.symm hd
  | cons op args =>
    rw [decode] at h
    split at h
    · exact absurd h.symm hd
    · exact ⟨op, args, rfl, by omega, h⟩

theorem fitsSigned_pin32At (bs : List Byte) (off : Nat) : fitsSigned 32 (pin32At bs off) = true :=
  fitsSigned_sext 32 _ (by decide) (rawLE_fieldAt_lt bs off 4)

theorem fitsSigned_int64At (bs : List Byte) (off : Nat) : fitsSigned 64 (int64At bs off) = true :=
  fitsSigned_sext 64 _ (by decide) (rawLE_fieldAt_lt bs off 8)

theorem signedField_pin32At {bs : List Byte} {off : Nat} (h : off + 4 ≤ bs.length) :
    signedField 4 (pin32At bs off) = fieldAt bs off 4 := by
  have hfield := signedField_sext (fieldAt bs off 4)
  rwa [length_fieldAt bs off 4 h] at hfield

theorem signedField_int64At {bs : List Byte} {off : Nat} (h : off + 8 ≤ bs.length) :
    signedField 8 (int64At bs off) = fieldAt bs off 8 := by
  have hfield := signedField_sext (fieldAt bs off 8)
  rwa [length_fieldAt bs off 8 h] at hfield

theorem bytesLE_len32At {bs : List Byte} {off : Nat} (h : off + 4 ≤ bs.length) :
    bytesLE 4 (len32At bs off) = fieldAt bs off 4 := by
  have hfield := bytesLE_rawLE (fieldAt bs off 4)
  rwa [length_fieldAt bs off 4 h] at hfield

theorem map_encodeElem_map_elem8 (bs : List Byte) : (bs.map elem8).map encodeElem = bs := by
  rw [List.map_map]
  exact (List.map_congr_left fun b _ => encodeElem_elem8 b).trans (List.map_id bs)

/-- The frames of the four commands with one 32-bit operand. -/
theorem signedField_cons_eq_take {op : Byte} {args : List Byte} (h : 5 ≤ (op :: args).length) :
    op :: signedField 4 (pin32At (op :: args) 1) = (op :: args).take 5 := by
  rw [signedField_pin32At (by omega), cons_fieldAt_one]

theorem wellFormed_shiftBits_elem8 {bs : List Byte} (h : bs.length < 2 ^ 32) :
    Instr.wellFormed (.shiftBits (bs.map elem8)) = true := by
  simpa [Instr.wellFormed, lengthFits, isFrameElem_elem8] using h

theorem encode_shiftBits_elem8 (bs : List Byte) :
    encode (.shiftBits (bs.map elem8)) = 0x10 :: (bytesLE 4 bs.length ++ bs) := by
  rw [encode, List.length_map, map_encodeElem_map_elem8]

theorem encode_init_eq_take {args : List Byte} (h : 17 ≤ ((0x01 : Byte) :: args).length) :
    encode (.init (pin32At (0x01 :: args) 1) (pin32At (0x01 :: args) 5) (pin32At (0x01 :: args) 9)
      (depth32At (0x01 :: args) 13)) = ((0x01 : Byte) :: args).take 17 := by
  rw [encode, depth32At_eq_pin32At, signedField_pin32At (by omega), signedField_pin32At (by omega),
    signedField_pin32At (by omega), signedField_pin32At (by omega), fieldAt_append_fieldAt _ 1 4 4,
    fieldAt_append_fieldAt _ 1 8 4, fieldAt_append_fieldAt _ 1 12 4, cons_fieldAt_one]

/-- A command read from a whole frame is well-formed, and the bytes read are its frame. -/
theorem decodeFrame_cmd {op : Byte} {args : List Byte} {i : Instr} {n : Nat}
    (hlen : frameLength op.toNat (len32At (op :: args) 1) ≤ (op :: args).length)
    (h : decodeFrame op (op :: args) = .cmd i n) :
    i.wellFormed = true ∧ n ≤ (op :: args).length ∧ encode i = (op :: args).take n := by
  cases opcode_cases op with
  | init =>
    obtain ⟨rfl, rfl⟩ := Decoded.cmd.inj h
    refine ⟨?_, hlen, encode_init_eq_take hlen⟩
    simp [Instr.wellFormed, depth32At_eq_pin32At, fitsSigned_pin32At]
  | setDataPin | setShiftPin | setLatchPin | setDepth =>
    obtain ⟨rfl, rfl⟩ := Decoded.cmd.inj h
    exact ⟨fitsSigned_pin32At _ 1, hlen, signedField_cons_eq_take hlen⟩
  | shiftBits =>
    obtain ⟨rfl, rfl⟩ := Decoded.cmd.inj h
    have hlen : 5 + len32At (0x10 :: args) 1 ≤ ((0x10 : Byte) :: args).length := hlen
    have helems := length_fieldAt (0x10 :: args) 5 _ hlen
    refine ⟨wellFormed_shiftBits_elem8 (helems.trans_lt (rawLE_fieldAt_lt _ 1 4)), hlen, ?_⟩
    rw [encode_shiftBits_elem8, helems, bytesLE_len32At (by omega), fieldAt_append_fieldAt _ 1 4, cons_fieldAt_one]
    congr 1
    omega
  | shiftInt =>
    obtain ⟨rfl, rfl⟩ := Decoded.cmd.inj h
    have hlen : 9 ≤ ((0x11 : Byte) :: args).length := hlen
    refine ⟨fitsSigned_int64At _ 1, hlen, ?_⟩
    rw [encode, signedField_int64At (by omega), cons_fieldAt_one]
  | shiftBool =>
    obtain ⟨b, rest, rfl⟩ := exists_cons_of_two_le hlen
    have h : decodeBool8 b = .cmd i n := h
    obtain ⟨v, rfl, hv⟩ | ⟨-, -, hr⟩ := decodeBool8_cases b
    · obtain ⟨rfl, rfl⟩ := Decoded.cmd.inj (hv.symm.trans h)
      exact ⟨rfl, hlen, rfl⟩
    · exact nomatch hr.symm.trans h
  | readState | clear =>
    obtain ⟨rfl, rfl⟩ := Decoded.cmd.inj h
    exact ⟨rfl, hlen, rfl⟩
  | unassigned hu => exact nomatch (decodeFrame_unassigned hu _).symm.trans h

/-- What is rejected is an unassigned opcode, or SHIFT_BOOL with another byte than 0x00 and 0x01. -/
theorem decodeFrame_reject {op : Byte} {args : List Byte} {r : DecodeReject} {n : Nat}
    (hlen : frameLength op.toNat (len32At (op :: args) 1) ≤ (op :: args).length)
    (h : decodeFrame op (op :: args) = .reject r n) :
    (r = .unknownCommand ∧ n = 1 ∧ Unassigned op) ∨
      (r = .boolNotBoolean ∧ n = 2 ∧ op = 0x12 ∧ ∃ b rest, args = b :: rest ∧ b ≠ 0x00 ∧ b ≠ 0x01) := by
  cases opcode_cases op with
  | shiftBool =>
    obtain ⟨b, rest, rfl⟩ := exists_cons_of_two_le hlen
    have h : decodeBool8 b = .reject r n := h
    obtain ⟨v, -, hv⟩ | ⟨h0, h1, hr⟩ := decodeBool8_cases b
    · exact nomatch hv.symm.trans h
    · obtain ⟨rfl, rfl⟩ := Decoded.reject.inj (hr.symm.trans h)
      exact .inr ⟨rfl, rfl, rfl, b, rest, rfl, h0, h1⟩
  | unassigned hu =>
    obtain ⟨rfl, rfl⟩ := Decoded.reject.inj ((decodeFrame_unassigned hu _).symm.trans h)
    exact .inl ⟨rfl, rfl, hu⟩
  | _ => exact nomatch h

theorem decode_unassigned {op : Byte} (h : Unassigned op) (rest : List Byte) :
    decode (op :: rest) = .reject .unknownCommand 1 := by
  rw [decode_of_length op rest (by simp [frameLength_unassigned h]), decodeFrame_unassigned h]

theorem decode_not_boolean {b : Byte} (h0 : b ≠ 0x00) (h1 : b ≠ 0x01) (rest : List Byte) :
    decode (0x12 :: b :: rest) = .reject .boolNotBoolean 2 := by
  rw [decode_of_length _ _ (by simp [frameLength])]
  obtain ⟨v, rfl, -⟩ | ⟨-, -, hr⟩ := decodeBool8_cases b
  · cases v
    · exact absurd rfl h0
    · exact absurd rfl h1
  · exact hr

/-! ### What the decoder can answer -/

theorem decode_cmd {bs : List Byte} {i : Instr} {n : Nat} (h : decode bs = .cmd i n) :
    i.wellFormed = true ∧ n ≤ bs.length ∧ encode i = bs.take n := by
  obtain ⟨op, args, rfl, hlen, hd⟩ := decode_complete h nofun
  exact decodeFrame_cmd hlen hd

theorem decode_reject {bs : List Byte} {r : DecodeReject} {n : Nat} (h : decode bs = .reject r n) :
    (r = .unknownCommand ∧ n = 1 ∧ ∃ op rest, bs = op :: rest ∧ Unassigned op) ∨
      (r = .boolNotBoolean ∧ n = 2 ∧ ∃ b rest, bs = 0x12 :: b :: rest ∧ b ≠ 0x00 ∧ b ≠ 0x01) := by
  obtain ⟨op, args, rfl, hlen, hd⟩ := decode_complete h nofun
  obtain ⟨hr, hn, hu⟩ | ⟨hr, hn, rfl, b, rest, rfl, hb⟩ := decodeFrame_reject hlen hd
  · exact .inl ⟨hr, hn, op, args, rfl, hu⟩
  · exact .inr ⟨hr, hn, b, rest, rfl, hb⟩

/-- Settles O1: `decode_encode_append`, command by command. -/
theorem decodeOfEncodeIsIdentity : Obligations.DecodeOfEncodeIsIdentity :=
  fun _ rest h => decode_encode_append rest h

/-- Settles O2: `decode_cmd`, opcode by opcode. -/
theorem encodeOfDecodeIsTheFrame : Obligations.EncodeOfDecodeIsTheFrame :=
  fun _ _ _ h => decode_cmd h

/-! ### Boolean elements (R72, R81) -/

theorem encodeElem_asFrameElem (e : Elem) : encodeElem e.asFrameElem = encodeElem e := by
  rcases e with v | _ | _ <;> rfl

theorem isFrameElem_asFrameElem (e : Elem) : e.asFrameElem.isFrameElem = e.isAsmElem := by
  rcases e with v | _ | _ <;> rfl

theorem encode_asFrame (i : Instr) : encode i.asFrame = encode i := by
  cases i with
  | shiftBits es => simp [Instr.asFrame, encode, encodeElem_asFrameElem]
  | _ => rfl

theorem wellFormed_asFrame (i : Instr) : i.asFrame.wellFormed = i.assemblable := by
  cases i with
  | shiftBits es =>
    simp [Instr.asFrame, Instr.wellFormed, Instr.assemblable, lengthFits, Function.comp_def, isFrameElem_asFrameElem]
  | _ => rfl

/-- Settles O3: the frame is that of `asFrame`, which is well-formed. -/
theorem assembledListsDecodeToIntegerElements : Obligations.AssembledListsDecodeToIntegerElements := by
  intro i rest h
  have hw : i.asFrame.wellFormed = true := (wellFormed_asFrame i).trans h
  have hdec := decode_encode_append rest hw
  rw [encode_asFrame] at hdec
  exact ⟨(encode_asFrame i).symm, hw, hdec⟩

/-! ### Later bytes -/

theorem length_encode_of_decode {bs : List Byte} {i : Instr} {n : Nat} (h : decode bs = .cmd i n) :
    (encode i).length = n := by
  obtain ⟨-, hn, he⟩ := decode_cmd h
  rw [he, List.length_take_of_le hn]

/-- A command's frame is `encode` of it, which decodes alike before any bytes; a rejection is of the first bytes only. -/
theorem decode_append {bs : List Byte} (more : List Byte) (h : decode bs ≠ .incomplete) :
    decode (bs ++ more) = decode bs := by
  rcases hd : decode bs with ⟨i, n⟩ | ⟨r, n⟩ | _
  · obtain ⟨hw, hn, he⟩ := decode_cmd hd
    have hbs : bs ++ more = encode i ++ (bs.drop n ++ more) := by
      rw [he, ← List.append_assoc, List.take_append_drop]
    rw [hbs, decode_encode_append _ hw, length_encode_of_decode hd]
  · obtain ⟨rfl, rfl, op, rest, rfl, hu⟩ | ⟨rfl, rfl, b, rest, rfl, h0, h1⟩ := decode_reject hd
    · exact decode_unassigned hu _
    · exact decode_not_boolean h0 h1 _
  · exact absurd hd h

theorem length_encode_pos (i : Instr) : 0 < (encode i).length := by
  cases i <;> exact Nat.succ_pos _

/-- Settles O7: `decode_append`, and the lengths that `decode_cmd` and `decode_reject` give. -/
theorem decodingIgnoresLaterBytes : Obligations.DecodingIgnoresLaterBytes := by
  intro bs more h
  refine ⟨decode_append more h, fun i n hd => ?_, fun r n hd => ?_⟩
  · obtain ⟨-, hn, -⟩ := decode_cmd hd
    exact ⟨length_encode_of_decode hd ▸ length_encode_pos i, hn⟩
  · obtain ⟨-, rfl, op, rest, rfl, -⟩ | ⟨-, rfl, b, rest, rfl, -⟩ := decode_reject hd <;> simp

/-! ### Partial frames (R75) -/

/-- Were fewer bytes than the frame's decoded, they would decode to its command, and be too short for it. -/
theorem decode_take_encode {i : Instr} {k : Nat} (h : i.wellFormed = true) (hk : k < (encode i).length) :
    decode ((encode i).take k) = .incomplete := by
  by_contra hc
  have hwhole : decode (encode i) = .cmd i (encode i).length := by
    simpa using decode_encode_append [] h
  have hd : decode ((encode i).take k) = .cmd i (encode i).length := by
    rw [← hwhole, ← decode_append ((encode i).drop k) hc, List.take_append_drop]
  obtain ⟨-, hle, -⟩ := decode_cmd hd
  rw [List.length_take] at hle
  omega

theorem finished_port {s : State} (h : s.finished = true) : s.port = [] := by
  simp only [State.finished, Bool.and_eq_true, decide_eq_true_eq] at h
  obtain ⟨⟨⟨⟨-, hp⟩, -⟩, -⟩, -⟩ := h
  exact hp

/-- Settles O6: `decode_take_encode`, then the wait of `step_port`, then what `finished` asks of the port. -/
theorem partialFramesWait : Obligations.PartialFramesWait := by
  refine ⟨fun i k h hk => decode_take_encode h hk, fun s hb hd hp => ?_, fun s hp => ?_⟩
  · rw [step_port s hb hd, hp]
  · exact Bool.eq_false_iff.mpr fun hf => hp (finished_port hf)

/-! ### The decoder's rejections as steps (R77, R80) -/

theorem step_decoderReject {s : State} {r : DecodeReject} {n : Nat} (hb : s.phase ≠ .busy)
    (hd : noMoveDue s.host = true) (hp : decode s.port = .reject r n) :
    step s = .next (State.decoderReject r { s with port := s.port.drop n, host := passTurn s.host }) := by
  rw [step_port s hb hd, hp]
  rfl

/-- Settles O4: `decode_unassigned` and its converse `decode_reject`, and the step that rejects. -/
theorem unassignedOpcodesAreRejected : Obligations.UnassignedOpcodesAreRejected := by
  refine ⟨fun op rest => ⟨fun hu => decode_unassigned hu rest, fun h => ?_⟩, fun bs n h => ?_,
    fun s op rest hb hd hp hu => ?_⟩
  · obtain ⟨-, -, op', rest', heq, hu⟩ | ⟨hr, -⟩ := decode_reject h
    · obtain ⟨rfl, rfl⟩ := List.cons.inj heq
      exact hu
    · exact nomatch hr
  · obtain ⟨-, hn, -⟩ | ⟨hr, -⟩ := decode_reject h
    · exact hn
    · exact nomatch hr
  · rw [step_decoderReject hb hd (hp ▸ decode_unassigned hu rest), hp]
    rfl

/-- Settles O5: `decode_not_boolean`, and the step that rejects. -/
theorem nonBooleanByteIsRejected : Obligations.NonBooleanByteIsRejected := by
  intro s b rest hb hd hp h0 h1
  rw [step_decoderReject hb hd (hp ▸ decode_not_boolean h0 h1 rest), hp]
  rfl

/-! ### Reply frames (R79) -/

theorem rawLE_lengthField {n : Nat} (h : n < 2 ^ 32) : rawLE (lengthField n) = n := by
  rw [lengthField, if_pos h, rawLE_bytesLE, Nat.mod_eq_of_lt h]

theorem length_lengthField (n : Nat) : (lengthField n).length = 4 := by
  unfold lengthField
  split <;> exact length_bytesLE 4 _

/-- Settles O9: the bytes between the codes and the data are `lengthField`. -/
theorem replyFrameLayout : Obligations.ReplyFrameLayout := by
  refine ⟨⟨rfl, rfl, rfl, rfl⟩, ⟨rfl, rfl, rfl, rfl, rfl, rfl, rfl, rfl, rfl⟩, fun r => ⟨fun h => ?_,
    fun bits h hlen => ?_⟩⟩
  · simp [Reply.frame, h]
  · refine ⟨lengthField bits.length, length_lengthField _, rawLE_lengthField hlen, ?_⟩
    simp only [Reply.frame, h, List.append_assoc]
    rfl

/-! ### Worked encodings (R83) -/

/-- Settles O8: literal frames, each by computation. -/
theorem workedEncodings : Obligations.WorkedEncodings :=
  ⟨rfl, rfl, rfl, rfl, rfl, rfl, rfl, rfl, rfl, rfl, rfl, fun _ => rfl, rfl, rfl, rfl, rfl, rfl, rfl⟩

end Sys2Proof.Proofs

/-! ## Configuration (40_config.md R100-R107)

What the operand checks answer, then each configuration command as one equation for its rejection and one for its acceptance,
then the run that the acceptance starts. -/

namespace Sys2Proof.Proofs

open Sys2Proof.Machine Sys2Proof.Laws

/-! ### Operand checks -/

theorem checkPin_of_valid {c : Config.Params} {p : Int} (why : Reason) (h : c.pinValid p = true) :
    checkPin c why p = .ok p :=
  checkPin_ok.mpr ⟨h, rfl⟩

theorem checkPin_of_invalid {c : Config.Params} {p : Int} (why : Reason) (h : c.pinValid p = false) :
    checkPin c why p = .error why := by
  simp [checkPin, h]

theorem checkDepth_of_not_positive {c : Config.Params} {n : Int} (h : n < 1) :
    checkDepth c n = .error .depthNotPositive :=
  if_pos h

theorem checkDepth_of_tooLarge {c : Config.Params} {n : Int} (h : 1 ≤ n) (hcap : c.depthTooLarge n = true) :
    checkDepth c n = .error .depthExceedsCapacity := by
  rw [checkDepth, if_neg (Int.not_lt.mpr h), if_pos hcap]

section Init

variable {c : Config.Params} {d s l n : Int}

theorem checkInit_of_data_invalid (hd : c.pinValid d = false) : checkInit c d s l n = .error .dataPinInvalid := by
  rw [checkInit, checkPin_of_invalid _ hd]

theorem checkInit_of_shift_invalid (hd : c.pinValid d = true) (hs : c.pinValid s = false) :
    checkInit c d s l n = .error .shiftPinInvalid := by
  simp only [checkInit, checkPin_of_valid _ hd, checkPin_of_invalid _ hs]

theorem checkInit_of_latch_invalid (hd : c.pinValid d = true) (hs : c.pinValid s = true) (hl : c.pinValid l = false) :
    checkInit c d s l n = .error .latchPinInvalid := by
  simp only [checkInit, checkPin_of_valid _ hd, checkPin_of_valid _ hs, checkPin_of_invalid _ hl]

theorem checkInit_of_depth_error {r : Reason} (hd : c.pinValid d = true) (hs : c.pinValid s = true)
    (hl : c.pinValid l = true) (hn : checkDepth c n = .error r) : checkInit c d s l n = .error r := by
  simp only [checkInit, checkPin_of_valid _ hd, checkPin_of_valid _ hs, checkPin_of_valid _ hl, hn]

end Init

/-! ### Rejections -/

/-- A failed operand check leaves the state of R203. -/
theorem checked_of_error {α : Type} {operand : Except Reason α} {r : Reason} (effect : α → State → State) (s : State)
    (h : operand = .error r) : s.checked operand effect = s.rejectedWith .invalidArgument r := by
  rw [h]
  rfl

theorem exec_init_reject {st : State} {d s l n : Int} {r : Reason} (hb : st.phase ≠ .busy)
    (h : checkInit st.params d s l n = .error r) :
    exec (.init d s l n) st = .next (st.rejectedWith .invalidArgument r) := by
  rw [exec, execInit, whenReady_ready _ st hb, checked_of_error _ _ h]

section Setters

variable {s : State} {p : Int} (hi : s.phase = .idle)
include hi

theorem exec_setDataPin_reject (hp : s.params.pinValid p = false) :
    exec (.setDataPin p) s = .next (s.rejectedWith .invalidArgument .dataPinInvalid) := by
  rw [exec, execSetDataPin, whenConstructed_idle _ s hi, checked_of_error _ _ (checkPin_of_invalid _ hp)]

theorem exec_setShiftPin_reject (hp : s.params.pinValid p = false) :
    exec (.setShiftPin p) s = .next (s.rejectedWith .invalidArgument .shiftPinInvalid) := by
  rw [exec, execSetShiftPin, whenConstructed_idle _ s hi, checked_of_error _ _ (checkPin_of_invalid _ hp)]

theorem exec_setLatchPin_reject (hp : s.params.pinValid p = false) :
    exec (.setLatchPin p) s = .next (s.rejectedWith .invalidArgument .latchPinInvalid) := by
  rw [exec, execSetLatchPin, whenConstructed_idle _ s hi, checked_of_error _ _ (checkPin_of_invalid _ hp)]

theorem exec_setDepth_reject {n : Int} {r : Reason} (hn : checkDepth s.params n = .error r) :
    exec (.setDepth n) s = .next (s.rejectedWith .invalidArgument r) := by
  rw [exec, execSetDepth, whenConstructed_idle _ s hi, checked_of_error _ _ hn]

end Setters

/-- Settles O18: each clause is the check of `checkInit` that fails first. -/
theorem initReportsFirstFailingOperand : Obligations.InitReportsFirstFailingOperand := by
  intro st d s l n hb
  refine ⟨fun hd => ?_, fun hd hs => ?_, fun hd hs hl => ?_, fun hd hs hl hn => ?_, fun hd hs hl hn hcap => ?_⟩
  · exact exec_init_reject hb (checkInit_of_data_invalid hd)
  · exact exec_init_reject hb (checkInit_of_shift_invalid hd hs)
  · exact exec_init_reject hb (checkInit_of_latch_invalid hd hs hl)
  · exact exec_init_reject hb (checkInit_of_depth_error hd hs hl (checkDepth_of_not_positive hn))
  · exact exec_init_reject hb (checkInit_of_depth_error hd hs hl (checkDepth_of_tooLarge hn hcap))

/-- Settles O19: one rejection lemma for each setter, with the check that fails. -/
theorem settersRejectInvalidOperands : Obligations.SettersRejectInvalidOperands := by
  intro s v hi
  refine ⟨fun hp => ⟨?_, ?_, ?_⟩, fun hn => ?_, fun hn hcap => ?_⟩
  · exact exec_setDataPin_reject hi hp
  · exact exec_setShiftPin_reject hi hp
  · exact exec_setLatchPin_reject hi hp
  · exact exec_setDepth_reject hi (checkDepth_of_not_positive hn)
  · exact exec_setDepth_reject hi (checkDepth_of_tooLarge hn hcap)

/-! ### INIT -/

/-- Settles O22: the fields `State.construct` writes, with the capacity at 8 bits a chip. -/
theorem initAcceptingStep : Obligations.InitAcceptingStep :=
  fun _ _ _ _ _ hb hd hs hl hn hcap => exec_init_accept hb hd hs hl hn hcap

/-! ### The role setters -/

section RoleSetters

variable {s : State} {p : Int} (hi : s.phase = .idle) (hp : s.params.pinValid p = true)
include hi hp

theorem exec_setDataPin_accept : exec (.setDataPin p) s = .next (s.replaceConfig { s.cfg with dataPin := p }) := by
  rw [exec, execSetDataPin, whenConstructed_idle _ s hi, checkPin_of_valid _ hp]
  rfl

theorem exec_setShiftPin_accept : exec (.setShiftPin p) s = .next (s.replaceConfig { s.cfg with shiftClockPin := p }) := by
  rw [exec, execSetShiftPin, whenConstructed_idle _ s hi, checkPin_of_valid _ hp]
  rfl

theorem exec_setLatchPin_accept : exec (.setLatchPin p) s = .next (s.replaceConfig { s.cfg with latchClockPin := p }) := by
  rw [exec, execSetLatchPin, whenConstructed_idle _ s hi, checkPin_of_valid _ hp]
  rfl

end RoleSetters

/-- A configuration write has no action to perform, so the next step replies (R106). -/
theorem step_replaceConfig {s : State} (c : Configuration) (hd : noMoveDue s.host = true) :
    step (s.replaceConfig c) = .next { s.afterReply okReply with
      cfg := c
      env := s.env.keepVouch (premisesHold c s.env)
      host := passTurn s.host } :=
  step_reply (s := s.replaceConfig c) rfl hd rfl rfl

/-- Settles O24: each setter is a `State.replaceConfig`, and one lemma says what the step after it does. -/
theorem roleSettersReplaceOneRegister : Obligations.RoleSettersReplaceOneRegister := by
  intro s p hi hd hp
  exact ⟨_, _, _, ⟨exec_setDataPin_accept hi hp, step_replaceConfig _ hd⟩,
    ⟨exec_setShiftPin_accept hi hp, step_replaceConfig _ hd⟩, exec_setLatchPin_accept hi hp, step_replaceConfig _ hd⟩

/-! ### SET_DEPTH -/

theorem exec_setDepth_accept {s : State} {n : Nat} (hi : s.phase = .idle) (hn : 1 ≤ n)
    (hcap : s.params.depthTooLarge (n : Int) = false) : exec (.setDepth (n : Int)) s = .next (s.resize n) := by
  rw [exec, execSetDepth, whenConstructed_idle _ s hi, checkDepth_ok.mpr ⟨rfl, hn, hcap⟩]
  rfl

theorem step_setDepth_accept {s : State} {n len : Nat} (hi : s.phase = .idle) (hh : s.host = [])
    (hp : decode s.port = .cmd (.setDepth (n : Int)) len) (hn : 1 ≤ n)
    (hcap : s.params.depthTooLarge (n : Int) = false) : step s = .next (State.resize n (s.consume len)) := by
  rw [step_command (by simp [hi]) (by rw [hh]; rfl) hp, passTurn_host hh]
  exact exec_setDepth_accept (s := s.consume len) hi hn hcap

/-- The CLEAR that SET_DEPTH starts has `4 · 8n + 2` actions (R160). -/
theorem length_resize_seq (n : Nat) (s : State) : (s.resize n).seq.length = 32 * n + 2 := by
  rw [resize_seq, State.transaction, length_txn, length_zeros, capacity_eq]
  omega

theorem eventsOf_resize_seq (n : Nat) (s : State) :
    eventsOf (s.resize n).seq =
      clearEvents s.cfg.dataPin s.cfg.shiftClockPin s.cfg.latchClockPin (8 * n) :=
  eventsOf_txn_zeros _ _ _ _

theorem bitsOf_resize_seq (n : Nat) (s : State) : bitsOf (s.resize n).seq = zeros (8 * n) :=
  bitsOf_txn _ _ _ _

/-- The CLEAR shifts zeros into the shadow of zeros that SET_DEPTH has written, and appends its writes to the trace. -/
theorem resize_performAll {n : Nat} (hn : 1 ≤ n) (s : State) :
    (s.resize n).performAll (s.resize n).seq = { s.resize n with
      trace := s.trace ++ clearEvents s.cfg.dataPin s.cfg.shiftClockPin s.cfg.latchClockPin (8 * n)
      env := ((s.resize n).performAll (s.resize n).seq).env } := by
  have hshadow : advanceAll (s.resize n).shadow (bitsOf (s.resize n).seq) = (s.resize n).shadow := by
    rw [bitsOf_resize_seq]
    exact advanceAll_zeros _ _ (Nat.mul_pos (by decide) hn)
  conv_lhs => rw [performAll_eq, hshadow, eventsOf_resize_seq, resize_trace]

/-- Settles O25: one step accepts (`step_setDepth_accept`), `steps_accepted` counts the rest, and `resize_performAll` says what
the CLEAR leaves. -/
theorem setDepthCompletes : Obligations.SetDepthCompletes := by
  intro s n hi hh hn hcap
  refine ⟨exec_setDepth_accept hi hn hcap, fun len hp => ?_⟩
  have hrun := steps_accepted (step_setDepth_accept hi hh hp hn hcap) rfl hh rfl
  rw [length_resize_seq, resize_performAll hn, performAll_env_congr (State.resize n (s.consume len))
    { s with env := s.env.revouch { s.cfg with chainDepth := n } } _ rfl] at hrun
  rw [hrun, hi]
  rfl

end Sys2Proof.Proofs

/-! ## The encoder (41_encoder.md R121-R125)

A list of elements is encoded element by element. An integer is encoded as its `bitlen` low bits; that this is the only encoding
without a leading zero rests on a value and a length having at most one list of bits (`bitsValue_inj`). -/

namespace Sys2Proof.Proofs

open Sys2Proof.Machine

/-! ### Lists of elements (R121) -/

theorem elemBit_eq_some {e : Elem} {b : Bit} : elemBit e = some b ↔ e = .int b.toInt ∨ e = .bool b := by
  cases e with
  | bool c => simp [elemBit]
  | int v =>
    cases b with
    | false => simp [elemBit]
    | true =>
      simp only [elemBit, Bool.toInt_true, Elem.int.injEq, reduceCtorEq, or_false]
      split_ifs <;> simp <;> omega

/-- The elements that stand for a bit, as R121 lists them. -/
theorem exists_elemBit_iff {e : Elem} :
    (∃ b, elemBit e = some b) ↔ e = .int 0 ∨ e = .int 1 ∨ e = .bool false ∨ e = .bool true := by
  simp only [elemBit_eq_some, Bool.exists_bool, Bool.toInt_false, Bool.toInt_true]
  tauto

/-- What `encBits` answers: the bit of every element, or the error if some element has none. -/
theorem encBits_cases (es : List Elem) :
    (∃ bits, encBits es = .ok bits ∧ es.map elemBit = bits.map some) ∨
    (encBits es = .error .elementNotBit ∧ ∃ e ∈ es, elemBit e = none) := by
  induction es with
  | nil => exact .inl ⟨[], rfl, rfl⟩
  | cons e es ih =>
    cases he : elemBit e with
    | none => exact .inr ⟨by simp [encBits, he], e, by simp, he⟩
    | some b =>
      obtain ⟨bits, hok, hmap⟩ | ⟨herr, e', hmem, hnone⟩ := ih
      · exact .inl ⟨b :: bits, by simp [encBits, he, hok], by simp [he, hmap]⟩
      · exact .inr ⟨by simp [encBits, he, herr], e', by simp [hmem], hnone⟩

theorem map_elemBit_of_encBits {es : List Elem} {bits : BitSequence} (h : encBits es = .ok bits) :
    es.map elemBit = bits.map some := by
  obtain ⟨bits', hok, hmap⟩ | ⟨herr, -⟩ := encBits_cases es
  · rwa [← Except.ok.inj (hok.symm.trans h)]
  · simp [herr] at h

theorem elemBit_getElem_of_encBits {es : List Elem} {bits : BitSequence} (h : encBits es = .ok bits) {k : Nat}
    (hk : k < es.length) (hk' : k < bits.length) : elemBit es[k] = some bits[k] := by
  simpa [hk, hk'] using congrArg (·[k]?) (map_elemBit_of_encBits h)

/-- Settles O32: a list is encoded element by element (`encBits_cases`), and `elemBit_eq_some` names each bit's elements. -/
theorem encBitsLaw : Obligations.EncBitsLaw := by
  intro es
  refine ⟨fun bits h => ⟨?_, fun k hk hk' => ?_⟩, fun hall => ?_, fun ⟨e, he, hbad⟩ => ?_⟩
  · simpa using (congrArg List.length (map_elemBit_of_encBits h)).symm
  · have hbit (b : Bit) : bits[k] = b ↔ es[k] = .int b.toInt ∨ es[k] = .bool b := by
      rw [← elemBit_eq_some, elemBit_getElem_of_encBits h hk hk', Option.some.injEq]
    exact ⟨hbit false, hbit true⟩
  · obtain ⟨bits, hok, -⟩ | ⟨-, e, he, hnone⟩ := encBits_cases es
    · exact ⟨bits, hok⟩
    · obtain ⟨b, hb⟩ := exists_elemBit_iff.mpr (hall e he)
      simp [hnone] at hb
  · obtain ⟨bits, -, hmap⟩ | ⟨herr, -⟩ := encBits_cases es
    · have hmem : elemBit e ∈ bits.map some := hmap ▸ List.mem_map_of_mem he
      obtain ⟨b, -, hb⟩ := List.mem_map.mp hmem
      exact absurd (exists_elemBit_iff.mp ⟨b, hb.symm⟩) hbad
    · exact herr

/-! ### The length of an integer (00_scope.md R11) -/

theorem bitlen_of_pos {v : Nat} (h : 0 < v) : bitlen v = Nat.log2 v + 1 :=
  if_neg h.ne'

theorem bitlen_le_iff {v k : Nat} : bitlen v ≤ k ↔ v < 2 ^ k := by
  obtain rfl | h := Nat.eq_zero_or_pos v
  · simp [bitlen]
  · rw [bitlen_of_pos h, Nat.succ_le_iff, Nat.log2_lt h.ne']

theorem lt_two_pow_bitlen (v : Nat) : v < 2 ^ bitlen v :=
  bitlen_le_iff.mp le_rfl

theorem bitlen_eq_succ {v n : Nat} (hle : 2 ^ n ≤ v) (hlt : v < 2 ^ (n + 1)) : bitlen v = n + 1 :=
  le_antisymm (bitlen_le_iff.mpr hlt) (not_le.mp fun h => hle.not_gt (bitlen_le_iff.mp h))

/-! ### The bits of an integer (R122) -/

@[simp] theorem length_bitsMsbFirst (k v : Nat) : (bitsMsbFirst k v).length = k := by
  simp [bitsMsbFirst]

theorem getElem_bitsMsbFirst {k v j : Nat} (h : j < (bitsMsbFirst k v).length) :
    (bitsMsbFirst k v)[j] = v.testBit (k - 1 - j) := by
  simp [bitsMsbFirst]

theorem bitsMsbFirst_succ (k v : Nat) : bitsMsbFirst (k + 1) v = v.testBit k :: bitsMsbFirst k v := by
  simp [bitsMsbFirst, List.range_succ]

theorem encInt_of_neg {v : Int} (h : v < 0) : encInt v = .error .negativeInteger :=
  if_pos h

theorem encInt_of_pos {v : Nat} (h : 0 < v) : encInt (v : Int) = .ok (bitsMsbFirst (bitlen v) v) := by
  rw [encInt, if_neg (by omega), if_neg (by omega), Int.toNat_natCast]

/-- Settles O33: `bitlen_le_iff` says that `bitlen` is the least exponent, and `bitsMsbFirst` has that many bits. -/
theorem encIntLaw : Obligations.EncIntLaw :=
  ⟨fun _ => encInt_of_neg, rfl, fun v h => ⟨_, encInt_of_pos h, length_bitsMsbFirst _ _,
    ⟨lt_two_pow_bitlen v, fun _ => bitlen_le_iff.mpr⟩, fun _ => getElem_bitsMsbFirst⟩⟩

/-! ### The value of a list of bits (R125) -/

theorem bitsValue_cons (b : Bit) (bs : BitSequence) :
    bitsValue (b :: bs) = b.toNat * 2 ^ bs.length + bitsValue bs := by
  cases b <;> simp [bitsValue]

theorem bitsValue_lt (bits : BitSequence) : bitsValue bits < 2 ^ bits.length := by
  induction bits with
  | nil => decide
  | cons b bs ih =>
    rw [bitsValue_cons, List.length_cons, pow_succ]
    cases b <;> simp <;> omega

theorem bitsValue_inj {as bs : BitSequence} (hlen : as.length = bs.length) (h : bitsValue as = bitsValue bs) : as = bs := by
  induction as generalizing bs with
  | nil => exact (List.length_eq_zero_iff.mp hlen.symm).symm
  | cons a as ih =>
    obtain _ | ⟨b, bs⟩ := bs
    · simp at hlen
    · have hlen' : as.length = bs.length := Nat.succ.inj hlen
      have ha := bitsValue_lt as
      have hb := bitsValue_lt bs
      rw [bitsValue_cons, bitsValue_cons, hlen'] at h
      rw [hlen'] at ha
      obtain rfl : a = b := by cases a <;> cases b <;> simp at h ⊢ <;> omega
      rw [ih hlen' (Nat.add_left_cancel h)]

theorem bitsValue_bitsMsbFirst (k v : Nat) : bitsValue (bitsMsbFirst k v) = v % 2 ^ k := by
  induction k with
  | zero => simp [bitsMsbFirst, bitsValue, Nat.mod_one]
  | succ k ih =>
    rw [bitsMsbFirst_succ, bitsValue_cons, length_bitsMsbFirst, ih, Nat.toNat_testBit, Nat.mod_pow_succ, Nat.mul_comm,
      Nat.add_comm]

theorem bitsValue_bitsMsbFirst_bitlen (v : Nat) : bitsValue (bitsMsbFirst (bitlen v) v) = v := by
  rw [bitsValue_bitsMsbFirst, Nat.mod_eq_of_lt (lt_two_pow_bitlen v)]

theorem bitsValue_eq_sum (bits : BitSequence) : bitsValue bits =
    ((List.range bits.length).map fun i => (if bits.getD i false then 1 else 0) * 2 ^ (bits.length - 1 - i)).sum := by
  induction bits with
  | nil => rfl
  | cons b bs ih =>
    rw [bitsValue_cons, ih, List.length_cons, List.range_succ_eq_map, List.map_cons, List.sum_cons, List.map_map]
    congr 1
    · cases b <;> simp
    · simp [Function.comp_def, Nat.sub_sub, Nat.add_comm 1]

/-! ### The integer laws (R125) -/

theorem exists_encInt_value (v : Nat) : ∃ bits, encInt (v : Int) = .ok bits ∧ bitsValue bits = v := by
  obtain rfl | h := Nat.eq_zero_or_pos v
  · exact ⟨[false], rfl, rfl⟩
  · exact ⟨_, encInt_of_pos h, bitsValue_bitsMsbFirst_bitlen v⟩

theorem encInt_head {v : Nat} (h : 0 < v) : ∃ rest, encInt (v : Int) = .ok (true :: rest) :=
  ⟨_, by rw [encInt_of_pos h, bitlen_of_pos h, bitsMsbFirst_succ, Nat.testBit_log2 h.ne']⟩

theorem encInt_injective {v w : Nat} (h : encInt (v : Int) = encInt (w : Int)) : v = w := by
  obtain ⟨bits, hv, rfl⟩ := exists_encInt_value v
  obtain ⟨bits', hw, rfl⟩ := exists_encInt_value w
  rw [hv, hw] at h
  rw [Except.ok.inj h]

/-- A list that begins with 1 is the encoding of its own value. -/
theorem encInt_bitsValue_cons_true (rest : BitSequence) :
    encInt (bitsValue (true :: rest) : Int) = .ok (true :: rest) := by
  have hle : 2 ^ rest.length ≤ bitsValue (true :: rest) := by simp [bitsValue_cons]
  have hlt := bitsValue_lt (true :: rest)
  rw [encInt_of_pos (Nat.two_pow_pos _ |>.trans_le hle)]
  refine congrArg _ (bitsValue_inj ?_ (bitsValue_bitsMsbFirst_bitlen _))
  rw [length_bitsMsbFirst, bitlen_eq_succ hle hlt, List.length_cons]

/-- Settles O34: one lemma for each law. -/
theorem encIntIntegerLaws : Obligations.EncIntIntegerLaws := by
  refine ⟨exists_encInt_value, fun _ => encInt_head, fun _ _ => encInt_injective, fun v bits hv hlead => ?_,
    fun _ => bitlen_of_pos, bitsValue_eq_sum⟩
  obtain hhead | ⟨rfl, rfl⟩ := hlead
  · obtain ⟨rest, rfl⟩ := List.head?_eq_some_iff.mp hhead
    rw [← hv, encInt_bitsValue_cons_true]
  · rfl

/-! ### Booleans (R123) -/

/-- Settles O35: both values, by computation. -/
theorem encBoolLaw : Obligations.EncBoolLaw :=
  ⟨rfl, rfl⟩

end Sys2Proof.Proofs

/-! ## The shadow register (42_shadow.md R140-R142) -/

namespace Sys2Proof.Proofs

open Sys2Proof.Machine Sys2Proof.Laws

/-! ### Advances (R140, R141) -/

/-- Settles O30: `advance` drops the front and appends. -/
theorem advanceIsOneFifoStep : Obligations.AdvanceIsOneFifoStep := by
  intro s oldest b rest h
  refine ⟨?_, by rw [h, List.length_append]; rfl⟩
  rw [perform_advance, h]
  rfl

/-- The general form of R141: what is left is the end of all the bits there were. -/
theorem advanceAll_eq_drop {shadow : List Bit} (bits : BitSequence) (h : shadow ≠ []) :
    advanceAll shadow bits = (shadow ++ bits).drop bits.length := by
  induction bits generalizing shadow with
  | nil => simp [advanceAll]
  | cons b bits ih =>
    obtain ⟨oldest, rest, rfl⟩ := List.exists_cons_of_ne_nil h
    calc advanceAll (oldest :: rest) (b :: bits) = advanceAll (rest ++ [b]) bits := rfl
      _ = ((rest ++ [b]) ++ bits).drop bits.length := ih (by simp)
      _ = ((oldest :: rest) ++ (b :: bits)).drop (b :: bits).length := by simp

theorem advanceAll_of_length_le {shadow : List Bit} {bits : BitSequence} (h : shadow ≠ [])
    (hlen : shadow.length ≤ bits.length) : advanceAll shadow bits = bits.drop (bits.length - shadow.length) := by
  rw [advanceAll_eq_drop bits h, List.drop_append, List.drop_eq_nil_of_le hlen, List.nil_append]

/-- Settles O31: the general form by induction on the bits, and what it comes to on either side of the shadow's length. -/
theorem advanceSequenceLaw : Obligations.AdvanceSequenceLaw := by
  intro shadow bits h
  refine ⟨advanceAll_eq_drop bits h, fun hle => ?_, fun hlt => advanceAll_of_length_le h hlt.le⟩
  rw [advanceAll_eq_drop bits h, List.drop_append_of_le_length hle]

/-- A sequence as long as the shadow replaces it. -/
theorem advanceAll_of_length_eq {shadow : List Bit} {bits : BitSequence} (h : shadow ≠ [])
    (hlen : shadow.length = bits.length) : advanceAll shadow bits = bits := by
  rw [advanceAll_of_length_le h hlen.le, hlen, Nat.sub_self, List.drop_zero]

/-! ### READ_STATE (R142) -/

theorem exec_readState_accept {s : State} (hi : s.phase = .idle) :
    exec .readState s = .next (s.accepted [] (stateReply s)) := by
  rw [exec, execReadState, whenConstructed_idle _ s hi]
  rfl

/-- One step accepts, and with no action to perform the next one replies. -/
theorem steps_readState {s : State} {rest : List Byte} (hi : s.phase = .idle) (hh : s.host = [])
    (hp : s.port = 0x13 :: rest) : steps 2 s = .next (State.afterReply { s with port := rest } (stateReply s)) := by
  have hdecode : decode s.port = .cmd .readState 1 := hp ▸ decode_encode_append (i := .readState) rest rfl
  have haccept : step s = .next (State.accepted { s with port := rest } [] (stateReply s)) := by
    rw [step_command (by simp [hi]) (by rw [hh]; rfl) hdecode, passTurn_host hh]
    exact (exec_readState_accept (s := s.consume 1) hi).trans (by rw [State.consume, hp]; rfl)
  exact steps_accepted haccept rfl hh rfl

/-- Settles O28: the second command reads the state that the first one leaves, whose shadow is the same. -/
theorem readStateReplies : Obligations.ReadStateReplies := by
  intro s hi hh hs hr
  refine ⟨exec_readState_accept hi, fun rest hp => ⟨?_, fun rest' hp' => ?_⟩⟩
  · rw [steps_readState hi hh hp, hi, hs, hr]
    rfl
  · have hsecond := steps_readState (s := State.afterReply { s with port := rest } (stateReply s)) rfl hh hp'
    rw [steps_add 2 2 _ _ (steps_readState hi hh hp), hsecond, hi, hs, hr]
    simp only [State.afterReply, List.append_assoc]
    rfl

end Sys2Proof.Proofs

/-! ## CLEAR under the premises (42_shadow.md R143; 70_reset_and_hazards.md R247, R249)

Where the premises are in force and both clocks are low, each bit of a transaction enters the stages, read from the far end, as
it enters the shadow (`chain_serializeBits`), and the latch pulse copies the stages. So R141 speaks of both, and a CLEAR, which
is as long as either, replaces both. -/

namespace Sys2Proof.Proofs

open Sys2Proof.Machine Sys2Proof.Laws

/-! ### A chain that follows the rules -/

/-- The premises of R232 are in force, both clocks are low and the data line is configured: a transaction may start. -/
structure ReadyToShift (c : Configuration) (e : Env) : Prop where
  premises : premisesHold c e = true
  vouched : e.standing = .vouched
  data : e.configured c.dataPin = true
  shiftLow : lineLevel e.lines c.shiftClockPin = some .low
  latchLow : lineLevel e.lines c.latchClockPin = some .low

section Writes

variable {c : Configuration} {e : Env}

theorem configured_of_lineLevel {p : PinId} {lvl : Level} (h : lineLevel e.lines p = some lvl) : e.configured p = true := by
  simp [Env.configured, h]

/-- Where the chain is vouched for, a write to a configured pin sets its line and is not followed by a draw. -/
theorem write_of_vouched {p : PinId} (lvl : Level) (hv : e.standing = .vouched) (hf : e.fault = none)
    (hc : e.configured p = true) : e.write p lvl = e.setLine p lvl :=
  write_configured e p lvl hf (by simp [hv]) hc

/-- The writes of a pulse: what its rising edge does, and then the line is low. -/
theorem write_pulse {p : PinId} (hv : e.standing = .vouched) (hf : e.fault = none) (hc : e.configured p = true) :
    (e.write p .high).write p .low =
      { e.setLine p .high with lines := setLineLevel (setLineLevel e.lines p .high) p .low } := by
  rw [write_of_vouched .high hv hf hc,
    write_of_vouched .low (by simpa using hv) (by simpa using hf) ((setLine_keeps e p .high).configured p hc),
    setLine_noEdge _ p .low (.inl rfl), setLine_lines]

namespace ReadyToShift

variable (h : ReadyToShift c e)
include h

theorem fault : e.fault = none := by
  obtain ⟨-, -, -, -, -, -, -, hf⟩ := premisesHold_iff.mp h.premises
  exact hf

theorem of_keeps {e' : Env} (hk : EnvKeeps e e') (hf : e'.fault = e.fault) (hs : e'.standing = e.standing)
    (hshift : lineLevel e'.lines c.shiftClockPin = some .low) (hlatch : lineLevel e'.lines c.latchClockPin = some .low) :
    ReadyToShift c e' :=
  ⟨premisesHold_of_keeps hk hf h.premises, hs.trans h.vouched, hk.configured _ h.data, hshift, hlatch⟩

/-- The data line's level is no edge of a clock. -/
theorem write_data (lvl : Level) :
    e.write c.dataPin lvl = { e with lines := setLineLevel e.lines c.dataPin lvl } := by
  obtain ⟨-, -, hsrclk, hrclk, hds, hdl, -, hf⟩ := premisesHold_iff.mp h.premises
  rw [write_of_vouched lvl h.vouched hf h.data]
  exact setLine_noEdge e c.dataPin lvl (.inr (.inr (.inr ⟨hsrclk ▸ hds, hrclk ▸ hdl⟩)))

theorem ready_write_data (lvl : Level) : ReadyToShift c (e.write c.dataPin lvl) := by
  obtain ⟨-, -, -, -, hds, hdl, -, -⟩ := premisesHold_iff.mp h.premises
  refine h.of_keeps (write_keeps e _ lvl) ?_ ?_ ?_ ?_ <;> rw [h.write_data lvl]
  · rw [lineLevel_setLineLevel, if_neg hds.symm, h.shiftLow]
  · rw [lineLevel_setLineLevel, if_neg hdl.symm, h.latchLow]

/-- A pulse of either clock leaves it low and the other one as it was. -/
theorem ready_pulse {p : PinId} (hp : p = c.shiftClockPin ∨ p = c.latchClockPin) :
    ReadyToShift c ((e.write p .high).write p .low) := by
  have hc : e.configured p = true := by
    rcases hp with rfl | rfl
    · exact configured_of_lineLevel h.shiftLow
    · exact configured_of_lineLevel h.latchLow
  have hlow (q : PinId) (hq : lineLevel e.lines q = some .low) :
      lineLevel (setLineLevel (setLineLevel e.lines p .high) p .low) q = some .low := by
    by_cases hqp : q = p <;> simp [lineLevel_setLineLevel, hqp, hq]
  refine h.of_keeps ((write_keeps e p .high).trans (write_keeps _ p .low)) ?_ ?_ ?_ ?_ <;>
    rw [write_pulse h.vouched h.fault hc]
  · exact setLine_fault e p .high
  · exact setLine_standing e p .high
  · exact hlow _ h.shiftLow
  · exact hlow _ h.latchLow

/-- The pulse of the shift clock takes in the level of the data line (R227). -/
theorem chain_shiftPulse {lvl : Level} (hd : lineLevel e.lines c.dataPin = some lvl) :
    ((e.write c.shiftClockPin .high).write c.shiftClockPin .low).chain = e.chain.shiftIn (bitOf lvl) := by
  obtain ⟨-, hser, hsrclk, hrclk, hds, -, hsl, -⟩ := premisesHold_iff.mp h.premises
  have hedge := setLine_shiftEdge e lvl (by rwa [hser, hsrclk]) (by rwa [hsrclk, hrclk])
    (by rw [hsrclk, h.shiftLow]) (by rw [hser, hd])
  rw [write_pulse h.vouched h.fault (configured_of_lineLevel h.shiftLow), ← hsrclk, hedge]

/-- The pulse of the latch clock copies the stages (R229). -/
theorem chain_latchPulse :
    ((e.write c.latchClockPin .high).write c.latchClockPin .low).chain = { e.chain with storage := e.chain.stages } := by
  obtain ⟨-, -, hsrclk, hrclk, -, -, hsl, -⟩ := premisesHold_iff.mp h.premises
  have hedge := setLine_latchEdge e (by rwa [hsrclk, hrclk]) (by rw [hrclk, h.latchLow])
  rw [write_pulse h.vouched h.fault (configured_of_lineLevel h.latchLow), ← hrclk, hedge]

end ReadyToShift

end Writes

/-! ### One bit, some bits, a transaction -/

theorem bitOf_levelOf (b : Bit) : bitOf (levelOf b) = b := by
  cases b <;> rfl

/-- Read from the far end, the stages of a chain take a bit as the shadow does. -/
theorem stages_shiftIn {k : Chain} (hk : ChainSized k) (b : Bit) :
    (k.shiftIn b).stages = (advance k.stages.reverse b).reverse := by
  obtain ⟨-, hlen, -⟩ := hk
  simp [Chain.shiftIn, advance, Config.bitsPerChip, ← hlen, ← List.dropLast_eq_take]

section Transaction

variable {s : State} (h : ReadyToShift s.cfg s.env)
include h

theorem ready_serializeBit (b : Bit) :
    ReadyToShift s.cfg (s.performAll (serializeBit s.cfg.dataPin s.cfg.shiftClockPin b)).env :=
  (h.ready_write_data (levelOf b)).ready_pulse (.inl rfl)

theorem chain_serializeBit (b : Bit) :
    (s.performAll (serializeBit s.cfg.dataPin s.cfg.shiftClockPin b)).env.chain = s.env.chain.shiftIn b := by
  have hd : lineLevel (s.env.write s.cfg.dataPin (levelOf b)).lines s.cfg.dataPin = some (levelOf b) := by
    rw [h.write_data, lineLevel_setLineLevel, if_pos rfl]
  refine ((h.ready_write_data (levelOf b)).chain_shiftPulse hd).trans ?_
  rw [bitOf_levelOf, h.write_data]

/-- The shift phase of a transaction: the stages take the bits as the shadow does, and the storage stays (R250). -/
theorem chain_serializeBits (hk : ChainSized s.env.chain) (bits : BitSequence) :
    let t := s.performAll (bits.flatMap (serializeBit s.cfg.dataPin s.cfg.shiftClockPin))
    ReadyToShift s.cfg t.env ∧
      t.env.chain = { s.env.chain with stages := (advanceAll s.env.chain.stages.reverse bits).reverse } := by
  induction bits generalizing s with
  | nil => exact ⟨h, by simp [advanceAll]⟩
  | cons b bits ih =>
    have hchain := chain_serializeBit h b
    have hready := ready_serializeBit h b
    obtain ⟨hlast, hstages⟩ := ih (s := s.performAll (serializeBit s.cfg.dataPin s.cfg.shiftClockPin b))
      (by rwa [performAll_cfg]) (by rw [hchain]; exact chainSized_shiftIn _ b hk)
    rw [performAll_cfg] at hlast hstages
    rw [List.flatMap_cons, performAll_append]
    refine ⟨hlast, hstages.trans ?_⟩
    rw [hchain, stages_shiftIn hk, List.reverse_reverse]
    rfl

/-- A transaction shifts the stages and then copies them to the storage. -/
theorem chain_transaction (hk : ChainSized s.env.chain) (bits : BitSequence) :
    let t := s.performAll (s.transaction bits)
    let stages := (advanceAll s.env.chain.stages.reverse bits).reverse
    ReadyToShift s.cfg t.env ∧ t.env.chain = { s.env.chain with stages := stages, storage := stages } := by
  obtain ⟨hready, hchain⟩ := chain_serializeBits h hk bits
  have hpulse := hready.chain_latchPulse
  rw [hchain] at hpulse
  rw [State.transaction, txn, performAll_append]
  exact ⟨hready.ready_pulse (.inr rfl), hpulse⟩

end Transaction

/-! ### CLEAR -/

theorem reverse_zeros (k : Nat) : (zeros k).reverse = zeros k :=
  List.reverse_replicate

/-- As many zeros as a register holds bits leave zeros in it. -/
theorem advanceAll_zeros_of_length {bits : List Bit} {k : Nat} (hk : 0 < k) (hlen : bits.length = k) :
    advanceAll bits (zeros k) = zeros k :=
  advanceAll_of_length_eq (List.ne_nil_of_length_pos (hlen ▸ hk)) (hlen.trans (length_zeros k).symm)

/-- The accepting step of a CLEAR with the premises holding and the lines ready vouches for the chain, whatever it holds. -/
theorem revouch_of_clearReady {c : Configuration} {e : Env} (hp : premisesHold c e = true) (hr : clearReady c e = true) :
    e.revouch c = { e with standing := .vouched } := by
  simp [Env.revouch, Env.vouchIf, hp, hr]

theorem readyToShift_revouch {c : Configuration} {e : Env} (hp : premisesHold c e = true) (hr : clearReady c e = true) :
    ReadyToShift c (e.revouch c) := by
  rw [revouch_of_clearReady hp hr]
  simp only [clearReady, Bool.and_eq_true, decide_eq_true_eq] at hr
  obtain ⟨⟨hshift, hlatch⟩, hdata⟩ := hr
  exact ⟨hp, rfl, hdata, hshift, hlatch⟩

theorem mirrored_of_ready {s : State} (h : ReadyToShift s.cfg s.env) (hstages : s.env.chain.stages = s.shadow.reverse)
    (hstorage : s.env.chain.storage = s.env.chain.stages) : Mirrored s :=
  ⟨hstages, hstorage, h.shiftLow, h.latchLow, h.data⟩

theorem length_startClear_seq (s : State) : s.startClear.seq.length = 32 * s.cfg.chainDepth + 2 := by
  rw [startClear_seq, State.transaction, length_txn, length_zeros, capacity_eq]
  omega

/-- A CLEAR of the whole chain sets stages, storage and shadow to zeros. -/
theorem startClear_restores {s : State} (hk : ChainSized s.env.chain) (hsh : s.shadow.length = 8 * s.cfg.chainDepth)
    (hp : premisesHold s.cfg s.env = true) (hr : clearReady s.cfg s.env = true) :
    let t := s.startClear.performAll s.startClear.seq
    ReadyToShift s.cfg t.env ∧ t.shadow = zeros (8 * s.cfg.chainDepth) ∧
      t.env.chain.stages = zeros (8 * s.cfg.chainDepth) ∧ t.env.chain.storage = zeros (8 * s.cfg.chainDepth) := by
  obtain ⟨hdepth, -⟩ := premisesHold_iff.mp hp
  have hchain : s.startClear.env.chain = s.env.chain := by rw [startClear_env, revouch_of_clearReady hp hr]
  obtain ⟨hlast, hall⟩ := chain_transaction (s := s.startClear) (readyToShift_revouch hp hr) (hchain ▸ hk)
    (zeros (8 * s.cfg.chainDepth))
  obtain ⟨hpos, hstages, -⟩ := hk
  have hzeros {bits : List Bit} (hlen : bits.length = 8 * s.cfg.chainDepth) :=
    advanceAll_zeros_of_length (by omega) hlen
  rw [hchain, hzeros (by rw [List.length_reverse, hstages, hdepth]), reverse_zeros] at hall
  refine ⟨hlast, ?_, congrArg Chain.stages hall, congrArg Chain.storage hall⟩
  rw [performAll_shadow, startClear_seq, State.transaction, bitsOf_txn, startClear_shadow, capacity_eq, hzeros hsh]

/-- The run of a CLEAR, from the step that accepts the command to its reply; `u` is the state whose CLEAR it is. -/
theorem steps_startClear {s u : State} (hstep : step s = .next u.startClear) (hh : u.host = [])
    (hk : ChainSized u.env.chain) (hsh : u.shadow.length = 8 * u.cfg.chainDepth)
    (hp : premisesHold u.cfg u.env = true) (hr : clearReady u.cfg u.env = true) :
    ∃ t, steps (32 * u.cfg.chainDepth + 4) s = .next t ∧ t.phase = .idle ∧ MirrorPremises t ∧ Mirrored t ∧
      t.env.standing = .vouched ∧ t.env.chain.stages = zeros (8 * u.cfg.chainDepth) ∧
        t.env.chain.storage = zeros (8 * u.cfg.chainDepth) := by
  have hrun := steps_accepted hstep rfl hh rfl
  rw [length_startClear_seq] at hrun
  obtain ⟨hready, hshadow, hstages, hstorage⟩ := startClear_restores hk hsh hp hr
  have hcfg : ((u.startClear.performAll u.startClear.seq).afterReply okReply).cfg = u.cfg := by simp
  refine ⟨_, hrun, rfl, mirrorPremises_iff.mpr (hcfg ▸ hready.premises), mirrored_of_ready (hcfg ▸ hready) ?_ ?_,
    hready.vouched, hstages, hstorage⟩
  · exact hstages.trans (by rw [afterReply_shadow, hshadow, reverse_zeros])
  · exact hstorage.trans hstages.symm

theorem step_clear_accept {s : State} {len : Nat} (hi : s.phase = .idle) (hh : s.host = [])
    (hp : decode s.port = .cmd .clear len) : step s = .next (s.consume len).startClear := by
  rw [step_command (by simp [hi]) (by rw [hh]; rfl) hp, passTurn_host hh, exec, execClear]
  exact congrArg _ (whenConstructed_idle _ (s.consume len) hi)

/-- Settles O58: both commands start a CLEAR at the depth of the chain, SET_DEPTH from the state with the new depth and a shadow
of that length. -/
theorem clearRestoresTheMirror : Obligations.ClearRestoresTheMirror := by
  intro s i n len hinv hi hh hdec hcmd hp hr
  rcases hcmd with ⟨rfl, rfl⟩ | ⟨rfl, hn, hcap⟩
  · have hshadow := length_shadow_of_idle hinv hi
    exact steps_startClear (u := s.consume len) (step_clear_accept hi hh hdec) hh hinv.chain hshadow hp hr
  · exact steps_startClear (step_setDepth_accept hi hh hdec hn hcap) hh hinv.chain (length_zeros _) hp hr

end Sys2Proof.Proofs

/-! ## The sequencer (43_sequencer.md R160-R170)

A transaction read from its `k`-th bit on is the transaction of the bits from there on (`getElem?_txn_add`). A shift command and
CLEAR both start a transaction, and one run lemma (`steps_startShift`) says what is left when it has ended. -/

namespace Sys2Proof.Proofs

open Sys2Proof.Machine Sys2Proof.Laws

/-! ### The action list (R160, R162) -/

/-- Each bit takes four places of the list. -/
theorem getElem?_txn_add (d s l : PinId) {bits : BitSequence} {k : Nat} (hk : k ≤ bits.length) (j : Nat) :
    (txn d s l bits)[4 * k + j]? = (txn d s l (bits.drop k))[j]? := by
  induction k generalizing bits with
  | zero => simp
  | succ k ih =>
    obtain _ | ⟨b, bits⟩ := bits
    · cases hk
    · have hplace : 4 * (k + 1) + j = 4 * k + j + 4 := by omega
      rw [hplace]
      exact ih (Nat.le_of_succ_le_succ hk)

/-- Settles O36: the places of a bit are the first four of the transaction that begins with it, and the latch pulse is the
transaction of no bits. -/
theorem transactionOrder : Obligations.TransactionOrder := by
  intro d s l bits
  refine ⟨fun k hk => ?_, ?_⟩
  · have hplace := getElem?_txn_add d s l hk.le
    rw [List.drop_eq_getElem_cons hk] at hplace
    exact ⟨hplace 0, hplace 1, hplace 2, hplace 3⟩
  · have hplace := getElem?_txn_add d s l (le_refl bits.length)
    rw [List.drop_length] at hplace
    exact ⟨hplace 0, hplace 1, hplace 2⟩

/-! ### Counts (R169) -/

theorem length_eventsOf_txn (d s l : PinId) (bits : BitSequence) :
    (eventsOf (txn d s l bits)).length = 3 * bits.length + 2 := by
  induction bits with
  | nil => rfl
  | cons b bits ih =>
    rw [eventsOf_txn_cons, List.length_append, ih]
    simp only [List.length_cons, List.length_nil]
    omega

/-- The writes to a pin that is not the data pin are those of the shift-clock pulses and of the latch pulse. -/
theorem count_pinWrite_txn {d p : PinId} (h : d ≠ p) (s l : PinId) (lvl : Level) (bits : BitSequence) :
    (txn d s l bits).count (.pinWrite p lvl) =
      bits.length * (pulse s).count (.pinWrite p lvl) + (pulse l).count (.pinWrite p lvl) := by
  induction bits with
  | nil => simp
  | cons b bits ih =>
    have hbit : (serializeBit d s b).count (.pinWrite p lvl) = (pulse s).count (.pinWrite p lvl) := by
      simp [serializeBit, h]
    have hcons : txn d s l (b :: bits) = serializeBit d s b ++ txn d s l bits := txn_cons d s l b bits
    rw [hcons, List.count_append, hbit, ih, List.length_cons, Nat.succ_mul]
    omega

theorem count_pulse_self (p : PinId) (lvl : Level) : (pulse p).count (.pinWrite p lvl) = 1 := by
  cases lvl <;> simp [pulse]

theorem count_pulse_of_ne {p q : PinId} (h : p ≠ q) (lvl : Level) : (pulse p).count (.pinWrite q lvl) = 0 := by
  simp [pulse, h]

/-- Settles O37: no pulse of one clock writes the other, so each write counts the pulses of its own clock. -/
theorem transactionCounts : Obligations.TransactionCounts := by
  intro d s l bits
  refine ⟨length_txn d s l bits, length_eventsOf_txn d s l bits, bitsOf_txn d s l bits, fun hds hdl hsl => ?_⟩
  have hshift (lvl : Level) : (txn d s l bits).count (.pinWrite s lvl) = bits.length := by
    rw [count_pinWrite_txn hds, count_pulse_self, count_pulse_of_ne hsl.symm, Nat.mul_one, Nat.add_zero]
  have hlatch (lvl : Level) : (txn d s l bits).count (.pinWrite l lvl) = 1 := by
    rw [count_pinWrite_txn hdl, count_pulse_self, count_pulse_of_ne hsl, Nat.mul_zero, Nat.zero_add]
  exact ⟨hshift .high, hshift .low, hlatch .high, hlatch .low⟩

/-! ### The levels last driven (R167) -/

theorem lastWrite_pulse (p q : PinId) (acc : Option Level) :
    lastWrite q acc (eventsOf (pulse p)) = if p = q then some .low else acc := by
  simp only [pulse, eventsOf, List.filterMap_cons, List.filterMap_nil, lastWrite]
  split_ifs <;> rfl

theorem lastWrite_serializeBit (d s p : PinId) (b : Bit) (acc : Option Level) :
    lastWrite p acc (eventsOf (serializeBit d s b)) =
      if s = p then some .low else if d = p then some (levelOf b) else acc := by
  rw [serializeBit, eventsOf_append, lastWrite_append, lastWrite_pulse]
  rfl

/-- The bits of a transaction drive no pin but the data line and the shift clock. -/
theorem lastWrite_serializeBits {d s p : PinId} (hd : d ≠ p) (hs : s ≠ p) (bits : BitSequence) (acc : Option Level) :
    lastWrite p acc (eventsOf (bits.flatMap (serializeBit d s))) = acc := by
  induction bits with
  | nil => rfl
  | cons b bits ih =>
    rw [List.flatMap_cons, eventsOf_append, lastWrite_append, lastWrite_serializeBit, if_neg hs, if_neg hd, ih]

/-- The latch pulse drives the latch line last; any other pin stands as the bits left it. -/
theorem drv_txn (st : State) (d s l p : PinId) (bits : BitSequence) :
    (st.performAll (txn d s l bits)).drv p =
      if l = p then some .low else lastWrite p (st.drv p) (eventsOf (bits.flatMap (serializeBit d s))) := by
  rw [State.drv, performAll_trace, txn, eventsOf_append, lastWrite_append, lastWrite_append, lastWrite_pulse]
  rfl

theorem lastWrite_serializeBits_concat (d s p : PinId) (init : BitSequence) (b : Bit) (acc : Option Level) :
    lastWrite p acc (eventsOf ((init ++ [b]).flatMap (serializeBit d s))) =
      if s = p then some .low else if d = p then some (levelOf b)
        else lastWrite p acc (eventsOf (init.flatMap (serializeBit d s))) := by
  rw [List.flatMap_append, List.flatMap_singleton, eventsOf_append, lastWrite_append, lastWrite_serializeBit]

/-- Settles O39: the latch pulse comes last, before it the last bit, and no other pin is written. -/
theorem lineLevelsAfterTransaction : Obligations.LineLevelsAfterTransaction := by
  intro st d s l bits hds hdl hsl
  refine ⟨?_, ?_, ?_, fun p hd hs hl => ?_⟩
  · rw [drv_txn, if_pos rfl]
  · rintro rfl
    rw [drv_txn, drv_txn, if_neg hdl.symm, if_neg hsl.symm]
    exact ⟨rfl, rfl⟩
  · rintro init b rfl
    rw [drv_txn, drv_txn, if_neg hdl.symm, if_neg hsl.symm, lastWrite_serializeBits_concat, lastWrite_serializeBits_concat,
      if_neg hds.symm, if_pos rfl, if_pos rfl]
    exact ⟨rfl, rfl⟩
  · rw [drv_txn, if_neg hl.symm, lastWrite_serializeBits hd.symm hs.symm]

/-! ### Accepting and rejecting a payload (R163-R165) -/

theorem checked_of_ok {α : Type} {operand : Except Reason α} {a : α} (effect : α → State → State) (s : State)
    (h : operand = .ok a) : s.checked operand effect = effect a s := by
  rw [h]
  rfl

section Payloads

variable {s : State} (hi : s.phase = .idle)
include hi

theorem exec_shiftBits_reject {es : List Elem} {r : Reason} (h : encBits es = .error r) :
    exec (.shiftBits es) s = .next (s.rejectedWith .invalidArgument r) := by
  rw [exec, execShiftBits, whenConstructed_idle _ s hi, checked_of_error _ _ h]

theorem exec_shiftInt_reject {v : Int} {r : Reason} (h : encInt v = .error r) :
    exec (.shiftInt v) s = .next (s.rejectedWith .invalidArgument r) := by
  rw [exec, execShiftInt, whenConstructed_idle _ s hi, checked_of_error _ _ h]

/-- A shift command whose operand encodes starts the transaction of its payload. -/
theorem exec_shift_accept {i : Instr} {bits : BitSequence} (h : ShiftsBits i bits) :
    exec i s = .next (s.startShift bits) := by
  cases i with
  | shiftBits es => rw [exec, execShiftBits, whenConstructed_idle _ s hi, checked_of_ok _ _ h]
  | shiftInt v => rw [exec, execShiftInt, whenConstructed_idle _ s hi, checked_of_ok _ _ h]
  | shiftBool b => rw [exec, execShiftBool, whenConstructed_idle _ s hi, checked_of_ok _ _ h]
  | init | setDataPin | setShiftPin | setLatchPin | setDepth | readState | clear => exact h.elim

theorem exists_exec_shift_busy {i : Instr} {bits : BitSequence} (h : ShiftsBits i bits) :
    ∃ t, exec i s = .next t ∧ t.phase = .busy :=
  ⟨_, exec_shift_accept hi h, startShift_phase bits s⟩

end Payloads

/-- Settles O20: a command is rejected or accepted as its operand's encoding fails (R121, R122) or does not. -/
theorem badPayloadsAreRejectedWhole : Obligations.BadPayloadsAreRejectedWhole := by
  intro s hi
  refine ⟨fun es => ?_, fun v => ⟨fun hv => exec_shiftInt_reject hi (encInt_of_neg hv), fun hv => ?_⟩, fun b => ?_⟩
  · obtain ⟨-, hok, herr⟩ := encBitsLaw es
    refine ⟨fun hbad => exec_shiftBits_reject hi (herr (by simpa only [not_or] using hbad)), fun hall => ?_⟩
    obtain ⟨bits, hbits⟩ := hok hall
    exact exists_exec_shift_busy hi (i := .shiftBits es) hbits
  · obtain ⟨n, rfl⟩ := Int.eq_ofNat_of_zero_le hv
    obtain ⟨bits, hbits, -⟩ := exists_encInt_value n
    exact exists_exec_shift_busy hi (i := .shiftInt n) hbits
  · exact exists_exec_shift_busy hi (i := .shiftBool b) rfl

/-- Settles O29: frame and assembly by computation; the transaction of no bits is the latch pulse. -/
theorem latchIsAnEmptyShift : Obligations.LatchIsAnEmptyShift :=
  ⟨rfl, rfl, rfl, fun _ hi => exec_shift_accept hi (i := latch) rfl⟩

/-! ### The run of a transaction (R166, R168) -/

/-- The run of a command that is a transaction, from the Idle state in which it is presented to its reply; `e` is the environment
as its accepting step leaves it. -/
theorem steps_startShift {s : State} {bits : BitSequence} {len : Nat} {e : Env} (hinv : Inv s) (hi : s.phase = .idle)
    (hh : s.host = []) (hstep : step s = .next (State.startShift bits { s.consume len with env := e })) :
    steps (4 * bits.length + 4) s = .next { s with
      port := s.port.drop len
      shadow := advanceAll s.shadow bits
      trace := s.trace ++ eventsOf (s.transaction bits) ++ [.reply okReply]
      lastStatus := 0x00
      lastReason := 0x00
      env := (State.performAll { s with env := e } (s.transaction bits)).env } := by
  obtain ⟨hidle, -⟩ := hinv.sequencer
  obtain ⟨hseq, hreply⟩ := hidle (by simp [hi])
  have hrun := steps_accepted hstep rfl hh rfl
  rw [startShift_seq, State.transaction, length_txn, performAll_eq, bitsOf_txn,
    performAll_env_congr (State.startShift bits { s.consume len with env := e }) { s with env := e } _ rfl] at hrun
  rw [hrun, hi, hseq, hreply]
  rfl

/-- Settles O26: a step accepts the command (`exec_shift_accept`), and `steps_startShift` says what its transaction leaves. -/
theorem shiftCommandsBigStep : Obligations.ShiftCommandsBigStep := by
  intro s i bits hinv hi hh hbits
  refine ⟨exec_shift_accept hi hbits, fun len hp => ?_⟩
  have hstep : step s = .next ((s.consume len).startShift bits) := by
    rw [step_command (by simp [hi]) (by rw [hh]; rfl) hp, passTurn_host hh]
    exact exec_shift_accept (s := s.consume len) hi hbits
  have hshadow := shadow_pos hinv (by simp [hi])
  rw [← advanceAll_eq_drop bits (List.ne_nil_of_length_pos hshadow)]
  exact steps_startShift (e := s.env) hinv hi hh hstep

theorem exec_clear_accept {s : State} (hi : s.phase = .idle) : exec .clear s = .next s.startClear := by
  rw [exec, execClear, whenConstructed_idle _ s hi]

/-- Settles O27: CLEAR is the transaction of as many zeros as the shadow has bits, from the environment with its vouch. -/
theorem clearCompletes : Obligations.ClearCompletes := by
  intro s hinv hi hh
  refine ⟨exec_clear_accept hi, fun len hp => ?_⟩
  have hshadow := shadow_pos hinv (by simp [hi])
  rw [length_shadow_of_idle hinv hi] at hshadow
  have hrun := steps_startShift (bits := zeros (8 * s.cfg.chainDepth)) hinv hi hh (step_clear_accept hi hh hp)
  have hcount : 4 * (8 * s.cfg.chainDepth) + 4 = 32 * s.cfg.chainDepth + 4 := by omega
  rwa [length_zeros, hcount, advanceAll_zeros_of_length hshadow (length_shadow_of_idle hinv hi), State.transaction,
    eventsOf_txn_zeros] at hrun

end Sys2Proof.Proofs

/-! ## The pin collaborator and the chain (60_exceptions.md R221-R230)

A write to a configured pin and a configuration event come to `Env.setLine`, with what is drawn once a premise has failed or the
environment is in its fault. What `setLine` does to the chain is one of no edge, a shift edge and a latch edge. -/

namespace Sys2Proof.Proofs

open Sys2Proof.Machine Sys2Proof.Laws

/-! ### Over a step (R221, R223) -/

/-- Settles O43: every step keeps both, the move `rewire` too. -/
theorem environmentFaultIsNeverCleared : Obligations.EnvironmentFaultIsNeverCleared := by
  intro s t h
  rcases step_env_keeps h with hk | ⟨ser, srclk, rclk, rest, -, he⟩
  · exact ⟨hk.fault, hk.configured⟩
  · have hk := rewire_keeps ser srclk rclk s.env
    rw [he]
    exact ⟨hk.fault, hk.configured⟩

/-! ### A write (R222, R223) -/

/-- While there is no fault, a write to a configured pin sets its line, whatever is drawn for the chain. -/
theorem write_lines {e : Env} {p : PinId} (lvl : Level) (hf : e.fault = none) (hc : e.configured p = true) :
    (e.write p lvl).lines = setLineLevel e.lines p lvl ∧ (e.write p lvl).fault = none := by
  have hset : (e.setLine p lvl).fault = none := (setLine_fault e p lvl).trans hf
  rw [Env.write, if_pos hc]
  exact ⟨(settle_lines _ hset).trans (setLine_lines e p lvl), (settle_fault _).trans hset⟩

/-- Settles O52. -/
theorem configuredWriteSetsTheLine : Obligations.ConfiguredWriteSetsTheLine := by
  intro e p lvl hf hc
  obtain ⟨hlines, hfault⟩ := write_lines lvl hf hc
  rw [hlines]
  exact ⟨by rw [lineLevel_setLineLevel, if_pos rfl], fun q hq => by rw [lineLevel_setLineLevel, if_neg hq], hfault⟩

theorem write_unconfigured {e : Env} {p : PinId} (lvl : Level) (hf : e.fault = none) (hc : e.configured p = false) :
    e.write p lvl = Env.undetermined { e with fault := some (.unconfiguredPinWrite p) } := by
  simp [Env.write, hc, Env.raiseFault, hf, Env.settle]

/-- Settles O54: the write raises the fault, and then everything is drawn at the number of draws before it. -/
theorem unconfiguredWriteFaultsTheEnvironment : Obligations.UnconfiguredWriteFaultsTheEnvironment := by
  intro s p lvl hc hf
  have hwrite := write_unconfigured lvl hf hc
  refine ⟨_, s.env.draws, perform_pinWrite s p lvl, ?_⟩
  rw [hwrite]
  exact ⟨rfl, rfl, undetermined_configured _, le_rfl, Nat.lt_succ_self _, rfl, rfl, rfl⟩

/-! ### A configuration event (R221) -/

theorem configured_configure {e : Env} (p : PinId) (hf : e.fault = none) : (e.configure p).configured p = true := by
  simp [Env.configured, configure_level e p p hf]

/-- What a configuration event does beside setting the line: it raises no fault, takes the level drawn from the given ones, and
takes no draw back. -/
theorem configure_frame (e : Env) (p : PinId) :
    (e.configure p).fault = e.fault ∧ (e.configure p).givenLevels = (e.drawLevel p).2.givenLevels ∧
      (e.drawLevel p).2.draws ≤ (e.configure p).draws := by
  obtain ⟨gs, k, hd⟩ := drawLevel_spec e p
  have hfault : (e.drawLevel p).2.fault = e.fault := by rw [hd]
  have hset := setLine_draws (e.drawLevel p).2 p (e.drawLevel p).1
  obtain ⟨-, hkeepFault, hkeepGiven, hkeepDraws⟩ := keepVouch_lines (e.startsLow p (e.drawLevel p).1)
    ((e.drawLevel p).2.setLine p (e.drawLevel p).1).settle
  refine ⟨hkeepFault.trans ?_, hkeepGiven.trans ?_, hset.trans ((settle_draws _).trans hkeepDraws)⟩
  · rw [settle_fault, setLine_fault, hfault]
  · rw [settle_givenLevels, setLine_givenLevels]

theorem drawLevel_of_not_given {e : Env} (p : PinId) (h : e.givenLevels = []) :
    e.drawLevel p = (Config.initLevel e.draws p, { e with draws := e.draws + 1 }) := by
  simp [Env.drawLevel, h]

/-- Settles O53: `configure_level` for the lines, and what `drawLevel` answers with a given level and with none. -/
theorem configureDrawsTheLevel : Obligations.ConfigureDrawsTheLevel := by
  intro e p hf
  obtain ⟨hfault, hgiven, hdraws⟩ := configure_frame e p
  have hlevel : lineLevel (e.configure p).lines p = some (e.drawLevel p).1 :=
    (configure_level e p p hf).trans (if_pos rfl)
  refine ⟨configured_configure p hf, fun lvl rest hg => ?_, fun hg => ?_,
    fun q hq => (configure_level e p q hf).trans (if_neg hq), hfault.trans hf⟩
  · obtain ⟨hdrawn, hrest⟩ := configure_given e p lvl rest hg
    exact ⟨hdrawn ▸ hlevel, hrest⟩
  · rw [drawLevel_of_not_given p hg] at hlevel hdraws hgiven
    exact ⟨hlevel, hdraws, hgiven.trans hg⟩

/-! ### The chain's reaction (R227, R229, R230) -/

/-- A draw leaves the chain and the lines, so an edge after it is the edge before it. -/
theorem drawLevel_chain (e : Env) (p : PinId) : (e.drawLevel p).2.chain = e.chain ∧ (e.drawLevel p).2.lines = e.lines := by
  obtain ⟨gs, k, hd⟩ := drawLevel_spec e p
  rw [hd]
  exact ⟨rfl, rfl⟩

theorem setLine_chain_of_noEdge {e : Env} {p : PinId} {lvl : Level}
    (h : lvl = .low ∨ lineLevel e.lines p = some lvl ∨ lineLevel e.lines p = none ∨
      (p ≠ e.chain.srclkPin ∧ p ≠ e.chain.rclkPin)) : (e.setLine p lvl).chain = e.chain := by
  rw [setLine_noEdge e p lvl h]

/-- A line that was not low has no edge. -/
theorem setLine_chain_of_not_low {e : Env} {p : PinId} (lvl : Level) (h : lineLevel e.lines p ≠ some .low) :
    (e.setLine p lvl).chain = e.chain := by
  rcases setLine_cases e p lvl with ⟨hlow, -, -⟩ | ⟨-, hs⟩
  · exact absurd hlow h
  · rw [hs]

/-- Settles O51: each case is one in which `setLine` has no edge. -/
theorem noRisingClockNoChange : Obligations.NoRisingClockNoChange := by
  intro e p hs hf
  obtain ⟨hchain, hlines⟩ := drawLevel_chain e p
  refine ⟨fun lvl hc h => ?_, fun h => ?_, fun hfresh h => ?_⟩
  · rw [write_configured e p lvl hf hs hc]
    exact setLine_chain_of_noEdge (h.imp_right (.imp_right .inr))
  · have hstart : e.startsLow p (e.drawLevel p).1 = true := by
      simpa [Env.startsLow] using h
    rw [configure_eq_setLine e p hf hs (.inr hstart)]
    exact (setLine_chain_of_noEdge (h.imp_right fun hp => .inr (.inr (hchain ▸ hp)))).trans hchain
  · rw [configure_eq_setLine e p hf hs (.inl (by simp [hfresh]))]
    exact (setLine_chain_of_not_low _ (hlines ▸ h)).trans hchain

theorem setLine_shiftEdge_chain {e : Env} {lvl : Level} (h1 : e.chain.serPin ≠ e.chain.srclkPin)
    (h2 : e.chain.srclkPin ≠ e.chain.rclkPin) (hl : lineLevel e.lines e.chain.srclkPin = some .low)
    (hs : lineLevel e.lines e.chain.serPin = some lvl) :
    (e.setLine e.chain.srclkPin .high).chain = e.chain.shiftIn (bitOf lvl) := by
  rw [setLine_shiftEdge e lvl h1 h2 hl hs]

/-- With no level to sample, the bit that enters is a draw. -/
theorem setLine_shiftEdge_open {e : Env} (h1 : e.chain.serPin ≠ e.chain.srclkPin)
    (h2 : e.chain.srclkPin ≠ e.chain.rclkPin) (hl : lineLevel e.lines e.chain.srclkPin = some .low)
    (hs : lineLevel e.lines e.chain.serPin = none) :
    (e.setLine e.chain.srclkPin .high).chain = e.chain.shiftIn (Config.enteringBit e.draws) ∧
      e.draws < (e.setLine e.chain.srclkPin .high).draws := by
  have h3 : lineLevel (setLineLevel e.lines e.chain.srclkPin .high) e.chain.serPin = none := by
    rw [lineLevel_setLineLevel, if_neg h1, hs]
  unfold Env.setLine
  rw [hl]
  simp [Env.risingEdge, Env.shiftEdge, Env.serialLevel, h1, h3, Chain.shiftIn, h2]

/-- Settles O49: both events come to `setLine`, whose shift edge samples the serial line. -/
theorem shiftEdgeSamplesSerialLine : Obligations.ShiftEdgeSamplesSerialLine := by
  intro e hs hf h1 h2 hl
  have hwrite : e.write e.chain.srclkPin .high = e.setLine e.chain.srclkPin .high :=
    write_configured e _ .high hf hs (configured_of_lineLevel hl)
  rw [hwrite]
  refine ⟨fun lvl hser => ⟨setLine_shiftEdge_chain h1 h2 hl hser, fun hfresh hhigh => ?_⟩,
    setLine_shiftEdge_open h1 h2 hl⟩
  obtain ⟨gs, k, hd⟩ := drawLevel_spec e e.chain.srclkPin
  rw [configure_eq_setLine e _ hf hs (.inl (by simp [hfresh])), hhigh, hd]
  exact setLine_shiftEdge_chain (e := { e with givenLevels := gs, draws := k }) h1 h2 hl hser

theorem setLine_latchEdge_chain {e : Env} (h2 : e.chain.srclkPin ≠ e.chain.rclkPin)
    (hl : lineLevel e.lines e.chain.rclkPin = some .low) :
    (e.setLine e.chain.rclkPin .high).chain = { e.chain with storage := e.chain.stages } := by
  rw [setLine_latchEdge e h2 hl]

/-- Settles O50: both events come to `setLine`, whose latch edge copies the stages. -/
theorem latchEdgeCopiesStages : Obligations.LatchEdgeCopiesStages := by
  intro e hs hf h2 hl
  have hwrite : e.write e.chain.rclkPin .high = e.setLine e.chain.rclkPin .high :=
    write_configured e _ .high hf hs (configured_of_lineLevel hl)
  rw [hwrite]
  refine ⟨setLine_latchEdge_chain h2 hl, fun hfresh hhigh => ?_⟩
  obtain ⟨gs, k, hd⟩ := drawLevel_spec e e.chain.rclkPin
  rw [configure_eq_setLine e _ hf hs (.inl (by simp [hfresh])), hhigh, hd]
  exact setLine_latchEdge_chain (e := { e with givenLevels := gs, draws := k }) h2 hl

end Sys2Proof.Proofs

/-! ## Rejections and steps (60_exceptions.md R200-R208, R225; 30_encoding.md R79) -/

namespace Sys2Proof.Proofs

open Sys2Proof.Machine Sys2Proof.Laws

/-! ### Every step answers (R208) -/

theorem exists_step (s : State) : ∃ t, step s = .next t := by
  unfold step
  rcases s.turn with ⟨i, t⟩ | t
  · exact exec_next i t
  · exact ⟨t, rfl⟩

theorem exists_steps (n : Nat) (s : State) : ∃ t, steps n s = .next t := by
  induction n generalizing s with
  | zero => exact ⟨s, rfl⟩
  | succ n ih =>
    obtain ⟨t, ht⟩ := exists_step s
    rw [steps_succ n s t ht]
    exact ih t

/-- Settles O13. -/
theorem noStepFails : Obligations.NoStepFails :=
  ⟨exists_step, exists_steps⟩

/-! ### The host's moves (R225) -/

theorem disturb_eq (c : Configuration) (p : PinId) (e : Env) :
    e.disturb c p = if e.standing = .vouched ∧ c.hasPin p = true then e.unvouch else e := by
  simp [Env.disturb, Env.keepVouch]

theorem keepVouch_false_standing_eq (e : Env) :
    (e.keepVouch false).standing = if e.standing = .vouched then .failed else e.standing := by
  rcases keepVouch_cases false e with ⟨hv, -, h⟩ | ⟨hv, h⟩ <;> rw [h]
  · rw [if_pos hv, unvouch_standing]
  · rw [if_neg (hv.resolve_right nofun)]

/-- Settles O15: `step_hostMove`, and of the environment `disturb_eq` and `rewire_keeps`. -/
theorem dueHostMovesAreMade : Obligations.DueHostMovesAreMade := by
  intro s a rest hh
  refine ⟨?_, ?_, ?_, ?_, ?_⟩
  · rintro bytes rfl
    exact step_hostMove hh
  · rintro p rfl
    rw [step_hostMove hh, ← disturb_eq]
    rfl
  · rintro p lvl rfl
    rw [step_hostMove hh, ← disturb_eq]
    rfl
  · rintro ser srclk rclk rfl
    have hk := rewire_keeps ser srclk rclk s.env
    obtain ⟨hlines, hfault, -⟩ := keepVouch_lines false
      (Env.redraw { s.env with chain := { s.env.chain with serPin := ser, srclkPin := srclk, rclkPin := rclk } })
    exact ⟨_, step_hostMove hh, hk.serPin, hk.srclkPin, hk.rclkPin, hk.chips, hlines, hfault,
      keepVouch_false_standing_eq _⟩
  · rintro rfl
    exact step_hostMove hh

/-! ### Rejection and acceptance (R203, R205) -/

theorem reject_eq_rejectedWith (st : Status) (rs : Reason) (s : State) : s.reject st rs = s.rejectedWith st rs := rfl

/-- What an acceptance leaves of the trace and the status registers. -/
theorem acceptedIdle_gives_no_reply {s t : State} {i : Instr} (h : AcceptedIdle s i t) :
    t.trace = s.trace ∧ t.lastStatus = s.lastStatus ∧ t.lastReason = s.lastReason := by
  cases h <;> exact ⟨rfl, rfl, rfl⟩

/-- A command presented to a block that is not Busy is rejected, or is accepted and gives no reply yet. -/
theorem exec_rejected_or_accepted {i : Instr} {s t : State} (h : exec i s = .next t) (hb : s.phase ≠ .busy) :
    (∃ st rs, st ≠ .ok ∧ t = s.rejectedWith st rs) ∨
      (t.phase = .busy ∧ t.trace = s.trace ∧ t.lastStatus = s.lastStatus ∧ t.lastReason = s.lastReason) := by
  rcases exec_cases h hb with ⟨st, rs, hst, -, rfl⟩ | ⟨d, sh, l, n, c, -, -, rfl⟩ | ⟨-, ha⟩
  · exact .inl ⟨st, rs, hst, rfl⟩
  · exact .inr ⟨rfl, rfl, rfl, rfl⟩
  · exact .inr ⟨acceptedIdle_phase ha, acceptedIdle_gives_no_reply ha⟩

/-- Settles O16: the two outcomes of `exec_rejected_or_accepted`, and the frame that every command keeps. -/
theorem rejectionChangesOnlyStatusAndTrace : Obligations.RejectionChangesOnlyStatusAndTrace := by
  intro i s t hb h
  obtain ⟨hport, hparams, hhost, -⟩ := exec_surroundings h
  obtain ⟨hlines, hfault, hgiven, -⟩ := envAfterCommand_frame (exec_envAfterCommand h)
  rcases exec_rejected_or_accepted h hb with ⟨st, rs, hst, rfl⟩ | ⟨ht, htrace, hstatus, hreason⟩
  · exact ⟨fun _ => ⟨st, rs, hst, rfl⟩, fun hbusy => absurd hbusy hb⟩
  · exact ⟨fun hn => absurd ht hn,
      fun _ => ⟨htrace, hlines, hfault, hgiven, hport, hhost, hparams, hstatus, hreason⟩⟩

theorem exec_unconstructed {i : Instr} {s : State} (hp : s.phase = .unconstructed) (hi : isInit i = false) :
    exec i s = .next (s.rejectedWith .notInitialized .none) := by
  rw [← reject_eq_rejectedWith]
  cases i with
  | init => cases hi
  | setDataPin | setShiftPin | setLatchPin | setDepth | shiftBits | shiftInt | shiftBool | readState | clear =>
    exact congrArg Host.Outcome.next (whenConstructed_unconstructed _ s hp)

/-- Settles O17. -/
theorem commandsBeforeInitAreRejected : Obligations.CommandsBeforeInitAreRejected :=
  fun _ _ hp hi => exec_unconstructed hp hi

/-! ### The bytes of a rejection (R79, R200, R202) -/

/-- A rejection's reply frame is its two codes. -/
theorem replies_rejectedWith {s u : State} (st : Status) (rs : Reason) (h : u.trace = s.trace) :
    Replies s (.next (u.rejectedWith st rs)) st.code rs.code := by
  refine ⟨_, rfl, rfl, rfl, ?_⟩
  simp [State.replyBytes, State.rejectedWith, h, repliesOf, Reply.frame]

theorem replies_of_rejected {s : State} {o : Host.Outcome State Fault Refusal} {st : Status} {rs : Reason}
    (h : o = .next (s.rejectedWith st rs)) : Replies s o st.code rs.code :=
  h ▸ replies_rejectedWith st rs rfl

/-- Settles O21: each clause is a rejection whose codes are the two bytes. -/
theorem rejectionReplyBytes : Obligations.RejectionReplyBytes := by
  intro s hb
  refine ⟨fun hp i hi => replies_of_rejected (exec_unconstructed hp hi), fun d sh l n => ?_, fun hi => ?_, fun hd => ?_⟩
  · obtain ⟨hdata, hshift, hlatch, hpos, hcap⟩ := initReportsFirstFailingOperand s d sh l n hb
    exact ⟨fun h₁ => replies_of_rejected (hdata h₁), fun h₁ => ⟨fun h₂ => replies_of_rejected (hshift h₁ h₂),
      fun h₂ => ⟨fun h₃ => replies_of_rejected (hlatch h₁ h₂ h₃),
        fun h₃ => ⟨fun h₄ => replies_of_rejected (hpos h₁ h₂ h₃ h₄),
          fun h₄ h₅ => replies_of_rejected (hcap h₁ h₂ h₃ h₄ h₅)⟩⟩⟩⟩
  · refine ⟨fun p hp => ⟨?_, ?_, ?_⟩, fun n hn => ?_, fun n hn hcap => ?_, fun es hes => ?_, fun v hv => ?_⟩
    · exact replies_of_rejected (exec_setDataPin_reject hi hp)
    · exact replies_of_rejected (exec_setShiftPin_reject hi hp)
    · exact replies_of_rejected (exec_setLatchPin_reject hi hp)
    · exact replies_of_rejected (exec_setDepth_reject hi (checkDepth_of_not_positive hn))
    · exact replies_of_rejected (exec_setDepth_reject hi (checkDepth_of_tooLarge hn hcap))
    · obtain ⟨hbits, -⟩ := badPayloadsAreRejectedWhole s hi
      obtain ⟨hbad, -⟩ := hbits es
      exact replies_of_rejected (hbad hes)
    · exact replies_of_rejected (exec_shiftInt_reject hi (encInt_of_neg hv))
  · refine ⟨fun n hp => ?_, fun n hp => ?_⟩
    · rw [step_decoderReject hb hd hp]
      exact replies_rejectedWith .invalidArgument .boolNotBoolean rfl
    · rw [step_decoderReject hb hd hp]
      exact replies_rejectedWith .unknownCommand .none rfl

end Sys2Proof.Proofs

/-! ## The mirror property over every step (60_exceptions.md R232, R233; 43_sequencer.md R167)

`MirrorsAfter` lets other agents move before each action of the list. What they may do (`AgreesOnRoles`) keeps all that the
mirror property speaks of, so an action list is followed action by action: the pin setup of INIT leaves the lines ready for a
transaction (`readyToShift_pinSetup`), and a transaction makes shadow and stages alike (`mirrorsAfter_transaction`). -/

namespace Sys2Proof.Proofs

open Sys2Proof.Machine Sys2Proof.Laws

/-! ### What the moves of other agents keep -/

theorem agreesOnRoles_refl (c : Configuration) (e : Env) : AgreesOnRoles c e e :=
  ⟨rfl, rfl, rfl, rfl, rfl, rfl⟩

theorem agreesOnRoles_trans {c : Configuration} {e e' e'' : Env} (h : AgreesOnRoles c e e')
    (k : AgreesOnRoles c e' e'') : AgreesOnRoles c e e'' where
  chain := k.chain.trans h.chain
  fault := k.fault.trans h.fault
  standing := k.standing.trans h.standing
  data := k.data.trans h.data
  shiftClock := k.shiftClock.trans h.shiftClock
  latchClock := k.latchClock.trans h.latchClock

theorem premisesHold_of_agrees {c : Configuration} {e e' : Env} (h : AgreesOnRoles c e e')
    (hp : premisesHold c e = true) : premisesHold c e' = true := by
  rw [premisesHold_iff] at hp ⊢
  rwa [h.chain, h.fault]

theorem configured_of_agrees {c : Configuration} {e e' : Env} {p : PinId} (h : AgreesOnRoles c e e')
    (hp : p = c.dataPin ∨ p = c.shiftClockPin ∨ p = c.latchClockPin) : e'.configured p = e.configured p := by
  unfold Env.configured
  rcases hp with rfl | rfl | rfl
  · rw [h.data]
  · rw [h.shiftClock]
  · rw [h.latchClock]

theorem readyToShift_of_agrees {c : Configuration} {e e' : Env} (h : AgreesOnRoles c e e') (hr : ReadyToShift c e) :
    ReadyToShift c e' where
  premises := premisesHold_of_agrees h hr.premises
  vouched := h.standing.trans hr.vouched
  data := (configured_of_agrees h (.inl rfl)).trans hr.data
  shiftLow := h.shiftClock.trans hr.shiftLow
  latchLow := h.latchClock.trans hr.latchLow

/-- The mirror property speaks of the configuration, the shadow, and what `AgreesOnRoles` keeps of the environment. -/
theorem mirrored_of_agrees {s t : State} (hc : t.cfg = s.cfg) (hs : t.shadow = s.shadow)
    (he : AgreesOnRoles s.cfg s.env t.env) (h : Mirrored s) : Mirrored t where
  stages := by rw [he.chain, hs]; exact h.stages
  storage := by rw [he.chain]; exact h.storage
  shiftLow := by rw [hc, he.shiftClock]; exact h.shiftLow
  latchLow := by rw [hc, he.latchClock]; exact h.latchLow
  dataConfigured := by rw [hc, he.data]; exact h.dataConfigured

theorem mirrorsAfter_of_agrees {as : List Action} {s t : State} (hc : t.cfg = s.cfg) (hs : t.shadow = s.shadow)
    (he : AgreesOnRoles s.cfg s.env t.env) (h : MirrorsAfter as s) : MirrorsAfter as t := by
  induction as generalizing s t with
  | nil => exact fun hv => mirrored_of_agrees hc hs he (h (he.standing.symm.trans hv))
  | cons a as ih =>
    intro e hte
    have hse : AgreesOnRoles s.cfg s.env e := agreesOnRoles_trans he (hc ▸ hte)
    refine ih ?_ ?_ ?_ (h e hse)
    · simpa using hc
    · cases a <;> simp [hs]
    · cases a <;> exact agreesOnRoles_refl _ _

/-- `MirrorsAfter` reads the configuration, the shadow and the environment. -/
theorem mirrorsAfter_congr {as : List Action} {s t : State} (h : MirrorsAfter as s) (hc : t.cfg = s.cfg)
    (hs : t.shadow = s.shadow) (he : t.env = s.env) : MirrorsAfter as t :=
  mirrorsAfter_of_agrees hc hs (he ▸ agreesOnRoles_refl _ _) h

/-! ### One action -/

section Actions

variable {s : State} {rest : List Action}

/-- `MirrorsAfter` speaks of neither the trace nor the rest of the block. -/
theorem mirrorsAfter_pinWrite {p : PinId} {lvl : Level}
    (h : ∀ e, AgreesOnRoles s.cfg s.env e → MirrorsAfter rest { s with env := e.write p lvl }) :
    MirrorsAfter (.pinWrite p lvl :: rest) s :=
  fun e he => mirrorsAfter_congr (h e he) rfl rfl rfl

theorem mirrorsAfter_advance {b : Bit}
    (h : ∀ e, AgreesOnRoles s.cfg s.env e → MirrorsAfter rest { s with shadow := advance s.shadow b, env := e }) :
    MirrorsAfter (.advance b :: rest) s :=
  fun e he => h e he

/-- Nothing is left to show where the configuration event ends the vouch. -/
theorem mirrorsAfter_pinConfigOut {p : PinId}
    (h : ∀ e, AgreesOnRoles s.cfg s.env e → (e.configure p).standing = .vouched →
      MirrorsAfter rest { s with env := e.configure p }) :
    MirrorsAfter (.pinConfigOut p :: rest) s := by
  intro e he
  by_cases hv : (e.configure p).standing = .vouched
  · exact mirrorsAfter_congr (h e he hv) rfl rfl rfl
  · exact mirrorsAfter_unvouched rest _ hv

end Actions

/-! ### A transaction -/

/-- Writing a configured line low is no edge, so what agrees before agrees after. -/
theorem agreesOnRoles_write_low {c : Configuration} {e e' : Env} {p : PinId} (h : AgreesOnRoles c e e')
    (hv : e.standing = .vouched) (hf : e.fault = none) (hc : e.configured p = true) (hc' : e'.configured p = true) :
    AgreesOnRoles c (e.write p .low) (e'.write p .low) := by
  rw [write_of_vouched .low hv hf hc, write_of_vouched .low (h.standing.trans hv) (h.fault.trans hf) hc',
    setLine_noEdge e p .low (.inl rfl), setLine_noEdge e' p .low (.inl rfl)]
  refine ⟨h.chain, h.fault, h.standing, ?_, ?_, ?_⟩ <;> simp only [lineLevel_setLineLevel]
  · rw [h.data]
  · rw [h.shiftClock]
  · rw [h.latchClock]

/-- A pulse of a clock with the moves of other agents between its two writes. -/
theorem ReadyToShift.agrees_pulse {c : Configuration} {e e' : Env} {p : PinId} (hr : ReadyToShift c e)
    (hp : p = c.shiftClockPin ∨ p = c.latchClockPin) (h : AgreesOnRoles c (e.write p .high) e') :
    AgreesOnRoles c ((e.write p .high).write p .low) (e'.write p .low) := by
  have hc : e.configured p = true := by
    rcases hp with rfl | rfl
    · exact configured_of_lineLevel hr.shiftLow
    · exact configured_of_lineLevel hr.latchLow
  have hc1 : (e.write p .high).configured p = true := (write_keeps e p .high).configured p hc
  refine agreesOnRoles_write_low h ?_ ?_ hc1 ((configured_of_agrees h (.inr hp)).trans hc1)
  · rw [write_of_vouched .high hr.vouched hr.fault hc, setLine_standing, hr.vouched]
  · rw [write_of_vouched .high hr.vouched hr.fault hc, setLine_fault, hr.fault]

/-- One bit of a transaction: whatever other agents do meanwhile, shadow and stages take it. -/
theorem mirrorsAfter_serializeBit {s : State} {b : Bit} {rest : List Action} (hr : ReadyToShift s.cfg s.env)
    (h : ∀ e, ReadyToShift s.cfg e → e.chain = s.env.chain.shiftIn b →
      MirrorsAfter rest { s with shadow := advance s.shadow b, env := e }) :
    MirrorsAfter (serializeBit s.cfg.dataPin s.cfg.shiftClockPin b ++ rest) s := by
  refine mirrorsAfter_pinWrite fun e₀ h₀ => mirrorsAfter_advance fun e₁ h₁ => mirrorsAfter_pinWrite fun e₂ h₂ =>
    mirrorsAfter_pinWrite fun e₃ h₃ => ?_
  have hr₀ : ReadyToShift s.cfg e₀ := readyToShift_of_agrees h₀ hr
  have hdata : AgreesOnRoles s.cfg (e₀.write s.cfg.dataPin (levelOf b)) e₂ := agreesOnRoles_trans h₁ h₂
  have hr₂ : ReadyToShift s.cfg e₂ := readyToShift_of_agrees hdata (hr₀.ready_write_data _)
  rw [hr₀.write_data] at hdata
  have hd : lineLevel e₂.lines s.cfg.dataPin = some (levelOf b) :=
    hdata.data.trans (by rw [lineLevel_setLineLevel, if_pos rfl])
  have hpulse := hr₂.agrees_pulse (.inl rfl) h₃
  refine h _ (readyToShift_of_agrees hpulse (hr₂.ready_pulse (.inl rfl))) ?_
  calc (e₃.write s.cfg.shiftClockPin .low).chain = e₂.chain.shiftIn (bitOf (levelOf b)) :=
        hpulse.chain.trans (hr₂.chain_shiftPulse hd)
    _ = s.env.chain.shiftIn b := by rw [bitOf_levelOf, hdata.chain.trans h₀.chain]

/-- The latch pulse, which makes the storage equal to the stages. -/
theorem mirrorsAfter_latchPulse {s : State} (hr : ReadyToShift s.cfg s.env)
    (hstages : s.env.chain.stages = s.shadow.reverse) : MirrorsAfter (pulse s.cfg.latchClockPin) s := by
  refine mirrorsAfter_pinWrite fun e₀ h₀ => mirrorsAfter_pinWrite fun e₁ h₁ _ => ?_
  have hr₀ : ReadyToShift s.cfg e₀ := readyToShift_of_agrees h₀ hr
  have hpulse := hr₀.agrees_pulse (.inr rfl) h₁
  have hchain := hpulse.chain.trans hr₀.chain_latchPulse
  rw [h₀.chain] at hchain
  refine mirrored_of_ready (readyToShift_of_agrees hpulse (hr₀.ready_pulse (.inr rfl))) ?_ ?_ <;> simp only [hchain]
  exact hstages

/-- A transaction that starts ready ends mirrored if its bits make the shadow and the stages alike. -/
theorem mirrorsAfter_transaction {s : State} {bits : BitSequence} (hr : ReadyToShift s.cfg s.env)
    (hk : ChainSized s.env.chain) (hbits : advanceAll s.env.chain.stages.reverse bits = advanceAll s.shadow bits) :
    MirrorsAfter (s.transaction bits) s := by
  induction bits generalizing s with
  | nil => exact mirrorsAfter_latchPulse hr (by rw [← List.reverse_reverse s.env.chain.stages]; exact congrArg _ hbits)
  | cons b bits ih =>
    rw [State.transaction, txn_cons]
    refine mirrorsAfter_serializeBit hr fun e hre hchain =>
      ih (s := { s with shadow := advance s.shadow b, env := e }) hre (hchain ▸ chainSized_shiftIn _ b hk) ?_
    simp only [hchain, stages_shiftIn hk, List.reverse_reverse]
    exact hbits

/-! ### INIT -/

/-- A configuration event after which the chain is still vouched for leaves the chain as it is, and a clock it configures low. -/
theorem configure_of_vouched {c : Configuration} {e : Env} {p : PinId} (hp : premisesHold c e = true)
    (hv : (e.configure p).standing = .vouched) :
    premisesHold c (e.configure p) = true ∧ (e.configure p).chain = e.chain ∧
      ∀ q, q = c.shiftClockPin ∨ q = c.latchClockPin → q = p ∨ lineLevel e.lines q = some .low →
        lineLevel (e.configure p).lines q = some .low := by
  obtain ⟨-, -, hsrclk, hrclk, -, -, -, hf⟩ := premisesHold_iff.mp hp
  obtain ⟨gs, k, hd⟩ := drawLevel_spec e p
  obtain ⟨-, -, hstart, heq⟩ := configure_vouched hv
  simp only [Env.startsLow, Bool.or_eq_true, Bool.and_eq_true, decide_eq_true_eq] at hstart
  refine ⟨(configure_keepsInv e p).premises hv c hp, ?_, fun q hq hlow => ?_⟩
  · rw [heq, setLine_noEdge _ _ _ (by rw [hd]; exact hstart.imp_right fun h => .inr (.inr h))]
    rw [hd]
  · rw [configure_level e p q hf]
    by_cases hqp : q = p
    · rw [if_pos hqp]
      rcases hstart with h | ⟨h1, h2⟩
      · rw [h]
      · rcases hq with rfl | rfl
        · exact absurd (hqp ▸ hsrclk.symm) h1
        · exact absurd (hqp ▸ hrclk.symm) h2
    · rw [if_neg hqp]
      exact hlow.resolve_left hqp

/-- The pin setup, with the moves of other agents between its events: what each does that the vouch outlives stays done. -/
theorem readyToShift_pinSetup {c : Configuration} {e e₀ e₁ e₂ : Env} (hp : premisesHold c e = true)
    (h₀ : AgreesOnRoles c e e₀) (v₀ : (e₀.configure c.dataPin).standing = .vouched)
    (h₁ : AgreesOnRoles c (e₀.configure c.dataPin) e₁) (v₁ : (e₁.configure c.shiftClockPin).standing = .vouched)
    (h₂ : AgreesOnRoles c (e₁.configure c.shiftClockPin) e₂) (v₂ : (e₂.configure c.latchClockPin).standing = .vouched) :
    ReadyToShift c (e₂.configure c.latchClockPin) ∧ (e₂.configure c.latchClockPin).chain = e.chain := by
  have hp₀ := premisesHold_of_agrees h₀ hp
  obtain ⟨-, -, -, -, -, -, -, hf₀⟩ := premisesHold_iff.mp hp₀
  obtain ⟨hp₁, hk₁, -⟩ := configure_of_vouched hp₀ v₀
  obtain ⟨hp₂, hk₂, hlow₂⟩ := configure_of_vouched (premisesHold_of_agrees h₁ hp₁) v₁
  obtain ⟨hp₃, hk₃, hlow₃⟩ := configure_of_vouched (premisesHold_of_agrees h₂ hp₂) v₂
  have hdata₁ : e₁.configured c.dataPin = true :=
    (configured_of_agrees h₁ (.inl rfl)).trans (configured_configure c.dataPin hf₀)
  have hdata₂ : e₂.configured c.dataPin = true :=
    (configured_of_agrees h₂ (.inl rfl)).trans ((configure_keeps e₁ _).configured _ hdata₁)
  have hshift₂ : lineLevel e₂.lines c.shiftClockPin = some .low := h₂.shiftClock.trans (hlow₂ _ (.inl rfl) (.inl rfl))
  refine ⟨⟨hp₃, v₂, (configure_keeps e₂ _).configured _ hdata₂, hlow₃ _ (.inl rfl) (.inr hshift₂),
    hlow₃ _ (.inr rfl) (.inl rfl)⟩, ?_⟩
  rw [hk₃, h₂.chain, hk₂, h₁.chain, hk₁, h₀.chain]

theorem mirrorsAfter_pinSetup {s : State} {rest : List Action} (hp : premisesHold s.cfg s.env = true)
    (h : ∀ e, ReadyToShift s.cfg e → e.chain = s.env.chain → MirrorsAfter rest { s with env := e }) :
    MirrorsAfter (pinSetup s.cfg ++ rest) s := by
  refine mirrorsAfter_pinConfigOut fun e₀ h₀ v₀ => mirrorsAfter_pinConfigOut fun e₁ h₁ v₁ =>
    mirrorsAfter_pinConfigOut fun e₂ h₂ v₂ => ?_
  obtain ⟨hready, hchain⟩ := readyToShift_pinSetup hp h₀ v₀ h₁ v₁ h₂ v₂
  exact h _ hready hchain

/-! ### Commands that set the whole chain -/

/-- The CLEAR of a whole chain, whatever it holds: as many zeros as either register has bits. -/
theorem mirrorsAfter_transaction_zeros {s : State} (hr : ReadyToShift s.cfg s.env) (hk : ChainSized s.env.chain)
    (hsh : s.shadow.length = 8 * s.cfg.chainDepth) :
    MirrorsAfter (s.transaction (zeros (capacity s.cfg.chainDepth))) s := by
  obtain ⟨hdepth, -⟩ := premisesHold_iff.mp hr.premises
  refine mirrorsAfter_transaction hr hk ?_
  obtain ⟨hpos, hstages, -⟩ := hk
  rw [capacity_eq, advanceAll_zeros_of_length (by omega) hsh,
    advanceAll_zeros_of_length (by omega) (by rw [List.length_reverse, hstages, hdepth])]

theorem willMirror_construct {s : State} (c : Configuration) (hk : ChainSized s.env.chain) :
    WillMirror (s.construct c) := by
  by_cases hv : (s.construct c).env.standing = .vouched
  · obtain ⟨hp, heq⟩ := vouchIf_vouched hv
    have hchain : (s.construct c).env.chain = s.env.chain := by rw [construct_env, heq]
    refine mirrorsAfter_pinSetup (s := s.construct c) ?_ fun e hr he => ?_
    · rw [construct_env, heq]
      exact hp
    · exact mirrorsAfter_transaction_zeros (s := { s.construct c with env := e }) hr (by rwa [he, hchain])
        (length_zeros _)
  · exact mirrorsAfter_unvouched _ _ hv

theorem clearReady_of_mirrored {s : State} (h : Mirrored s) : clearReady s.cfg s.env = true := by
  simp [clearReady, h.shiftLow, h.latchLow, h.dataConfigured]

/-- A CLEAR that is accepted with the premises holding is vouched for if the chain was, or if the lines are ready. -/
theorem willMirror_startClear {s : State} (hk : ChainSized s.env.chain) (hsh : s.shadow.length = 8 * s.cfg.chainDepth)
    (hready : s.env.standing = .vouched → premisesHold s.cfg s.env = true → clearReady s.cfg s.env = true) :
    WillMirror s.startClear := by
  by_cases hv : s.startClear.env.standing = .vouched
  · obtain ⟨hok, heq⟩ := vouchIf_vouched hv
    simp only [Bool.and_eq_true, Bool.or_eq_true, decide_eq_true_eq] at hok
    obtain ⟨hp, hor⟩ := hok
    have hr := readyToShift_revouch hp (hor.elim (fun h => hready h hp) id)
    refine mirrorsAfter_transaction_zeros (s := s.startClear) hr ?_ hsh
    rw [startClear_env, Env.revouch, heq]
    exact hk
  · exact mirrorsAfter_unvouched _ _ hv

/-! ### The other commands -/

/-- A move that leaves the action list and agrees on the roles is one of those `MirrorsAfter` speaks of. -/
theorem willMirror_of_agrees {s t : State} (h : WillMirror s) (hseq : t.seq = s.seq) (hc : t.cfg = s.cfg)
    (hs : t.shadow = s.shadow) (he : AgreesOnRoles s.cfg s.env t.env) : WillMirror t := by
  unfold WillMirror
  rw [hseq]
  exact mirrorsAfter_of_agrees hc hs he h

theorem willMirror_congr {s t : State} (h : WillMirror s) (hseq : t.seq = s.seq) (hc : t.cfg = s.cfg)
    (hs : t.shadow = s.shadow) (he : t.env = s.env) : WillMirror t :=
  willMirror_of_agrees h hseq hc hs (he ▸ agreesOnRoles_refl _ _)

theorem willMirror_schedule {s : State} (h : WillMirror s) (port : List Byte) (host : List HostMove) :
    WillMirror { s with port := port, host := host } :=
  willMirror_congr h rfl rfl rfl rfl

/-- At a command boundary there is nothing left to perform. -/
theorem mirrored_of_boundary {s : State} (h : WillMirror s) (hs : s.seq = []) (hv : s.env.standing = .vouched) :
    Mirrored s := by
  unfold WillMirror at h
  rw [hs] at h
  exact h hv

/-- The premises name the whole configuration. -/
theorem premisesHold_unique {c c' : Configuration} {e : Env} (h : premisesHold c e = true)
    (h' : premisesHold c' e = true) : c = c' := by
  obtain ⟨hn, hd, hs, hl, -⟩ := premisesHold_iff.mp h
  obtain ⟨hn', hd', hs', hl', -⟩ := premisesHold_iff.mp h'
  cases c
  cases c'
  simp_all

section Idle

variable {s : State} (hinv : Inv s) (h : WillMirror s) (hs : s.seq = [])
include hinv h hs

/-- A configuration write that keeps the vouch writes what was there. -/
theorem willMirror_replaceConfig (c : Configuration) : WillMirror (s.replaceConfig c) := by
  by_cases hv : (s.replaceConfig c).env.standing = .vouched
  · obtain ⟨hp, hvs, heq⟩ := keepVouch_vouched hv
    have hc : c = s.cfg := premisesHold_unique hp (mirrorPremises_iff.mp (hinv.vouched hvs))
    exact willMirror_congr h hs.symm hc rfl heq
  · exact mirrorsAfter_unvouched _ _ hv

theorem willMirror_resize (n : Nat) : WillMirror (s.resize n) := by
  refine willMirror_startClear hinv.chain (length_zeros _) fun hv hp => ?_
  have hvouched : s.env.standing = .vouched := hv
  have hc : { s.cfg with chainDepth := n } = s.cfg :=
    premisesHold_unique hp (mirrorPremises_iff.mp (hinv.vouched hvouched))
  simp only [hc]
  exact clearReady_of_mirrored (mirrored_of_boundary h hs hvouched)

/-- Where the chain mirrors the shadow, a payload enters both alike. -/
theorem willMirror_startShift (bits : BitSequence) : WillMirror (s.startShift bits) := by
  by_cases hv : s.env.standing = .vouched
  · have hm := mirrored_of_boundary h hs hv
    have hp := mirrorPremises_iff.mp (hinv.vouched hv)
    refine mirrorsAfter_transaction (s := s.startShift bits)
      ⟨hp, hv, hm.dataConfigured, hm.shiftLow, hm.latchLow⟩ hinv.chain ?_
    rw [startShift_env, startShift_shadow, hm.stages, List.reverse_reverse]
  · exact mirrorsAfter_unvouched _ _ hv

theorem willMirror_acceptedIdle {i : Instr} {t : State} (hi : s.phase = .idle) (ha : AcceptedIdle s i t) :
    WillMirror t := by
  cases ha with
  | data | shiftClock | latchClock => exact willMirror_replaceConfig hinv h hs _
  | depth n => exact willMirror_resize hinv h hs n
  | shift i bits => exact willMirror_startShift hinv h hs bits
  | clear =>
    exact willMirror_startClear hinv.chain (length_shadow_of_idle hinv hi)
      fun hv _ => clearReady_of_mirrored (mirrored_of_boundary h hs hv)
  | read => exact willMirror_congr h hs.symm rfl rfl rfl

end Idle

theorem willMirror_exec {i : Instr} {s t : State} (hinv : Inv s) (h : WillMirror s) (hb : s.phase ≠ .busy)
    (hx : exec i s = .next t) : WillMirror t := by
  obtain ⟨hs, -⟩ := hinv.sequencer.1 hb
  rcases exec_cases hx hb with ⟨st, rs, -, -, rfl⟩ | ⟨d, sh, l, n, c, -, -, rfl⟩ | ⟨hi, ha⟩
  · exact willMirror_congr h rfl rfl rfl rfl
  · exact willMirror_construct c hinv.chain
  · exact willMirror_acceptedIdle hinv h hs hi ha

/-! ### The host's moves -/

theorem hasPin_eq_false_iff {c : Configuration} {p : PinId} :
    c.hasPin p = false ↔ p ≠ c.dataPin ∧ p ≠ c.shiftClockPin ∧ p ≠ c.latchClockPin := by
  simp [Configuration.hasPin, and_assoc]

/-- An act on a pin that has no role is no edge of a clock and changes no line of a role. -/
theorem agreesOnRoles_setLine {c : Configuration} {e : Env} {p : PinId} (lvl : Level) (hp : premisesHold c e = true)
    (hn : c.hasPin p = false) : AgreesOnRoles c e (e.setLine p lvl) := by
  obtain ⟨hd, hs, hl⟩ := hasPin_eq_false_iff.mp hn
  obtain ⟨-, -, hsrclk, hrclk, -⟩ := premisesHold_iff.mp hp
  rw [setLine_noEdge e p lvl (.inr (.inr (.inr ⟨hsrclk ▸ hs, hrclk ▸ hl⟩)))]
  refine ⟨rfl, rfl, rfl, ?_, ?_, ?_⟩
  · exact (lineLevel_setLineLevel _ _ _ _).trans (if_neg (Ne.symm hd))
  · exact (lineLevel_setLineLevel _ _ _ _).trans (if_neg (Ne.symm hs))
  · exact (lineLevel_setLineLevel _ _ _ _).trans (if_neg (Ne.symm hl))

theorem agreesOnRoles_drawLevel (c : Configuration) (e : Env) (p : PinId) : AgreesOnRoles c e (e.drawLevel p).2 := by
  obtain ⟨gs, k, hd⟩ := drawLevel_spec e p
  rw [hd]
  exact ⟨rfl, rfl, rfl, rfl, rfl, rfl⟩

theorem agreesOnRoles_configure {c : Configuration} {e : Env} {p : PinId}
    (hp : e.standing = .vouched → premisesHold c e = true)
    (hv : ((e.configure p).disturb c p).standing = .vouched) : AgreesOnRoles c e ((e.configure p).disturb c p) := by
  obtain ⟨hn, heq⟩ := disturb_vouched hv
  rw [heq] at hv ⊢
  obtain ⟨hvouched, -, -, hset⟩ := configure_vouched hv
  have hdraw := agreesOnRoles_drawLevel c e p
  rw [hset]
  exact agreesOnRoles_trans hdraw (agreesOnRoles_setLine _ (premisesHold_of_agrees hdraw (hp hvouched)) hn)

theorem agreesOnRoles_write {c : Configuration} {e : Env} {p : PinId} {lvl : Level}
    (hp : e.standing = .vouched → premisesHold c e = true)
    (hv : ((e.write p lvl).disturb c p).standing = .vouched) : AgreesOnRoles c e ((e.write p lvl).disturb c p) := by
  obtain ⟨hn, heq⟩ := disturb_vouched hv
  rw [heq] at hv ⊢
  obtain ⟨hvouched, -, -, hset⟩ := write_vouched hv
  rw [hset]
  exact agreesOnRoles_setLine lvl (hp hvouched) hn

/-- What the vouch outlives of the host's acts is covered by the moves of other agents that `MirrorsAfter` speaks of. -/
theorem willMirror_hostAct {s : State} (hinv : Inv s) (h : WillMirror s) (act : HostAct) : WillMirror (s.hostAct act) := by
  have hp (h : s.env.standing = .vouched) : premisesHold s.cfg s.env = true := mirrorPremises_iff.mp (hinv.vouched h)
  by_cases hv : (s.hostAct act).env.standing = .vouched
  · cases act with
    | present bytes => exact willMirror_congr h rfl rfl rfl rfl
    | configurePin p => exact willMirror_of_agrees h rfl rfl rfl (agreesOnRoles_configure hp hv)
    | writePin p lvl => exact willMirror_of_agrees h rfl rfl rfl (agreesOnRoles_write hp hv)
    | rewire ser srclk rclk => exact absurd hv (keepVouch_false_standing _)
    | assertReset => exact absurd hv (afterReset_standing_ne_vouched hinv)
  · exact mirrorsAfter_unvouched _ _ hv

/-! ### Every step -/

theorem willMirror_sequencerStep {s : State} (h : WillMirror s) : WillMirror s.sequencerStep := by
  rcases sequencerStep_cases s with ⟨a, rest, hs, heq⟩ | ⟨r, hs, -, heq⟩ | ⟨hs, -, heq⟩ <;> rw [heq]
  · unfold WillMirror at h ⊢
    rw [hs] at h
    rw [perform_seq]
    cases a <;> exact mirrorsAfter_congr (h s.env (agreesOnRoles_refl _ _)) rfl rfl rfl
  · exact willMirror_congr h rfl rfl rfl rfl
  · exact willMirror_congr h rfl rfl rfl rfl

/-- Settles O60, by what a step can do. -/
theorem stepKeepsTheMirror : Obligations.StepKeepsTheMirror := by
  refine ⟨fun s t hinv h hstep => ?_, fun s hs h hv => ?_⟩
  · rcases step_cases hstep with
      ⟨act, rest, -, rfl⟩ | ⟨-, -, rfl⟩ | ⟨-, hb, i, n, -, hx⟩ | ⟨-, -, r, n, -, rfl⟩ | ⟨-, -, -, rfl⟩
    · exact willMirror_hostAct (inv_schedule hinv s.port rest) (willMirror_schedule h s.port rest) act
    · exact willMirror_sequencerStep (willMirror_schedule h s.port _)
    · exact willMirror_exec (inv_schedule hinv (s.port.drop n) (passTurn s.host)) (willMirror_schedule h _ _) hb hx
    · cases r <;> exact willMirror_congr h rfl rfl rfl rfl
    · exact willMirror_congr h rfl rfl rfl rfl
  · have hm := mirrored_of_boundary h hs hv
    exact ⟨hm.stages, hm.storage⟩

end Sys2Proof.Proofs

/-! ## INIT and the vouch under the premises (60_exceptions.md R232; 70_reset_and_hazards.md R243) -/

namespace Sys2Proof.Proofs

open Sys2Proof.Machine Sys2Proof.Laws

/-! ### What keeps the vouch -/

/-- A configuration event keeps the vouch if it draws no clock high. -/
theorem configure_keeps_vouch {e : Env} {p : PinId} (hv : e.standing = .vouched) (hf : e.fault = none)
    (hlow : e.startsLow p (e.drawLevel p).1 = true) : (e.configure p).standing = .vouched := by
  rw [configure_eq_setLine e p hf (by simp [hv]) (.inr hlow), setLine_standing, drawLevel_standing, hv]

/-- A write keeps the vouch if it raises no fault. -/
theorem write_keeps_vouch {e : Env} {p : PinId} {lvl : Level} (hv : e.standing = .vouched)
    (hf : (e.write p lvl).fault = none) : (e.write p lvl).standing = .vouched := by
  rw [write_of_vouched lvl hv (fault_none_of_keeps (write_keeps e p lvl) hf) (configured_of_write_fault hf),
    setLine_standing, hv]

theorem startsLow_of_low (e : Env) (p : PinId) : e.startsLow p .low = true := rfl

theorem startsLow_of_not_clock {c : Configuration} {e : Env} {p : PinId} (lvl : Level) (hp : premisesHold c e = true)
    (hs : p ≠ c.shiftClockPin) (hl : p ≠ c.latchClockPin) : e.startsLow p lvl = true := by
  obtain ⟨-, -, hsrclk, hrclk, -⟩ := premisesHold_iff.mp hp
  simp [Env.startsLow, hsrclk, hrclk, hs, hl]

theorem disturb_of_not_role {c : Configuration} {p : PinId} (e : Env) (h : c.hasPin p = false) : e.disturb c p = e := by
  rw [Env.disturb, h]
  exact keepVouch_true e

/-- The premises speak of nothing that settling the vouch changes. -/
theorem premisesHold_of_vouchIf {c : Configuration} {ok : Bool} {e : Env} (h : premisesHold c (e.vouchIf ok) = true) :
    premisesHold c e = true := by
  cases ok <;> exact h

theorem premisesHold_of_keepVouch {c : Configuration} {ok : Bool} {e : Env} (h : premisesHold c (e.keepVouch ok) = true) :
    premisesHold c e = true := by
  rcases keepVouch_cases ok e with ⟨-, -, hk⟩ | ⟨-, hk⟩ <;> rw [hk] at h <;> exact h

theorem revouch_standing {c : Configuration} {e : Env} (hp : premisesHold c e = true) (hv : e.standing = .vouched) :
    (e.revouch c).standing = .vouched := by
  simp [Env.revouch, Env.vouchIf, hp, hv]

/-! ### As long as the premises hold (R232) -/

section Vouched

variable {s : State} (hv : s.env.standing = .vouched)
include hv

theorem acceptedIdle_keeps_vouch {i : Instr} {t : State} (ha : AcceptedIdle s i t) (ht : premisesHold t.cfg t.env = true) :
    t.env.standing = .vouched := by
  cases ha with
  | data | shiftClock | latchClock =>
    have hp := premisesHold_of_keepVouch ht
    rw [replaceConfig_cfg] at hp
    rw [replaceConfig_env, hp, keepVouch_true, hv]
  | depth | clear => exact revouch_standing (premisesHold_of_vouchIf ht) hv
  | shift | read => exact hv

theorem exec_keeps_vouch {i : Instr} {t : State} (hx : exec i s = .next t) (ht : premisesHold t.cfg t.env = true) :
    t.env.standing = .vouched := by
  rcases exec_inversion hx with rfl | ⟨st, rs, rfl⟩ | ⟨d, sh, l, n, c, -, rfl⟩ | ha
  · exact hv
  · exact hv
  · have hp := premisesHold_of_vouchIf ht
    rw [construct_cfg] at hp
    rw [construct_env, hp]
    rfl
  · exact acceptedIdle_keeps_vouch hv ha ht

/-- An act of the host that spares the roles and raises no fault. -/
theorem hostAct_keeps_vouch {act : HostAct} {rest : List HostMove} (hp : premisesHold s.cfg s.env = true)
    (hh : s.host = { after := 0, act := act } :: rest) (hspare : HostSparesRoles s)
    (hf : (State.hostAct { s with host := rest } act).env.fault = none) :
    (State.hostAct { s with host := rest } act).env.standing = .vouched := by
  obtain ⟨-, -, -, -, -, -, -, hfault⟩ := premisesHold_iff.mp hp
  have hact := hspare act rest hh
  cases act with
  | present bytes => exact hv
  | configurePin p =>
    obtain ⟨-, hs, hl⟩ := hasPin_eq_false_iff.mp hact
    refine (congrArg Env.standing (disturb_of_not_role _ hact)).trans ?_
    exact configure_keeps_vouch hv hfault (startsLow_of_not_clock _ hp hs hl)
  | writePin p lvl =>
    refine (congrArg Env.standing (disturb_of_not_role _ hact)).trans ?_
    exact write_keeps_vouch hv (fault_none_of_keeps (disturb_keeps s.cfg p _) hf)
  | rewire ser srclk rclk => exact hact.elim
  | assertReset => exact hact.elim

/-- An action that configures no clock high and raises no fault. -/
theorem perform_keeps_vouch {a : Action} (hp : premisesHold s.cfg s.env = true)
    (hlow : ∀ p, a = .pinConfigOut p → p = s.cfg.shiftClockPin ∨ p = s.cfg.latchClockPin →
      lineLevel (s.perform a).env.lines p = some .low)
    (hf : (s.perform a).env.fault = none) : (s.perform a).env.standing = .vouched := by
  obtain ⟨-, -, -, -, -, -, -, hfault⟩ := premisesHold_iff.mp hp
  cases a with
  | advance b => exact hv
  | pinWrite p lvl => exact write_keeps_vouch hv hf
  | pinConfigOut p =>
    refine configure_keeps_vouch hv hfault ?_
    by_cases hclock : p = s.cfg.shiftClockPin ∨ p = s.cfg.latchClockPin
    · have hline := hlow p rfl hclock
      rw [perform_pinConfigOut, configure_level _ _ _ hfault, if_pos rfl, Option.some.injEq] at hline
      rw [hline]
      exact startsLow_of_low _ p
    · obtain ⟨hs, hl⟩ := not_or.mp hclock
      exact startsLow_of_not_clock _ hp hs hl

end Vouched

/-- Settles O59, by what a step can do. -/
theorem premisesKeepTheVouch : Obligations.PremisesKeepTheVouch := by
  intro s t hstep hv hps hpt hspare hlow
  have hp := mirrorPremises_iff.mp hps
  rcases step_cases hstep with
    ⟨act, rest, hh, rfl⟩ | ⟨hd, hb, rfl⟩ | ⟨-, -, i, n, -, hx⟩ | ⟨-, -, r, n, -, rfl⟩ | ⟨-, -, -, rfl⟩
  · exact hostAct_keeps_vouch hv hp hh hspare hpt.noFault
  · rcases sequencerStep_cases { s with host := passTurn s.host } with ⟨a, rest, hs, h⟩ | ⟨r, -, -, h⟩ | ⟨-, -, h⟩
    · rw [h] at hlow hpt ⊢
      exact perform_keeps_vouch (s := { s with seq := rest, host := passTurn s.host }) hv hp
        (fun p ha hclock => hlow p rest hb hd (ha ▸ hs) hclock) hpt.noFault
    · rw [h]
      exact hv
    · rw [h]
      exact hv
  · exact exec_keeps_vouch (by exact hv) hx (mirrorPremises_iff.mp hpt)
  · rw [decoderReject_env]
    exact hv
  · exact hv

/-! ### INIT (R243) -/

/-- What the pin setup does to the environment. -/
def setUpPins (c : Configuration) (e : Env) : Env :=
  ((e.configure c.dataPin).configure c.shiftClockPin).configure c.latchClockPin

theorem performAll_pinSetup_env (c : Configuration) (s : State) :
    (s.performAll (pinSetup c)).env = setUpPins c s.env := by
  simp [pinSetup, setUpPins]

/-- One configuration event with a given level that is no high level of a clock. -/
theorem configure_of_given {c : Configuration} {e : Env} {p : PinId} {lvl : Level} {rest : List Level}
    (hp : premisesHold c e = true) (hv : e.standing = .vouched) (hg : e.givenLevels = lvl :: rest)
    (hlow : e.startsLow p lvl = true) :
    (e.configure p).standing = .vouched ∧ premisesHold c (e.configure p) = true ∧ (e.configure p).givenLevels = rest := by
  obtain ⟨-, -, -, -, -, -, -, hf⟩ := premisesHold_iff.mp hp
  obtain ⟨hlvl, hrest⟩ := configure_given e p lvl rest hg
  have hvouched := configure_keeps_vouch hv hf (hlvl.symm ▸ hlow)
  exact ⟨hvouched, (configure_keepsInv e p).premises hvouched c hp, hrest⟩

/-- The pin setup with both clocks drawn low: no event ends the vouch. -/
theorem readyToShift_setUpPins {c : Configuration} {e : Env} {lvl : Level} {rest : List Level}
    (hp : premisesHold c e = true) (hv : e.standing = .vouched) (hg : e.givenLevels = lvl :: .low :: .low :: rest) :
    ReadyToShift c (setUpPins c e) ∧ (setUpPins c e).chain = e.chain := by
  obtain ⟨-, -, -, -, hds, hdl, -, -⟩ := premisesHold_iff.mp hp
  obtain ⟨v₁, hp₁, hg₁⟩ := configure_of_given hp hv hg (startsLow_of_not_clock lvl hp hds hdl)
  obtain ⟨v₂, hp₂, hg₂⟩ := configure_of_given hp₁ v₁ hg₁ (startsLow_of_low _ c.shiftClockPin)
  obtain ⟨v₃, -, -⟩ := configure_of_given hp₂ v₂ hg₂ (startsLow_of_low _ c.latchClockPin)
  have hself (e : Env) : AgreesOnRoles c e e := agreesOnRoles_refl c e
  exact readyToShift_pinSetup hp (hself _) v₁ (hself _) v₂ (hself _) v₃

/-- Performing INIT's action list under the premises sets stages, storage and shadow to zeros. -/
theorem construct_sets_zeros {s : State} {c : Configuration} {lvl : Level} {rest : List Level} (hk : ChainSized s.env.chain)
    (hc : 1 ≤ c.chainDepth) (hp : premisesHold c s.env = true) (hg : s.env.givenLevels = lvl :: .low :: .low :: rest) :
    let t := (s.construct c).performAll (s.construct c).seq
    ReadyToShift c t.env ∧ t.shadow = zeros (8 * c.chainDepth) ∧ t.env.chain.stages = zeros (8 * c.chainDepth) ∧
      t.env.chain.storage = zeros (8 * c.chainDepth) := by
  have henv : (s.construct c).env = { s.env with standing := .vouched } := by
    rw [construct_env, hp]
    rfl
  obtain ⟨hready, hchain⟩ := readyToShift_setUpPins (c := c) (e := { s.env with standing := .vouched }) hp rfl hg
  rw [← henv, ← performAll_pinSetup_env] at hready hchain
  obtain ⟨hlast, hall⟩ := chain_transaction (s := (s.construct c).performAll (pinSetup c))
    (by rwa [performAll_cfg]) (by rw [hchain, henv]; exact hk) (zeros (8 * c.chainDepth))
  obtain ⟨hdepth, -⟩ := premisesHold_iff.mp hp
  obtain ⟨hpos, hstages, -⟩ := hk
  rw [State.transaction, performAll_cfg, ← performAll_append] at hlast hall
  rw [hchain, henv] at hall
  rw [advanceAll_zeros_of_length (by omega) (by rw [List.length_reverse, hstages, hdepth]), reverse_zeros] at hall
  exact ⟨hlast, construct_performAll_shadow hc s, congrArg Chain.stages hall, congrArg Chain.storage hall⟩

/-- Settles O57: one step accepts, and the action list sets up the pins and then clears the whole chain. -/
theorem initEstablishesTheMirror : Obligations.InitEstablishesTheMirror := by
  intro st d s l n len lvl rest hinv hb hh hdec hd hs hl hn hcap hchips hser hsrclk hrclk hds hdl hsl hf hg
  have hrun := steps_accepted (step_init_accept hb hh hdec hd hs hl hn hcap) rfl hh rfl
  rw [length_construct_seq] at hrun
  have hp : premisesHold { dataPin := d, shiftClockPin := s, latchClockPin := l, chainDepth := n } st.env = true :=
    premisesHold_iff.mpr ⟨hchips, hser, hsrclk, hrclk, hds, hdl, hsl, hf⟩
  obtain ⟨hready, hshadow, hstages, hstorage⟩ :=
    construct_sets_zeros (s := { st with port := st.port.drop len }) hinv.chain hn hp hg
  refine ⟨_, hrun, rfl, mirrorPremises_iff.mpr ?_, mirrored_of_ready ?_ ?_ ?_, hready.vouched, hstages, hstorage⟩
  · simpa using hready.premises
  · simpa using hready
  · exact hstages.trans (by rw [afterReply_shadow, hshadow, reverse_zeros])
  · exact hstorage.trans hstages.symm

end Sys2Proof.Proofs

/-! ## Hazards: counts, outputs, the end of a run (70_reset_and_hazards.md R245, R250, R252)

Every accepted command but the role setters and READ_STATE queues one transaction, INIT after the pin setup, so its counts are
those of its payload (`length_txn`, `length_eventsOf_txn`). During the shift phase the block writes the data line and the shift
clock alone, and neither is the latch clock (`setLine_storage`). A finished run has nothing at the port and nobody to put
something there, so the block waits (`step_finished`) or a move of the host leaves it finished (`finished_hostAct`). -/

namespace Sys2Proof.Proofs

open Sys2Proof.Machine Sys2Proof.Laws

/-! ### What an accepted command queues (R252) -/

theorem length_startShift_seq (bits : BitSequence) (s : State) : (s.startShift bits).seq.length = 4 * bits.length + 2 :=
  length_txn _ _ _ bits

theorem length_eventsOf_startShift_seq (bits : BitSequence) (s : State) :
    (eventsOf (s.startShift bits).seq).length = 3 * bits.length + 2 :=
  length_eventsOf_txn _ _ _ bits

theorem length_eventsOf_construct_seq (c : Configuration) (s : State) :
    (eventsOf (s.construct c).seq).length = 24 * c.chainDepth + 5 := by
  rw [eventsOf_construct_seq, List.length_append, length_clearEvents]
  simp only [List.length_cons, List.length_nil]
  omega

theorem length_eventsOf_resize_seq (n : Nat) (s : State) : (eventsOf (s.resize n).seq).length = 24 * n + 2 := by
  rw [eventsOf_resize_seq, length_clearEvents]
  omega

theorem length_eventsOf_startClear_seq (s : State) :
    (eventsOf s.startClear.seq).length = 24 * s.cfg.chainDepth + 2 := by
  rw [startClear_seq, State.transaction, eventsOf_txn_zeros, length_clearEvents, capacity_eq]
  omega

theorem length_of_encBits {es : List Elem} {bits : BitSequence} (h : encBits es = .ok bits) : bits.length = es.length := by
  obtain ⟨hok, -⟩ := encBitsLaw es
  exact (hok bits h).1

theorem length_of_encBool {b : Bool} {bits : BitSequence} (h : encBool b = .ok bits) : bits.length = 1 := by
  rw [← Except.ok.inj h]
  cases b <;> rfl

/-- Settles O38: a rejected command is not Busy, and each accepted one queues its own list. -/
theorem actionCounts : Obligations.ActionCounts := by
  intro i s t hb hx ht
  rcases exec_cases hx hb with ⟨st, rs, -, -, rfl⟩ | ⟨d, sh, l, n, c, rfl, hc, rfl⟩ | ⟨-, ha⟩
  · exact absurd ht hb
  · obtain ⟨-, -, -, hdepth, -⟩ := checkInit_ok.mp hc
    obtain ⟨rfl, -⟩ := checkDepth_ok.mp hdepth
    exact ⟨by push_cast [length_construct_seq]; rfl, by push_cast [length_eventsOf_construct_seq]; rfl⟩
  · cases ha with
    | data | shiftClock | latchClock | read => rfl
    | depth n => exact ⟨by push_cast [length_resize_seq]; rfl, by push_cast [length_eventsOf_resize_seq]; rfl⟩
    | clear => exact ⟨length_startClear_seq s, length_eventsOf_startClear_seq s⟩
    | shift i bits h =>
      have hlen := length_startShift_seq bits s
      have hevents := length_eventsOf_startShift_seq bits s
      cases i with
      | shiftBits es => rw [length_of_encBits h] at hlen hevents; exact ⟨hlen, hevents⟩
      | shiftInt v => exact ⟨bits, h, hlen, hevents⟩
      | shiftBool b => rw [length_of_encBool h] at hlen hevents; exact ⟨hlen, hevents⟩
      | init | setDataPin | setShiftPin | setLatchPin | setDepth | readState | clear => exact h.elim

/-! ### The outputs during the shift phase (R250) -/

/-- Only a rising latch clock changes the storage (R229, R230). -/
theorem setLine_storage {e : Env} {p : PinId} (lvl : Level) (h : p ≠ e.chain.rclkPin) :
    (e.setLine p lvl).chain.storage = e.chain.storage := by
  rcases setLine_cases e p lvl with ⟨-, -, hs⟩ | ⟨-, hs⟩ <;> rw [hs]
  by_cases hp : p = e.chain.srclkPin
  · obtain ⟨b, k, hedge, -⟩ := shiftEdge_spec { e with lines := setLineLevel e.lines p lvl }
    simp only [Env.risingEdge, if_pos hp, hedge, Chain.shiftIn, if_neg h]
  · simp only [Env.risingEdge, if_neg hp, if_neg h]

/-- The premises of R232 are in force and the two lines of the shift phase are configured. Unlike `ReadyToShift` this holds
between the writes of a pulse too. -/
structure Shifting (c : Configuration) (e : Env) : Prop where
  premises : premisesHold c e = true
  vouched : e.standing = .vouched
  data : e.configured c.dataPin = true
  shiftClock : e.configured c.shiftClockPin = true

/-- A write to the data line or the shift clock. -/
theorem Shifting.write {c : Configuration} {e : Env} {p : PinId} (h : Shifting c e) (lvl : Level)
    (hp : p = c.dataPin ∨ p = c.shiftClockPin) :
    Shifting c (e.write p lvl) ∧ (e.write p lvl).chain.storage = e.chain.storage := by
  obtain ⟨-, -, -, hrclk, -, hdl, hsl, hf⟩ := premisesHold_iff.mp h.premises
  have hk := write_keeps e p lvl
  obtain ⟨hc, hlatch⟩ : e.configured p = true ∧ p ≠ e.chain.rclkPin := by
    rcases hp with rfl | rfl
    · exact ⟨h.data, hrclk ▸ hdl⟩
    · exact ⟨h.shiftClock, hrclk ▸ hsl⟩
  have hset : e.write p lvl = e.setLine p lvl := write_of_vouched lvl h.vouched hf hc
  refine ⟨⟨premisesHold_of_keeps hk ?_ h.premises, ?_, hk.configured _ h.data, hk.configured _ h.shiftClock⟩, ?_⟩ <;>
    rw [hset]
  · exact setLine_fault e p lvl
  · rw [setLine_standing, h.vouched]
  · exact setLine_storage lvl hlatch

/-- One action of a bit. -/
theorem Shifting.perform {s : State} {a : Action} {b : Bit} (h : Shifting s.cfg s.env)
    (ha : a ∈ serializeBit s.cfg.dataPin s.cfg.shiftClockPin b) :
    Shifting s.cfg (s.perform a).env ∧ (s.perform a).env.chain.storage = s.env.chain.storage := by
  simp only [serializeBit, pulse, List.cons_append, List.nil_append, List.mem_cons, List.not_mem_nil, or_false] at ha
  rcases ha with rfl | rfl | rfl | rfl
  · exact h.write _ (.inl rfl)
  · exact ⟨h, rfl⟩
  · exact h.write _ (.inr rfl)
  · exact h.write _ (.inr rfl)

/-- Any list of such actions: a prefix of the shift phase may break off inside a bit. -/
theorem performAll_storage_of_shifting {s : State} {as : List Action} (h : Shifting s.cfg s.env)
    (has : ∀ a ∈ as, ∃ b, a ∈ serializeBit s.cfg.dataPin s.cfg.shiftClockPin b) :
    (s.performAll as).env.chain.storage = s.env.chain.storage := by
  induction as generalizing s with
  | nil => rfl
  | cons a as ih =>
    obtain ⟨⟨b, ha⟩, has⟩ := List.forall_mem_cons.mp has
    obtain ⟨hnext, hstorage⟩ := h.perform ha
    rw [performAll_cons]
    exact (ih (by rwa [perform_cfg]) (by rwa [perform_cfg])).trans hstorage

/-- A transaction's actions before the latch pulse are those of its bits. -/
theorem take_txn {d s l : PinId} {bits : BitSequence} {k : Nat} (hk : k ≤ 4 * bits.length) :
    (txn d s l bits).take k = (bits.flatMap (serializeBit d s)).take k := by
  have hlen := length_txn d s l bits
  simp only [txn, pulse, List.length_append, List.length_cons, List.length_nil] at hlen
  exact List.take_append_of_le_length (by omega)

/-- Settles O56: the shift phase is made of the actions of the bits, and none of them is a latch edge. -/
theorem outputsChangeOnlyAtTheLatchPulse : Obligations.OutputsChangeOnlyAtTheLatchPulse := by
  intro s bits k hp hv hdata hshift hk
  rw [take_txn hk]
  refine performAll_storage_of_shifting ⟨mirrorPremises_iff.mp hp, hv, hdata, hshift⟩ fun a ha => ?_
  obtain ⟨b, -, hb⟩ := List.mem_flatMap.mp (List.mem_of_mem_take ha)
  exact ⟨b, hb⟩

/-! ### The end of a run (R245) -/

theorem finished_iff {s : State} : s.finished = true ↔
    (∀ m ∈ s.host, m.act.presents = false) ∧ s.port = [] ∧ s.phase ≠ .busy ∧ s.seq = [] ∧ s.pendingReply = none ∧
      s.dropped = 0 := by
  simp [State.finished, and_assoc]

theorem ready_iff {s : State} : s.ready = true ↔ s.phase ≠ .busy := by
  unfold State.ready
  cases s.phase <;> simp

/-- With no move due, the block waits at its empty port (notes/assumptions/14.md). -/
theorem step_finished {s : State} (h : s.finished = true) (hd : noMoveDue s.host = true) :
    step s = .next { s with host := passTurn s.host } := by
  obtain ⟨-, hport, hb, -⟩ := finished_iff.mp h
  rw [step_port s hb hd, hport]
  rfl

/-- A run is finished under any schedule that presents nothing, if it is finished under one. -/
theorem finished_schedule {s : State} {host : List HostMove} (h : s.finished = true)
    (hhost : ∀ m ∈ host, m.act.presents = false) : State.finished { s with host := host } = true :=
  finished_iff.mpr ⟨hhost, (finished_iff.mp h).2⟩

/-- A move that presents nothing; the reset input finds no command in progress to drop. -/
theorem finished_hostAct {s : State} {act : HostAct} (h : s.finished = true) (ha : act.presents = false) :
    (s.hostAct act).finished = true := by
  cases act with
  | present bytes =>
    have hbytes : bytes = [] := by simpa [HostAct.presents] using ha
    have hsame : s.hostAct (.present bytes) = s := by simp [State.hostAct, hbytes]
    rwa [hsame]
  | configurePin p => exact h
  | writePin p lvl => exact h
  | rewire ser srclk rclk => exact h
  | assertReset =>
    obtain ⟨hhost, hport, hb, -, -, hdropped⟩ := finished_iff.mp h
    obtain ⟨-, hkept⟩ := dropped_assertReset s
    exact finished_iff.mpr ⟨hhost, hport, nofun, rfl, rfl, (hkept hb).trans hdropped⟩

/-- Settles O14: the block is not Busy, and a step is a due move of the host or a wait. -/
theorem finishedRunsStay : Obligations.FinishedRunsStay := by
  intro s h
  obtain ⟨hhost, -, hb, -⟩ := finished_iff.mp h
  refine ⟨ready_iff.mpr hb, fun hh => ?_, fun t hstep => ?_⟩
  · rw [step_finished h (by rw [hh]; rfl), passTurn_host hh]
  · rcases noMoveDue_cases s.host with hd | ⟨act, rest, hh⟩
    · rw [step_finished h hd, Host.Outcome.next.injEq] at hstep
      exact hstep ▸ finished_schedule h (act_passTurn (P := fun act => act.presents = false) hhost)
    · rw [step_hostMove hh, Host.Outcome.next.injEq] at hstep
      rw [hh] at hhost
      obtain ⟨hact, hrest⟩ := List.forall_mem_cons.mp hhost
      exact hstep ▸ finished_hostAct (finished_schedule h hrest) hact

end Sys2Proof.Proofs
